-- ==== Sys2Proof/Word.lean ====
section
/-! DEFINITION. The word types of FC16: every value of the spec is an unsigned number of 8, 16 or 32 bits (00_scope.md R12, 10_state.md R39). -/

namespace Sys2Proof

/-- 8 bits, the unit of storage and of transfer (20_memory.md R50). -/
abbrev Byte := BitVec 8

/-- 16 bits: the checksum, a register number or value, a model code. -/
abbrev Word := BitVec 16

/-- 32 bits: the serial number (10_state.md R28). -/
abbrev DWord := BitVec 32

end Sys2Proof
end

