-- ==== Sys2Proof/Config.lean ====
section
/-! DEFINITION. What is fixed before a session starts: the fixed parameters of 00_scope.md R9 as constants, the open parameters of R10 and the session's configuration (10_state.md R22) as a record, and the free values of the environment's draws (R21). -/

namespace Sys2Proof

/-! ## Fixed parameters (R9) -/

/-- `CRC_POLY` (R9, 40_crc16.md R120). -/
def Config.crcPoly : Word := 0xA001#16

/-- `CRC_INIT` (R9, R120). -/
def Config.crcInit : Word := 0xFFFF#16

/-- `DEV_ADDR` (R9). -/
def Config.devAddr : Byte := 0x01#8

/-- `FN_READ` (R9). -/
def Config.fnRead : Byte := 0x03#8

/-- `FN_WRITE` (R9). -/
def Config.fnWrite : Byte := 0x06#8

/-- `RD_BYTECOUNT` (R9). -/
def Config.rdByteCount : Byte := 0x08#8

/-- `RD_START` (R9). -/
def Config.rdStart : Word := 0x0000#16

/-- `RD_COUNT` (R9). -/
def Config.rdCount : Word := 0x0004#16

/-- `REG_REBOOT` (R9). -/
def Config.regReboot : Word := 0x0100#16

/-- `VAL_REBOOT` (R9). -/
def Config.valReboot : Word := 0x1601#16

/-- `RD_RESP_LEN` (R9). -/
def Config.rdRespLen : Nat := 13

/-- `REQ_LEN` (R9), which is also the size of `TXBUF` (10_state.md R25). -/
def Config.reqLen : Nat := 8

/-- `ACK_LEN` (R9). -/
def Config.ackLen : Nat := 1

/-- `INFO_LEN` (R9). -/
def Config.infoLen : Nat := 13

/-- `INFO_PREFIX_LEN` (R9). -/
def Config.infoPrefixLen : Nat := 3

/-- `BOOT_TOK_LEN` (R9). -/
def Config.bootTokLen : Nat := 4

/-- `READY_TOK_LEN` (R9). -/
def Config.readyTokLen : Nat := 6

/-- `OK_TOK_LEN` (R9). -/
def Config.okTokLen : Nat := 2

/-- `RX_CAP` (R9): the size of `RXBUF`. -/
def Config.rxCap : Nat := 13

/-- `TOK_OK` (R9): upper-case O, K. -/
def Config.tokOk : List Byte := [0x4F#8, 0x4B#8]

/-- `CHUNK` (R9): bytes of a firmware chunk. -/
def Config.chunkSize : Nat := 64

/-- `REGISTRY` (R9, 44_session_phases.md R205). -/
def Config.registry : List Word :=
  [60062#16, 60065#16, 60066#16, 60121#16, 60125#16, 60181#16, 60241#16]

/-- `DL_DISCOVERY` in seconds (R9). -/
def Config.dlDiscovery : Nat := 2

/-- `DL_FLASH` in seconds (R9). -/
def Config.dlFlash : Nat := 5

/-- `SETTLE` in seconds (R9); no rule's outcome depends on it (70_reset_and_hazards.md R267). -/
def Config.settle : Nat := 3

/-- `BAUD_DEFAULT` (R9). -/
def Config.baudDefault : Nat := 115200

/-- The fixed frame `FRAME_RD4` (30_encoding.md R85). -/
def Config.frameRd4 : List Byte :=
  [0x01#8, 0x03#8, 0x00#8, 0x00#8, 0x00#8, 0x04#8, 0x44#8, 0x09#8]

/-- The fixed frame `FRAME_REBOOT` (30_encoding.md R86). -/
def Config.frameReboot : List Byte :=
  [0x01#8, 0x06#8, 0x01#8, 0x00#8, 0x16#8, 0x01#8, 0x47#8, 0x96#8]

/-! ## The session's configuration (10_state.md R22) -/

/-- What is fixed for the life of a session: the open parameters of 00_scope.md R10, of which nothing is assumed but their length, the firmware image (10_state.md R34), and the parameters that are supplied from outside (R253). -/
structure SessionConfig where
  /-- `TOK_QUERY`, length open. -/
  tokQuery : List Byte
  /-- `TOK_BOOT`, 4 bytes. -/
  tokBoot : Vector Byte 4
  /-- `REBOOT_ACK`, 1 byte. -/
  rebootAck : Byte
  /-- `TOK_GETINFO`, length open. -/
  tokGetInfo : List Byte
  /-- `INFO_PREFIX`, 3 bytes. -/
  infoPrefix : Vector Byte 3
  /-- `TOK_START`, length open. -/
  tokStart : List Byte
  /-- `TOK_READY`, 6 bytes. -/
  tokReady : Vector Byte 6
  /-- `IMAGE`, any finite length. -/
  image : List Byte
  /-- The port identifier; no rule reads it. -/
  portId : String
  /-- The baud rate; no rule reads it (R267). -/
  baud : Nat
  /-- The verbosity flag; tracing is omitted from the model by R243. -/
  verbose : Bool
  deriving DecidableEq, Repr

/-- Open value at reset (Log 5). -/
opaque Config.tokQuery : List Byte
/-- Open value at reset (Log 5). -/
opaque Config.tokBoot : Vector Byte 4
/-- Open value at reset (Log 5). -/
opaque Config.rebootAck : Byte
/-- Open value at reset (Log 5). -/
opaque Config.tokGetInfo : List Byte
/-- Open value at reset (Log 5). -/
opaque Config.infoPrefix : Vector Byte 3
/-- Open value at reset (Log 5). -/
opaque Config.tokStart : List Byte
/-- Open value at reset (Log 5). -/
opaque Config.tokReady : Vector Byte 6
/-- Open value at reset (Log 5). -/
opaque Config.image : List Byte
/-- Open value at reset (Log 5). -/
opaque Config.portId : String
/-- Open value at reset (Log 5). -/
opaque Config.verbose : Bool

/-- The configuration of the reset state: every open value is an opaque constant (Log 5). -/
def Config.session : SessionConfig where
  tokQuery := Config.tokQuery
  tokBoot := Config.tokBoot
  rebootAck := Config.rebootAck
  tokGetInfo := Config.tokGetInfo
  infoPrefix := Config.infoPrefix
  tokStart := Config.tokStart
  tokReady := Config.tokReady
  image := Config.image
  portId := Config.portId
  baud := Config.baudDefault
  verbose := Config.verbose

/-! ## The environment's draws (10_state.md R21, 43_transport_ops.md R180) -/

/-- What a `link.read_up_to` answers: bytes, or an I/O error (R180). -/
inductive ReadDraw where
  | bytes (answer : List Byte)
  | ioError
  deriving DecidableEq, Repr, Inhabited

/-- What a `link.write_all` answers: success, or an I/O error after an unknown number of bytes was accepted (R180, 93_implementation_defined.md U16). -/
inductive WriteDraw where
  | ok
  | ioError (accepted : Nat)
  deriving DecidableEq, Repr, Inhabited

/-- Free value: the answer of link call number `n` where it is a read and the state fixes none (Log 2). -/
opaque Config.freeRead : Nat → ReadDraw

/-- Free value: the answer of link call number `n` where it is a write and the state fixes none (Log 2). -/
opaque Config.freeWrite : Nat → WriteDraw

end Sys2Proof
end

