-- ==== Sys2Proof/Machine/Operands.lean ====
section
/-! DEFINITION. Field and operand forms: byte order (00_scope.md R12, 20_memory.md R56 to R60, 30_encoding.md R95 to R98), operand ranges (R107, R108), and the chunking of the image (44_session_phases.md R207). -/

namespace Sys2Proof

/-- `lo8(v) = v[7:0]` (R12). -/
def lo8 (v : Word) : Byte := v.extractLsb' 0 8

/-- `hi8(v) = v[15:8]` (R12). -/
def hi8 (v : Word) : Byte := v.extractLsb' 8 8

/-- `be16(h, l) = h * 256 + l` (R12). -/
def be16 (h l : Byte) : Word := h ++ l

/-- `le16(l, h) = h * 256 + l` (R12): the same value, named by the order on the wire. -/
def le16 (l h : Byte) : Word := h ++ l

/-- `le32(b0, b1, b2, b3) = b0 + b1 * 2^8 + b2 * 2^16 + b3 * 2^24` (R12). -/
def le32 (b0 b1 b2 b3 : Byte) : DWord := b3 ++ b2 ++ b1 ++ b0

/-- Byte `k` of a 32-bit value, byte 0 the least significant (R90). -/
def byteOf (v : DWord) (k : Nat) : Byte := v.extractLsb' (8 * k) 8

/-- Byte at offset `i` of a message whose length was checked before (R155). -/
def byteAt (B : List Byte) (i : Nat) : Byte := B.getD i 0

/-- `RECV n` takes `n` from 1 to 13 (R107, R108). -/
def recvCountOk (n : Byte) : Bool := decide (1 ≤ n.toNat ∧ n.toNat ≤ Config.rxCap)

/-- The token that `SENDTOK k` sends: 0 is `TOK_QUERY`, 1 is `TOK_GETINFO`, 2 is `TOK_START` (R185). -/
def tokenOf (cfg : SessionConfig) (k : Byte) : Option (List Byte) :=
  if k = 0#8 then some cfg.tokQuery
  else if k = 1#8 then some cfg.tokGetInfo
  else if k = 2#8 then some cfg.tokStart
  else none

/-- A version byte denotes (major, minor) = (`v div 100`, `v mod 100`), for display only (R98, 42_frame_decode.md R166). -/
def versionParts (v : Byte) : Nat × Nat := (v.toNat / 100, v.toNat % 100)

/-- `nchunks(N)` (R207). -/
def nchunks (n : Nat) : Nat := (n + 63) / Config.chunkSize

/-- `chunk(IMAGE, i)` (R207): the bytes at offsets `64*i` to `min(64*i + 64, N) - 1`. -/
def chunkOf (image : List Byte) (i : Nat) : List Byte :=
  (image.drop (Config.chunkSize * i)).take Config.chunkSize

end Sys2Proof
end

