-- ==== Sys2Proof/Machine/Checksum.lean ====
section
/-! DEFINITION. The checksum function (40_crc16.md R120 to R125) and the request frame built with it (41_frame_encode.md R141). -/

namespace Sys2Proof

/-- Bit step (R121). -/
def crcBit (c : Word) : Word :=
  if c.getLsbD 0 then (c >>> 1) ^^^ Config.crcPoly else c >>> 1

/-- Byte step (R122): the byte goes into bits 7..0, then 8 bit steps. -/
def crcByte (c : Word) (b : Byte) : Word :=
  crcBit (crcBit (crcBit (crcBit (crcBit (crcBit (crcBit (crcBit (c ^^^ b.zeroExtend 16))))))))

/-- Message level (R123). -/
def crc16 (M : List Byte) : Word := M.foldl crcByte Config.crcInit

/-- Appending (R124): low byte first. -/
def crcAppend (M : List Byte) : List Byte := M ++ [lo8 (crc16 M), hi8 (crc16 M)]

/-- Checking (R125). -/
def crcOk (F : List Byte) : Bool :=
  decide (2 ≤ F.length ∧
    F.drop (F.length - 2) =
      [lo8 (crc16 (F.take (F.length - 2))), hi8 (crc16 (F.take (F.length - 2)))])

/-- `body(a, f, p, q)` (R141). -/
def reqBody (a f : Byte) (p q : Word) : List Byte := [a, f, hi8 p, lo8 p, hi8 q, lo8 q]

/-- `enc_req(a, f, p, q)` (R141). -/
def encReq (a f : Byte) (p q : Word) : List Byte := crcAppend (reqBody a f p q)

/-- The bytes of a read response before its checksum (30_encoding.md R87). -/
def rspBody (m : Word) (x5 x6 x7 x8 x9 v : Byte) : List Byte :=
  [Config.devAddr, Config.fnRead, Config.rdByteCount, hi8 m, lo8 m, x5, x6, x7, x8, x9, v]

end Sys2Proof
end

