-- ==== Sys2Proof/Syntax.lean ====
section
/-! DEFINITION. The instructions: one constructor per row of spec/opcode_table.json, 24 operations of the block (30_encoding.md R107) and 11 wire messages (R82 to R94, R99), and the form in which one is presented to the machine. -/

namespace Sys2Proof

/-- One operation of the host, or one message on the link. Operand names are the table's. -/
inductive Instr where
  /-- CRC.INIT (R126) -/
  | crcInit
  /-- CRC.UPD b (R127) -/
  | crcUpd (b : Byte)
  /-- CRC.GET (R128) -/
  | crcGet
  /-- ENC.RHR a, s, n (R142) -/
  | encRhr (a : Byte) (start count : Word)
  /-- ENC.WSR a, r, v (R143) -/
  | encWsr (a : Byte) (reg value : Word)
  /-- LD.RD4 (R144) -/
  | ldRd4
  /-- LD.REBOOT (R145) -/
  | ldReboot
  /-- DEC.RHR4 (R157) -/
  | decRhr4
  /-- DEC.ACK (R159) -/
  | decAck
  /-- DEC.INFO (R163) -/
  | decInfo
  /-- CMP.BOOT (R165) -/
  | cmpBoot
  /-- CHK.READY (R167) -/
  | chkReady
  /-- CHK.OK (R168) -/
  | chkOk
  /-- SEND (R181) -/
  | send
  /-- RECV n (R182) -/
  | recv (n : Byte)
  /-- SETDL d (R183), whole seconds -/
  | setdl (d : Byte)
  /-- PAUSE (R184) -/
  | pause
  /-- SENDTOK k (R185) -/
  | sendtok (k : Byte)
  /-- SENDCHUNK (R186) -/
  | sendchunk
  /-- PH.DETECT (R195) -/
  | phDetect
  /-- PH.LEGACY (R197) -/
  | phLegacy
  /-- PH.IDENT (R200) -/
  | phIdent
  /-- PH.GATE (R204) -/
  | phGate
  /-- PH.XFER (R206) -/
  | phXfer
  /-- RHR.REQ (R83): address, first register, register count, CRC -/
  | rhrReq (a : Byte) (p q c : Word)
  /-- WSR.REQ (R84): address, register number, value, CRC -/
  | wsrReq (a : Byte) (p q c : Word)
  /-- RD4.REQ (R85) -/
  | rd4Req
  /-- REBOOT.REQ (R86) -/
  | rebootReq
  /-- RD4.RSP (R87): register 0, the uninterpreted bytes at offsets 5 to 9, the version byte, CRC -/
  | rd4Rsp (m : Word) (x5 x6 x7 x8 x9 : Byte) (v : Byte) (c : Word)
  /-- REBOOT.ACK (R89) -/
  | rebootAck (k : Byte)
  /-- INFO.RSP (R90): the three bytes in the place of the info marker, serial number, model code, uninterpreted bytes 9 and 10, version, uninterpreted byte 12 -/
  | infoRsp (f0 f1 f2 : Byte) (serial : DWord) (m : Word) (x9 x10 v y : Byte)
  /-- OK.TOK (R92) -/
  | okTok
  /-- BOOT.TOK (R92) -/
  | bootTok (t0 t1 t2 t3 : Byte)
  /-- READY.TOK (R92) -/
  | readyTok (t0 t1 t2 t3 t4 t5 : Byte)
  /-- CHUNK (R94): 1 to 64 image bytes -/
  | chunk (d : List Byte)
  deriving DecidableEq, Repr

/-- The wire formats of the table. A message is named by its format because FC16 does not classify a message by its content (R100, Log 11). -/
inductive WireFormat where
  | rhrReq | wsrReq | rd4Req | rebootReq | rd4Rsp | rebootAck | infoRsp | okTok | bootTok | readyTok | chunk
  deriving DecidableEq, Repr

/-- What the outside presents to the machine: a command word (R106) or a message on the link (R99). -/
inductive Input where
  | command (word : List Byte)
  | message (format : WireFormat) (bytes : List Byte)
  deriving DecidableEq, Repr

end Sys2Proof
end

