-- ==== Sys2Proof/WellFormed.lean ====
section
/-! DEFINITION. Which instructions meet the ranges and the fixed relations of their table rows: operand ranges (30_encoding.md R107), the CRC field of the binary frames (R82, R87), the length of a chunk (R94). The bytes that must equal an open parameter are not checked here: the parameter is open (00_scope.md R10) and the decode operations compare them. -/

namespace Sys2Proof

/-- The instruction is one the spec's tables allow. -/
def Instr.wellFormed (i : Instr) : Bool :=
  match i with
  | .crcInit => true
  | .crcUpd _ => true
  | .crcGet => true
  | .encRhr _ _ _ => true
  | .encWsr _ _ _ => true
  | .ldRd4 => true
  | .ldReboot => true
  | .decRhr4 => true
  | .decAck => true
  | .decInfo => true
  | .cmpBoot => true
  | .chkReady => true
  | .chkOk => true
  | .send => true
  | .recv n => recvCountOk n
  | .setdl _ => true
  | .pause => true
  | .sendtok k => decide (k.toNat ≤ 2)
  | .sendchunk => true
  | .phDetect => true
  | .phLegacy => true
  | .phIdent => true
  | .phGate => true
  | .phXfer => true
  | .rhrReq a p q c => decide (c = crc16 (reqBody a Config.fnRead p q))
  | .wsrReq a p q c => decide (c = crc16 (reqBody a Config.fnWrite p q))
  | .rd4Req => true
  | .rebootReq => true
  | .rd4Rsp m x5 x6 x7 x8 x9 v c => decide (c = crc16 (rspBody m x5 x6 x7 x8 x9 v))
  | .rebootAck _ => true
  | .infoRsp _ _ _ _ _ _ _ _ _ => true
  | .okTok => true
  | .bootTok _ _ _ _ => true
  | .readyTok _ _ _ _ _ _ => true
  | .chunk d => decide (1 ≤ d.length ∧ d.length ≤ Config.chunkSize)

end Sys2Proof
end

