-- ==== Sys2Proof/Decode.lean ====
section
/-! DEFINITION. Decoding, total on any input and rejecting by name, and the encoder, both written from the tables of 30_encoding.md (R82 to R94, R106, R107); and the reading of a word of spec/opcode_table.json. -/

namespace Sys2Proof

/-- Why an input is no instruction. Each is a refusal of R108 or a message that has not the shape its format names. -/
inductive DecodeError where
  /-- A command word of no bytes. -/
  | emptyWord
  /-- A command code that is not in the table of R107. -/
  | unknownCode (op : Byte)
  /-- A command word that is shorter or longer than its code's total length in R107. -/
  | wrongLength (op : Byte)
  /-- A message that has not the layout of its format. -/
  | notThatMessage (format : WireFormat)
  deriving DecidableEq, Repr

/-- Total length of a command word by its code (R107); 0 for a code that is not in the table. -/
def commandLength (op : Byte) : Nat :=
  if op ∈ [0x00#8, 0x02#8, 0x12#8, 0x13#8, 0x20#8, 0x21#8, 0x22#8, 0x23#8, 0x24#8, 0x25#8,
      0x30#8, 0x33#8, 0x35#8, 0x40#8, 0x41#8, 0x42#8, 0x43#8, 0x44#8] then 1
  else if op ∈ [0x01#8, 0x31#8, 0x32#8, 0x34#8] then 2
  else if op ∈ [0x10#8, 0x11#8] then 6
  else 0

/-- The operations without operands (R107). -/
def decodePlain (op : Byte) : Option Instr :=
  if op = 0x00#8 then some .crcInit
  else if op = 0x02#8 then some .crcGet
  else if op = 0x12#8 then some .ldRd4
  else if op = 0x13#8 then some .ldReboot
  else if op = 0x20#8 then some .decRhr4
  else if op = 0x21#8 then some .decAck
  else if op = 0x22#8 then some .decInfo
  else if op = 0x23#8 then some .cmpBoot
  else if op = 0x24#8 then some .chkReady
  else if op = 0x25#8 then some .chkOk
  else if op = 0x30#8 then some .send
  else if op = 0x33#8 then some .pause
  else if op = 0x35#8 then some .sendchunk
  else if op = 0x40#8 then some .phDetect
  else if op = 0x41#8 then some .phLegacy
  else if op = 0x42#8 then some .phIdent
  else if op = 0x43#8 then some .phGate
  else if op = 0x44#8 then some .phXfer
  else none

/-- The operations with one operand byte (R107). -/
def decodeByteOperand (op b : Byte) : Option Instr :=
  if op = 0x01#8 then some (.crcUpd b)
  else if op = 0x31#8 then some (.recv b)
  else if op = 0x32#8 then some (.setdl b)
  else if op = 0x34#8 then some (.sendtok b)
  else none

/-- The operations with an address byte and two 16-bit operands, each with its more significant byte first (R106, R107). -/
def decodeFrameOperands (op a ph pl qh ql : Byte) : Option Instr :=
  if op = 0x10#8 then some (.encRhr a (be16 ph pl) (be16 qh ql))
  else if op = 0x11#8 then some (.encWsr a (be16 ph pl) (be16 qh ql))
  else none

/-- Why a word that no table row matches is refused (R108). -/
def commandError (op : Byte) : DecodeError :=
  if commandLength op = 0 then .unknownCode op else .wrongLength op

/-- The instruction of a table row, or the refusal. -/
def orCommandError (op : Byte) (i : Option Instr) : Except DecodeError Instr :=
  match i with
  | some i => .ok i
  | none => .error (commandError op)

/-- A command word: one opcode byte and its operand bytes (R106, R107). -/
def decodeCommand (word : List Byte) : Except DecodeError Instr :=
  match word with
  | [] => .error .emptyWord
  | [op] => orCommandError op (decodePlain op)
  | [op, b] => orCommandError op (decodeByteOperand op b)
  | [op, a, ph, pl, qh, ql] => orCommandError op (decodeFrameOperands op a ph pl qh ql)
  | op :: _ => .error (commandError op)

/-- A message in a named wire format (R82 to R94). -/
def decodeMessage (format : WireFormat) (B : List Byte) : Except DecodeError Instr :=
  match format, B with
  | .rhrReq, [a, f, ph, pl, qh, ql, cl, ch] =>
    if f = Config.fnRead then .ok (.rhrReq a (be16 ph pl) (be16 qh ql) (le16 cl ch))
    else .error (.notThatMessage .rhrReq)
  | .wsrReq, [a, f, ph, pl, qh, ql, cl, ch] =>
    if f = Config.fnWrite then .ok (.wsrReq a (be16 ph pl) (be16 qh ql) (le16 cl ch))
    else .error (.notThatMessage .wsrReq)
  | .rd4Req, B => if B = Config.frameRd4 then .ok .rd4Req else .error (.notThatMessage .rd4Req)
  | .rebootReq, B =>
    if B = Config.frameReboot then .ok .rebootReq else .error (.notThatMessage .rebootReq)
  | .rd4Rsp, [a, f, n, mh, ml, x5, x6, x7, x8, x9, v, cl, ch] =>
    if a = Config.devAddr ∧ f = Config.fnRead ∧ n = Config.rdByteCount then
      .ok (.rd4Rsp (be16 mh ml) x5 x6 x7 x8 x9 v (le16 cl ch))
    else .error (.notThatMessage .rd4Rsp)
  | .rebootAck, [k] => .ok (.rebootAck k)
  | .infoRsp, [f0, f1, f2, s0, s1, s2, s3, ml, mh, x9, x10, v, y] =>
    .ok (.infoRsp f0 f1 f2 (le32 s0 s1 s2 s3) (le16 ml mh) x9 x10 v y)
  | .okTok, B => if B = Config.tokOk then .ok .okTok else .error (.notThatMessage .okTok)
  | .bootTok, [t0, t1, t2, t3] => .ok (.bootTok t0 t1 t2 t3)
  | .readyTok, [t0, t1, t2, t3, t4, t5] => .ok (.readyTok t0 t1 t2 t3 t4 t5)
  | .chunk, d =>
    if 1 ≤ d.length ∧ d.length ≤ Config.chunkSize then .ok (.chunk d)
    else .error (.notThatMessage .chunk)
  | format, _ => .error (.notThatMessage format)

/-- The decoder. -/
def decode (u : Input) : Except DecodeError Instr :=
  match u with
  | .command word => decodeCommand word
  | .message format B => decodeMessage format B

/-! ## Encoder -/

/-- The 8 bytes of a request with a given CRC field (R82). -/
def reqBytes (a f : Byte) (p q c : Word) : List Byte := reqBody a f p q ++ [lo8 c, hi8 c]

/-- The 13 bytes of a read response with a given CRC field (R87). -/
def rspBytes (m : Word) (x5 x6 x7 x8 x9 v : Byte) (c : Word) : List Byte :=
  rspBody m x5 x6 x7 x8 x9 v ++ [lo8 c, hi8 c]

/-- The 13 bytes of an info reply (R90). -/
def infoBytes (f0 f1 f2 : Byte) (serial : DWord) (m : Word) (x9 x10 v y : Byte) : List Byte :=
  [f0, f1, f2, byteOf serial 0, byteOf serial 1, byteOf serial 2, byteOf serial 3, lo8 m, hi8 m,
    x9, x10, v, y]

/-- The encoder: the command word or the message of an instruction (R82 to R94, R107). -/
def encode (i : Instr) : Input :=
  match i with
  | .crcInit => .command [0x00#8]
  | .crcUpd b => .command [0x01#8, b]
  | .crcGet => .command [0x02#8]
  | .encRhr a s n => .command [0x10#8, a, hi8 s, lo8 s, hi8 n, lo8 n]
  | .encWsr a r v => .command [0x11#8, a, hi8 r, lo8 r, hi8 v, lo8 v]
  | .ldRd4 => .command [0x12#8]
  | .ldReboot => .command [0x13#8]
  | .decRhr4 => .command [0x20#8]
  | .decAck => .command [0x21#8]
  | .decInfo => .command [0x22#8]
  | .cmpBoot => .command [0x23#8]
  | .chkReady => .command [0x24#8]
  | .chkOk => .command [0x25#8]
  | .send => .command [0x30#8]
  | .recv n => .command [0x31#8, n]
  | .setdl d => .command [0x32#8, d]
  | .pause => .command [0x33#8]
  | .sendtok k => .command [0x34#8, k]
  | .sendchunk => .command [0x35#8]
  | .phDetect => .command [0x40#8]
  | .phLegacy => .command [0x41#8]
  | .phIdent => .command [0x42#8]
  | .phGate => .command [0x43#8]
  | .phXfer => .command [0x44#8]
  | .rhrReq a p q c => .message .rhrReq (reqBytes a Config.fnRead p q c)
  | .wsrReq a p q c => .message .wsrReq (reqBytes a Config.fnWrite p q c)
  | .rd4Req => .message .rd4Req Config.frameRd4
  | .rebootReq => .message .rebootReq Config.frameReboot
  | .rd4Rsp m x5 x6 x7 x8 x9 v c => .message .rd4Rsp (rspBytes m x5 x6 x7 x8 x9 v c)
  | .rebootAck k => .message .rebootAck [k]
  | .infoRsp f0 f1 f2 serial m x9 x10 v y =>
    .message .infoRsp (infoBytes f0 f1 f2 serial m x9 x10 v y)
  | .okTok => .message .okTok Config.tokOk
  | .bootTok t0 t1 t2 t3 => .message .bootTok [t0, t1, t2, t3]
  | .readyTok t0 t1 t2 t3 t4 t5 => .message .readyTok [t0, t1, t2, t3, t4, t5]
  | .chunk d => .message .chunk d

/-! ## Words of spec/opcode_table.json (Log 11) -/

/-- The `n` low bytes of a number, least significant first. -/
def bytesLE (n w : Nat) : List Byte :=
  match n with
  | 0 => []
  | n + 1 => BitVec.ofNat 8 w :: bytesLE n (w / 256)

/-- The wire format that a table word of these bytes stands for: by its length, and by its selecting bytes where two formats share a length (R99). -/
def formatOfTableBytes (B : List Byte) : WireFormat :=
  match B.length with
  | 1 => .rebootAck
  | 2 => .okTok
  | 4 => .bootTok
  | 6 => .readyTok
  | 8 =>
    if B = Config.frameRd4 then .rd4Req
    else if B = Config.frameReboot then .rebootReq
    else if byteAt B 1 = Config.fnWrite then .wsrReq
    else .rhrReq
  | 13 =>
    if B.take 3 = [Config.devAddr, Config.fnRead, Config.rdByteCount] then .rd4Rsp else .infoRsp
  | _ => .chunk

/-- What a word of the table presents to the machine. A command row's number has the opcode in its low byte, and the operand bytes above it. A wire row's number is its pattern read as one number, so its byte 0 is the most significant (R81 and spec/98_reader.md). -/
def tableInput (nbits w : Nat) : Input :=
  if nbits ≤ 8 * commandLength (BitVec.ofNat 8 w) then
    .command (bytesLE (commandLength (BitVec.ofNat 8 w)) w)
  else
    .message (formatOfTableBytes (bytesLE (nbits / 8) w).reverse) (bytesLE (nbits / 8) w).reverse

/-- The instruction the decoder reads from a word of spec/opcode_table.json. -/
def decodeTableWord (nbits w : Nat) : Option Instr :=
  match decode (tableInput nbits w) with
  | .ok i => some i
  | .error _ => none

end Sys2Proof
end

