-- ==== Sys2Proof/Machine/State.lean ====
section
/-! DEFINITION. The state of FC16 and its environment as plain data (10_state.md R23), the reasons a step can stop, and the state after reset (R42). -/

namespace Sys2Proof.Machine

/-- A byte buffer: cells in rising order of offset; an offset that is not listed holds no value (R41, R42, Log 3). -/
abbrev Memory := List Host.Cell

/-- Session State (R30, R37). -/
inductive Session where
  | idle | bootloaderUnconfirmed | legacyDetected | rebootRequested | bootloaderConfirmed
  | identityKnown | modelValidated | transferring | complete | failed
  deriving DecidableEq, Repr

/-- Error kinds (R38, 60_exceptions.md R221). `imageSourceFailure` is listed by the source and raised by no operation (R225). -/
inductive ErrKind where
  | none | timeout | protocolViolation | unsupportedModel | transportFailure | imageSourceFailure
  deriving DecidableEq, Repr

/-- Error phases (R38). -/
inductive ErrPhase where
  | none | detect | legacy | identify | gate | transfer
  deriving DecidableEq, Repr

/-- The buffers that `MemRead` reads (00_scope.md R13, 20_memory.md R52). -/
inductive Space where
  | txbuf | rxbuf
  deriving DecidableEq, Repr

/-- `TXBUF`, `TXLEN` (R25). -/
structure TxUnit where
  buf : Memory
  len : Fin 9
  deriving DecidableEq, Repr

/-- `RXBUF`, `RXLEN`, `RX_FRESH` (R26). -/
structure RxUnit where
  buf : Memory
  len : Fin 14
  fresh : Bool
  deriving DecidableEq, Repr

/-- `PRE_MODEL`, `PRE_VERSION`, `PRE_VALID` (R27). -/
structure PreIdentity where
  model : Option Word
  version : Option Byte
  valid : Bool
  deriving DecidableEq, Repr

/-- `ID_SERIAL`, `ID_MODEL`, `ID_VERSION`, `ID_VALID` (R28). -/
structure Identity where
  serial : Option DWord
  model : Option Word
  version : Option Byte
  valid : Bool
  deriving DecidableEq, Repr

/-- `ERR_KIND`, `ERR_PHASE`, `ERR_BYTES`, `ERR_BLEN`, `ERR_CHUNK` (R29). -/
structure ErrRecord where
  kind : ErrKind
  phase : ErrPhase
  bytes : Memory
  blen : Fin 14
  chunk : Option Nat
  deriving DecidableEq, Repr

/-- One call of the link that moved bytes or failed (20_memory.md R72, 60_exceptions.md R243). -/
inductive LinkEvent where
  /-- `write_all` accepted these bytes. -/
  | wrote (bytes : List Byte)
  /-- `write_all` failed after these bytes were accepted (Log 2). -/
  | writeFailed (accepted : List Byte)
  /-- `read_up_to` returned these bytes. -/
  | readGave (bytes : List Byte)
  /-- `read_up_to` failed. -/
  | readFailed
  deriving DecidableEq, Repr

/-- The environment's side of the link: answers already chosen, the number of calls made, and what passed (Log 2, Log 6). MODEL's own. -/
structure Link where
  reads : List ReadDraw
  writes : List WriteDraw
  calls : Nat
  log : List LinkEvent
  deriving DecidableEq, Repr

/-- An output that an operation returns to the host (R36): `CRC.GET` (R128), `DEC.RHR4` (R158). MODEL's own (Log 7). -/
inductive Output where
  | nothing
  | crcBytes (first second : Byte)
  | preIdentity (model : Word) (version : Byte)
  deriving DecidableEq, Repr

/-- Why the machine stops with a fault. -/
inductive Fault where
  /-- A buffer read at an offset at or beyond the valid length, or one that holds no value (20_memory.md R52, which defines no such read). Raised by `SEND` and the six decode operations on a state whose buffer does not hold its own length of bytes; no state that meets `State.BuffersInv` is one. Safe: the model stops where the spec gives no value (Log 10). -/
  | bufferRead (space : Space)
  deriving DecidableEq, Repr

/-- What an operation that is refused by R41 would have read. -/
inductive Unwritten where
  | crc | txFrame | reply | identity
  deriving DecidableEq, Repr

/-- Why an operation is refused: 60_exceptions.md R232. A refusal changes no state. All but the last two are the spec's own refusals. All are safe. -/
inductive Refusal where
  /-- Rejected by name, raised by no arm: every instruction of the table has its meaning. -/
  | notModelled (mnemonic : String)
  /-- The input is no instruction (R108). Raised by `step`. -/
  | illegalInput (why : DecodeError)
  /-- `RECV` or `SENDTOK` with an operand outside its range (R108). -/
  | operandOutOfRange
  /-- Any operation after a fault (R229). -/
  | sessionFailed
  /-- Any operation after `Complete` (R193). -/
  | sessionComplete
  /-- A phase operation outside its entry state (R193), or `SENDCHUNK` outside `Transferring` (R186). -/
  | wrongSession (current : Session)
  /-- An operation that would read a register that holds no value, or a reply already consumed. Raised by CRC.UPD, CRC.GET, SEND, PH.GATE and the six decode and compare operations, which 10_state.md R41 says are refused there (R232 of 60_exceptions.md lists it among the refusals; decision D32; vectors T19, T45, T61). -/
  | unwritten (what : Unwritten)
  /-- A second `DEC.INFO`, alone (R163) or when `PH.IDENT` comes to it (R200, Log 12). -/
  | alreadyIdentified
  /-- `SENDCHUNK` with `CHUNK_IDX >= nchunks` (R186). -/
  | noSuchChunk
  /-- A request message whose CRC field is not the CRC of its body: FC16 builds no such frame (41_frame_encode.md R148, Log 8). -/
  | checksumMismatch
  /-- A chunk message that is not the chunk `CHUNK_IDX` selects: FC16 sends no other (R94, R186, Log 8). -/
  | notTheNextChunk
  deriving DecidableEq, Repr

/-- The machine: the registers of R23, the session's configuration (R22, Log 4), and the model's own fields `input`, `link`, `out`. -/
structure State where
  /-- `CRC` (R24). -/
  crc : Option Word
  /-- `TXBUF`, `TXLEN` (R25). -/
  tx : TxUnit
  /-- `RXBUF`, `RXLEN`, `RX_FRESH` (R26). -/
  rx : RxUnit
  /-- `PRE_*` (R27). -/
  pre : PreIdentity
  /-- `ID_*` (R28). -/
  ident : Identity
  /-- `MATCH` (R35). -/
  matched : Bool
  /-- `ERR_*` (R29). -/
  err : ErrRecord
  /-- `SESSION` (R30). -/
  session : Session
  /-- `CHUNK_IDX` (R32). -/
  chunkIdx : Nat
  /-- `DEADLINE` in whole seconds (R33). -/
  deadline : Nat
  /-- The configuration, which no operation writes (R22, Log 4). -/
  cfg : SessionConfig
  /-- What the outside will present, in order (R20, Log 1). -/
  input : List Input
  /-- The link (R180, Log 2). -/
  link : Link
  /-- The last output (Log 7). -/
  out : Output
  deriving DecidableEq, Repr

/-- A new session over a freshly opened link (R42, 70_reset_and_hazards.md R250). -/
def State.reset : State where
  crc := none
  tx := { buf := [], len := 0 }
  rx := { buf := [], len := 0, fresh := false }
  pre := { model := none, version := none, valid := false }
  ident := { serial := none, model := none, version := none, valid := false }
  matched := false
  err := { kind := .none, phase := .none, bytes := [], blen := 0, chunk := none }
  session := .idle
  chunkIdx := 0
  deadline := Config.dlDiscovery
  cfg := Config.session
  input := []
  link := { reads := [], writes := [], calls := 0, log := [] }
  out := .nothing

/-- Numeric code of `SESSION` (R37). -/
def Session.code (x : Session) : BitVec 4 :=
  match x with
  | .idle => 0 | .bootloaderUnconfirmed => 1 | .legacyDetected => 2 | .rebootRequested => 3
  | .bootloaderConfirmed => 4 | .identityKnown => 5 | .modelValidated => 6 | .transferring => 7
  | .complete => 8 | .failed => 9

/-- Numeric code of `ERR_KIND` (R38). -/
def ErrKind.code (x : ErrKind) : BitVec 3 :=
  match x with
  | .none => 0 | .timeout => 1 | .protocolViolation => 2 | .unsupportedModel => 3
  | .transportFailure => 4 | .imageSourceFailure => 5

/-- Numeric code of `ERR_PHASE` (R38). -/
def ErrPhase.code (x : ErrPhase) : BitVec 3 :=
  match x with
  | .none => 0 | .detect => 1 | .legacy => 2 | .identify => 3 | .gate => 4 | .transfer => 5

end Sys2Proof.Machine
end

