-- ==== Sys2Proof/Machine/Ops.lean ====
section
/-! DEFINITION. The shared operations: buffers, register updates, the fault action `raise` (60_exceptions.md R226), the sequencing of a phase, and the calls of the link (43_transport_ops.md R180). -/

namespace Sys2Proof.Machine

/-- What a meaning answers. -/
abbrev Result := Host.Outcome State Fault Refusal

/-! ## Buffers (20_memory.md R52) -/

/-- The byte at an offset, if it holds one. -/
def Memory.read (m : Memory) (a : Nat) : Option Byte :=
  match m with
  | [] => none
  | (x, b) :: rest => if x = a then some b else Memory.read rest a

/-- Write one byte, keeping the offsets strictly rising. -/
def Memory.write (m : Memory) (a : Nat) (b : Byte) : Memory :=
  match m with
  | [] => [(a, b)]
  | (x, c) :: rest =>
    if a < x then (a, b) :: (x, c) :: rest
    else if a = x then (a, b) :: rest
    else (x, c) :: Memory.write rest a b

/-- Write bytes at consecutive offsets. -/
def Memory.writeBytes (m : Memory) (a : Nat) (B : List Byte) : Memory :=
  match B with
  | [] => m
  | b :: rest => Memory.writeBytes (Memory.write m a b) (a + 1) rest

/-- The buffer that holds exactly `B` from offset 0. -/
def Memory.ofBytes (B : List Byte) : Memory := Memory.writeBytes [] 0 B

/-- `n` bytes at consecutive offsets, if every one holds a value. -/
def Memory.readBytes (m : Memory) (a n : Nat) : Option (List Byte) :=
  match n with
  | 0 => some []
  | n + 1 =>
    match Memory.read m a, Memory.readBytes m (a + 1) n with
    | some b, some rest => some (b :: rest)
    | _, _ => none

/-- The canonical form: offsets strictly rising. An unlisted offset holds no value, so no entry can equal it. -/
abbrev Memory.wf (m : Memory) : Prop := m.Pairwise (fun x y => x.1 < y.1)

/-- The buffer of a space. -/
def State.bufferOf (sp : Space) (s : State) : Memory :=
  match sp with
  | .txbuf => s.tx.buf
  | .rxbuf => s.rx.buf

/-- The valid length of a space (10_state.md R25, R26). -/
def State.lengthOf (sp : Space) (s : State) : Nat :=
  match sp with
  | .txbuf => s.tx.len.val
  | .rxbuf => s.rx.len.val

/-- `MemRead(space, off, n)` (R13, R52). -/
def State.memRead (sp : Space) (off n : Nat) (s : State) : Except Fault (List Byte) :=
  if off + n ≤ s.lengthOf sp then
    match (s.bufferOf sp).readBytes off n with
    | some B => .ok B
    | none => .error (.bufferRead sp)
  else .error (.bufferRead sp)

/-- The received bytes `RXBUF[0..RXLEN-1]` as they stand after a read inside a phase. -/
def State.reply (s : State) : List Byte := (s.rx.buf.readBytes 0 s.rx.len.val).getD []

/-- The frame `TXBUF[0..TXLEN-1]` as it stands after it was built inside a phase. -/
def State.frame (s : State) : List Byte := (s.tx.buf.readBytes 0 s.tx.len.val).getD []

/-- A length register of a buffer of `cap` bytes. -/
def lengthReg (cap k : Nat) : Fin (cap + 1) := ⟨min k cap, Nat.lt_succ_of_le (Nat.min_le_right k cap)⟩

/-! ## One update per field -/

/-- Write the field. -/
def State.setCrc (v : Option Word) (s : State) : State := { s with crc := v }
/-- Write the field. -/
def State.setTx (v : TxUnit) (s : State) : State := { s with tx := v }
/-- Write the field. -/
def State.setRx (v : RxUnit) (s : State) : State := { s with rx := v }
/-- Write the field. -/
def State.setPre (v : PreIdentity) (s : State) : State := { s with pre := v }
/-- Write the field. -/
def State.setIdent (v : Identity) (s : State) : State := { s with ident := v }
/-- Write the field. -/
def State.setMatched (v : Bool) (s : State) : State := { s with matched := v }
/-- Write the field. -/
def State.setErr (v : ErrRecord) (s : State) : State := { s with err := v }
/-- Write the field. -/
def State.setSession (v : Session) (s : State) : State := { s with session := v }
/-- Write the field. -/
def State.setChunkIdx (v : Nat) (s : State) : State := { s with chunkIdx := v }
/-- Write the field. -/
def State.setDeadline (v : Nat) (s : State) : State := { s with deadline := v }
/-- Write the field. -/
def State.setInput (v : List Input) (s : State) : State := { s with input := v }
/-- Write the field. -/
def State.setLink (v : Link) (s : State) : State := { s with link := v }
/-- Write the field. -/
def State.setOut (v : Output) (s : State) : State := { s with out := v }

/-! ## Taking a fault (R226) -/

/-- The `ERR_` registers after `raise K(phase, bytes, chunk)`. -/
def ErrRecord.raised (k : ErrKind) (ph : ErrPhase) (bytes : Option (List Byte)) (chunk : Option Nat)
    (e : ErrRecord) : ErrRecord where
  kind := k
  phase := ph
  bytes := match bytes with
    | some B => e.bytes.writeBytes 0 B
    | none => e.bytes
  blen := match bytes with
    | some B => lengthReg 13 B.length
    | none => 0
  chunk := match chunk with
    | some i => some i
    | none => e.chunk

/-- `raise K(phase, bytes, chunk)`: the only fault action. The operation ends here, and with it the phase that contains it (`State.andThen`). There is no return from a fault (R230). -/
def State.raise (k : ErrKind) (ph : ErrPhase) (bytes : Option (List Byte)) (chunk : Option Nat)
    (s : State) : State :=
  (s.setErr (s.err.raised k ph bytes chunk)).setSession .failed

/-- The next sub-step of a phase: done unless a fault was recorded (R220, R226, R231). -/
def State.andThen (s : State) (f : State → State) : State :=
  if s.err.kind = .none then f s else s

/-- The phase that a link fault records, from `SESSION` (43_transport_ops.md R188). The two terminal states have none; no operation runs in them. -/
def phaseOf (x : Session) : ErrPhase :=
  match x with
  | .idle => .detect
  | .bootloaderUnconfirmed => .detect
  | .legacyDetected => .legacy
  | .rebootRequested => .legacy
  | .bootloaderConfirmed => .identify
  | .identityKnown => .gate
  | .modelValidated => .transfer
  | .transferring => .transfer
  | .complete => .none
  | .failed => .none

/-! ## The link (R180) -/

/-- The answer of the next read: the one the state fixes, else a free value (Log 2). -/
def Link.nextRead (l : Link) : ReadDraw :=
  match l.reads with
  | [] => Config.freeRead l.calls
  | d :: _ => d

/-- The answer of the next write: the one the state fixes, else a free value (Log 2). -/
def Link.nextWrite (l : Link) : WriteDraw :=
  match l.writes with
  | [] => Config.freeWrite l.calls
  | d :: _ => d

/-- The link after a read. -/
def Link.tookRead (e : LinkEvent) (l : Link) : Link :=
  { l with reads := l.reads.tail, calls := l.calls + 1, log := l.log ++ [e] }

/-- The link after a write. -/
def Link.tookWrite (e : LinkEvent) (l : Link) : Link :=
  { l with writes := l.writes.tail, calls := l.calls + 1, log := l.log ++ [e] }

/-- The link after a read whose answer was the instruction itself (Log 9). -/
def Link.delivered (B : List Byte) (l : Link) : Link :=
  { l with calls := l.calls + 1, log := l.log ++ [.readGave B] }

/-- `link.write_all(B)` of an operation in phase `ph` (R181, R185, R186). -/
def State.writeAll (ph : ErrPhase) (B : List Byte) (s : State) : State :=
  match s.link.nextWrite with
  | .ok => s.setLink (s.link.tookWrite (.wrote B))
  | .ioError k =>
    (s.setLink (s.link.tookWrite (.writeFailed (B.take k)))).raise .transportFailure ph none none

/-- A reply enters `RXBUF`; offsets at and beyond its length hold no value afterwards (R182, 10_state.md R26). -/
def State.storeReply (B : List Byte) (s : State) : State :=
  s.setRx { buf := Memory.ofBytes B, len := lengthReg 13 B.length, fresh := true }

/-- `RECV n` in phase `ph` (R182): one bounded read. -/
def State.receive (ph : ErrPhase) (n : Nat) (s : State) : State :=
  match s.link.nextRead with
  | .bytes r => (s.setLink (s.link.tookRead (.readGave (r.take n)))).storeReply (r.take n)
  | .ioError => (s.setLink (s.link.tookRead .readFailed)).raise .transportFailure ph none none

/-- A read that returns exactly the message `B` (Log 9). -/
def State.deliver (B : List Byte) (s : State) : State :=
  (s.setLink (s.link.delivered B)).storeReply B

/-- A built frame enters `TXBUF` (41_frame_encode.md R142 to R145). -/
def State.loadFrame (F : List Byte) (s : State) : State :=
  s.setTx { buf := s.tx.buf.writeBytes 0 F, len := lengthReg 8 F.length }

end Sys2Proof.Machine
end

