-- ==== Sys2Proof/Machine/Flags.lean ====
section
/-! DEFINITION. The status flags (10_state.md R35): who sets and clears each, and the checks that every operation makes of them (60_exceptions.md R229, 44_session_phases.md R193, 10_state.md R41). -/

namespace Sys2Proof.Machine

/-- `RX_FRESH <- 0`: the reply is consumed. -/
def State.consumeReply (s : State) : State := s.setRx { s.rx with fresh := false }

/-- A fault is recorded (R35: `ERR_KIND != 0`). -/
def State.faulted (s : State) : Bool := decide (s.err.kind ≠ .none)

/-- Operations may run: no fault recorded and the session not in a terminal state (R229, R193). -/
def State.live (s : State) : Bool :=
  decide (s.err.kind = .none ∧ s.session ≠ .failed ∧ s.session ≠ .complete)

/-- The check every operation makes first: refused after a fault (R229) and after completion (R193). -/
def admitted (s : State) (k : Result) : Result :=
  if s.err.kind ≠ .none ∨ s.session = .failed then .refused .sessionFailed
  else if s.session = .complete then .refused .sessionComplete
  else k

/-- The check every decode operation makes: a fresh reply (R41), then the received bytes. -/
def withReply (s : State) (k : List Byte → Result) : Result :=
  admitted s
    (if s.rx.fresh then
      match s.memRead .rxbuf 0 s.rx.len.val with
      | .ok B => k B
      | .error f => .fault f
    else .refused (.unwritten .reply))

/-- The check every phase operation makes: its entry state (R193). -/
def inSession (x : Session) (s : State) (k : Result) : Result :=
  admitted s (if s.session = x then k else .refused (.wrongSession s.session))

end Sys2Proof.Machine
end

