-- ==== Sys2Proof/Machine/Crc.lean ====
section
/-! DEFINITION. The streaming operations of the checksum unit (40_crc16.md R126 to R128). -/

namespace Sys2Proof.Machine

/-- CRC.INIT (R126). -/
def execCrcInit (s : State) : Result := admitted s (.next (s.setCrc (some Config.crcInit)))

/-- CRC.UPD b (R127); refused while `CRC` holds no value (10_state.md R41). -/
def execCrcUpd (b : Byte) (s : State) : Result :=
  admitted s
    (match s.crc with
    | some c => .next (s.setCrc (some (crcByte c b)))
    | none => .refused (.unwritten .crc))

/-- CRC.GET (R128): the output is the low byte, then the high byte. -/
def execCrcGet (s : State) : Result :=
  admitted s
    (match s.crc with
    | some c => .next (s.setOut (.crcBytes (lo8 c) (hi8 c)))
    | none => .refused (.unwritten .crc))

end Sys2Proof.Machine
end

