-- ==== Sys2Proof/Machine/Decoder.lean ====
section
/-! DEFINITION. The frame decoder (42_frame_decode.md R155 to R168). Each operation is a body over the received bytes, which the phases use too, and the meaning that checks the flags around it. -/

namespace Sys2Proof.Machine

/-- `rhr4_ok` (R156). -/
def rhr4Ok (B : List Byte) : Bool :=
  decide (B.length = Config.rdRespLen ∧
    B.take 3 = [Config.devAddr, Config.fnRead, Config.rdByteCount]) && crcOk B

/-- `info_ok` (R160). -/
def infoOk (cfg : SessionConfig) (B : List Byte) : Bool :=
  decide (B.length = Config.infoLen ∧ B.take Config.infoPrefixLen = cfg.infoPrefix.toList)

/-- `tok_eq` (R164): the whole token, nothing before or after it. -/
def tokEq (B T : List Byte) : Bool := decide (B = T)

/-- Extraction from the read response (R157): the model code big-endian at offset 3, the version at offset 10. -/
def State.takePreIdentity (B : List Byte) (s : State) : State :=
  (s.setPre
    { model := some (be16 (byteAt B 3) (byteAt B 4)), version := some (byteAt B 10), valid := true
      }).setOut (.preIdentity (be16 (byteAt B 3) (byteAt B 4)) (byteAt B 10))

/-- Extraction from the info reply (R161, R162, R163): serial number and model code little-endian on the wire. -/
def State.takeIdentity (B : List Byte) (s : State) : State :=
  s.setIdent
    { serial := some (le32 (byteAt B 3) (byteAt B 4) (byteAt B 5) (byteAt B 6))
      model := some (le16 (byteAt B 7) (byteAt B 8))
      version := some (byteAt B 11)
      valid := true }

/-- The checks of `DEC.RHR4` in order, then the extraction (R157). -/
def State.decodeRhr4 (B : List Byte) (s : State) : State :=
  if B.length = 0 then s.raise .timeout .legacy none none
  else if B.length ≠ Config.rdRespLen then s.raise .protocolViolation .legacy (some B) none
  else if B.take 3 ≠ [Config.devAddr, Config.fnRead, Config.rdByteCount] then
    s.raise .protocolViolation .legacy (some B) none
  else if crcOk B = false then s.raise .protocolViolation .legacy (some B) none
  else (s.takePreIdentity B).consumeReply

/-- The check of `DEC.ACK` (R159). -/
def State.decodeAck (B : List Byte) (s : State) : State :=
  if B.length ≠ Config.ackLen ∨ byteAt B 0 ≠ s.cfg.rebootAck then
    s.raise .protocolViolation .legacy (some B) none
  else s.consumeReply

/-- The checks of `DEC.INFO` in order, then the extraction (R163). -/
def State.decodeInfo (B : List Byte) (s : State) : State :=
  if B.length = 0 then s.raise .timeout .identify none none
  else if B.length ≠ Config.infoLen then s.raise .protocolViolation .identify (some B) none
  else if B.take Config.infoPrefixLen ≠ s.cfg.infoPrefix.toList then
    s.raise .protocolViolation .identify (some B) none
  else (s.takeIdentity B).consumeReply

/-- `CMP.BOOT` (R165): the only comparison whose failure is no fault. -/
def State.compareBoot (B : List Byte) (s : State) : State :=
  (s.setMatched (tokEq B s.cfg.tokBoot.toList)).consumeReply

/-- The check of `CHK.READY` (R167). -/
def State.checkReady (B : List Byte) (s : State) : State :=
  if tokEq B s.cfg.tokReady.toList then s.consumeReply
  else s.raise .protocolViolation .transfer (some B) none

/-- The check of `CHK.OK` (R168): a fault records the chunk's index. -/
def State.checkOk (B : List Byte) (s : State) : State :=
  if tokEq B Config.tokOk then s.consumeReply
  else s.raise .protocolViolation .transfer (some B) (some s.chunkIdx)

/-- DEC.RHR4 (R157). -/
def execDecRhr4 (s : State) : Result := withReply s (fun B => .next (s.decodeRhr4 B))

/-- DEC.ACK (R159). -/
def execDecAck (s : State) : Result := withReply s (fun B => .next (s.decodeAck B))

/-- DEC.INFO (R163); a second one is refused. -/
def execDecInfo (s : State) : Result :=
  withReply s (fun B => if s.ident.valid then .refused .alreadyIdentified else .next (s.decodeInfo B))

/-- CMP.BOOT (R165). -/
def execCmpBoot (s : State) : Result := withReply s (fun B => .next (s.compareBoot B))

/-- CHK.READY (R167). -/
def execChkReady (s : State) : Result := withReply s (fun B => .next (s.checkReady B))

/-- CHK.OK (R168). -/
def execChkOk (s : State) : Result := withReply s (fun B => .next (s.checkOk B))

end Sys2Proof.Machine
end

