-- ==== Sys2Proof/Machine/Encoder.lean ====
section
/-! DEFINITION. The frame encoder (41_frame_encode.md R142 to R145). -/

namespace Sys2Proof.Machine

/-- Build a read-holding-registers request in `TXBUF` (R142). -/
def State.buildRhr (a : Byte) (start count : Word) (s : State) : State :=
  s.loadFrame (encReq a Config.fnRead start count)

/-- Build a write-single-register request in `TXBUF` (R143). -/
def State.buildWsr (a : Byte) (reg value : Word) (s : State) : State :=
  s.loadFrame (encReq a Config.fnWrite reg value)

/-- ENC.RHR a, s, n (R142). -/
def execEncRhr (a : Byte) (start count : Word) (s : State) : Result :=
  admitted s (.next (s.buildRhr a start count))

/-- ENC.WSR a, r, v (R143). -/
def execEncWsr (a : Byte) (reg value : Word) (s : State) : Result :=
  admitted s (.next (s.buildWsr a reg value))

/-- LD.RD4 (R144). -/
def execLdRd4 (s : State) : Result := admitted s (.next (s.loadFrame Config.frameRd4))

/-- LD.REBOOT (R145). -/
def execLdReboot (s : State) : Result := admitted s (.next (s.loadFrame Config.frameReboot))

end Sys2Proof.Machine
end

