-- ==== Sys2Proof/Machine/Transport.lean ====
section
/-! DEFINITION. The transport operations (43_transport_ops.md R181 to R186). -/

namespace Sys2Proof.Machine

/-- Write the frame in `TXBUF` to the link (R181). -/
def State.sendFrame (s : State) : State := s.writeAll (phaseOf s.session) s.frame

/-- Write the chunk that `CHUNK_IDX` selects to the link (R186). -/
def State.sendChunk (s : State) : State :=
  s.writeAll .transfer (chunkOf s.cfg.image s.chunkIdx)

/-- SEND (R181); refused while nothing was built (10_state.md R41). -/
def execSend (s : State) : Result :=
  admitted s
    (if s.tx.len.val = 0 then .refused (.unwritten .txFrame)
    else
      match s.memRead .txbuf 0 s.tx.len.val with
      | .ok F => .next (s.writeAll (phaseOf s.session) F)
      | .error f => .fault f)

/-- RECV n (R182). -/
def execRecv (n : Byte) (s : State) : Result :=
  admitted s
    (if recvCountOk n then .next (s.receive (phaseOf s.session) n.toNat)
    else .refused .operandOutOfRange)

/-- SETDL d (R183). -/
def execSetdl (d : Byte) (s : State) : Result := admitted s (.next (s.setDeadline d.toNat))

/-- PAUSE (R184): a step that changes nothing. -/
def execPause (s : State) : Result := admitted s (.next s)

/-- SENDTOK k (R185), in any session state: of the low-level operations only SENDCHUNK and a second DEC.INFO are gated by SESSION (decision D20, 10_state.md R43, 60_exceptions.md R237; Log 13 on R264). -/
def execSendtok (k : Byte) (s : State) : Result :=
  admitted s
    (match tokenOf s.cfg k with
    | some T => .next (s.writeAll (phaseOf s.session) T)
    | none => .refused .operandOutOfRange)

/-- SENDCHUNK (R186). -/
def execSendchunk (s : State) : Result :=
  inSession .transferring s
    (if s.chunkIdx < nchunks s.cfg.image.length then .next s.sendChunk
    else .refused .noSuchChunk)

end Sys2Proof.Machine
end

