-- ==== Sys2Proof/Machine/Phases.lean ====
section
/-! DEFINITION. The five phase operations as the sequences of 44_session_phases.md (R195 to R208). A sub-step runs unless an earlier one recorded a fault (`State.andThen`). -/

namespace Sys2Proof.Machine

/-- The sequence of step 1 (R195). -/
def State.detect (s : State) : State :=
  ((((s.writeAll .detect s.cfg.tokQuery).andThen (fun s => s.receive .detect Config.bootTokLen)
    ).andThen (fun s => s.setSession .bootloaderUnconfirmed)
    ).andThen (fun s => s.compareBoot s.reply)
    ).andThen (fun s => s.setSession (if s.matched then .bootloaderConfirmed else .legacyDetected))

/-- The first half of step 2 (R197): the deadline, the read request and its response. -/
def State.legacyRead (s : State) : State :=
  ((((s.setDeadline Config.dlFlash).loadFrame Config.frameRd4).sendFrame
    ).andThen (fun s => s.receive .legacy Config.rdRespLen)
    ).andThen (fun s => s.decodeRhr4 s.reply)

/-- The second half of step 2 (R197): the reboot request, its acknowledgment, and the pause, which changes nothing (R184). -/
def State.legacyReboot (s : State) : State :=
  (((((s.loadFrame Config.frameReboot).sendFrame
    ).andThen (fun s => s.setSession .rebootRequested)
    ).andThen (fun s => s.receive .legacy Config.ackLen)
    ).andThen (fun s => s.decodeAck s.reply)
    ).andThen (fun s => s.setSession .bootloaderConfirmed)

/-- The sequence of step 2 (R197). -/
def State.legacy (s : State) : State := s.legacyRead.andThen State.legacyReboot

/-- The link exchange of step 3 (R200): the request and its reply. -/
def State.askIdentity (s : State) : State :=
  (s.writeAll .identify s.cfg.tokGetInfo).andThen (fun s => s.receive .identify Config.infoLen)

/-- The sequence of step 3 (R200). -/
def State.identify (s : State) : State :=
  (s.askIdentity.andThen (fun s => s.decodeInfo s.reply)
    ).andThen (fun s => s.setSession .identityKnown)

/-- Step 4 for a model code (R204). -/
def State.gate (m : Word) (s : State) : State :=
  if m ∈ Config.registry then s.setSession .modelValidated
  else s.raise .unsupportedModel .gate none none

/-- The opening of step 5 (R206): the start command and the ready token. -/
def State.startTransfer (s : State) : State :=
  ((((s.writeAll .transfer s.cfg.tokStart).andThen (fun s => s.receive .transfer Config.readyTokLen)
    ).andThen (fun s => s.checkReady s.reply)
    ).andThen (fun s => s.setSession .transferring)
    ).andThen (fun s => s.setChunkIdx 0)

/-- One turn of the loop of step 5 (R206, R208): a chunk, its acknowledgment, and the next index. -/
def State.transferChunk (s : State) : State :=
  ((s.sendChunk.andThen (fun s => s.receive .transfer Config.okTokLen)
    ).andThen (fun s => s.checkOk s.reply)
    ).andThen (fun s => s.setChunkIdx (s.chunkIdx + 1))

/-- The loop of step 5 (R206), at most `fuel` turns. -/
def State.transferLoop (fuel : Nat) (s : State) : State :=
  match fuel with
  | 0 => s
  | fuel + 1 =>
    if s.chunkIdx < nchunks s.cfg.image.length then
      s.transferChunk.andThen (State.transferLoop fuel)
    else s

/-- The sequence of step 5 (R206). The index starts at 0, so `nchunks` turns are all the loop can make. -/
def State.transfer (s : State) : State :=
  (s.startTransfer.andThen (fun s => s.transferLoop (nchunks s.cfg.image.length))
    ).andThen (fun s => s.setSession .complete)

/-- PH.DETECT (R195). -/
def execPhDetect (s : State) : Result := inSession .idle s (.next s.detect)

/-- PH.LEGACY (R197). -/
def execPhLegacy (s : State) : Result := inSession .legacyDetected s (.next s.legacy)

/-- PH.IDENT (R200). A link fault ends the phase before its `DEC.INFO`. Where the exchange succeeds and an identity was already decoded, `DEC.INFO` is refused (42_frame_decode.md R163), and the atomic phase with it (Log 12). -/
def execPhIdent (s : State) : Result :=
  inSession .bootloaderConfirmed s
    (if s.ident.valid = true ∧ s.askIdentity.err.kind = .none then .refused .alreadyIdentified
    else .next s.identify)

/-- PH.GATE (R204); refused while no identity was decoded (10_state.md R41). -/
def execPhGate (s : State) : Result :=
  inSession .identityKnown s
    (match s.ident.valid, s.ident.model with
    | true, some m => .next (s.gate m)
    | _, _ => .refused (.unwritten .identity))

/-- PH.XFER (R206). -/
def execPhXfer (s : State) : Result := inSession .modelValidated s (.next s.transfer)

end Sys2Proof.Machine
end

