-- ==== Sys2Proof/Machine/Wire.lean ====
section
/-! DEFINITION. The wire-format rows of the table (30_encoding.md R82 to R94, R99). A message that FC16's host sends is carried out as the operations that build and send it (Log 8), a message of the device as the read that returns exactly it (Log 9). No message is classified by its content (R100): what a reply means is decided by the decode operation the host commands next. -/

namespace Sys2Proof.Machine

/-- RHR.REQ (R83): ENC.RHR, then SEND. -/
def execRhrReq (a : Byte) (p q c : Word) (s : State) : Result :=
  admitted s
    (if c = crc16 (reqBody a Config.fnRead p q) then .next (s.buildRhr a p q).sendFrame
    else .refused .checksumMismatch)

/-- WSR.REQ (R84): ENC.WSR, then SEND. -/
def execWsrReq (a : Byte) (p q c : Word) (s : State) : Result :=
  admitted s
    (if c = crc16 (reqBody a Config.fnWrite p q) then .next (s.buildWsr a p q).sendFrame
    else .refused .checksumMismatch)

/-- RD4.REQ (R85): LD.RD4, then SEND. -/
def execRd4Req (s : State) : Result :=
  admitted s (.next (s.loadFrame Config.frameRd4).sendFrame)

/-- REBOOT.REQ (R86): LD.REBOOT, then SEND. -/
def execRebootReq (s : State) : Result :=
  admitted s (.next (s.loadFrame Config.frameReboot).sendFrame)

/-- CHUNK (R94): SENDCHUNK of exactly these bytes. -/
def execChunk (d : List Byte) (s : State) : Result :=
  inSession .transferring s
    (if s.chunkIdx < nchunks s.cfg.image.length then
      if d = chunkOf s.cfg.image s.chunkIdx then .next s.sendChunk else .refused .notTheNextChunk
    else .refused .noSuchChunk)

/-- RD4.RSP (R87): a read returns these 13 bytes. -/
def execRd4Rsp (m : Word) (x5 x6 x7 x8 x9 v : Byte) (c : Word) (s : State) : Result :=
  admitted s (.next (s.deliver (rspBytes m x5 x6 x7 x8 x9 v c)))

/-- REBOOT.ACK (R89): a read returns this byte. -/
def execRebootAck (k : Byte) (s : State) : Result := admitted s (.next (s.deliver [k]))

/-- INFO.RSP (R90): a read returns these 13 bytes. -/
def execInfoRsp (f0 f1 f2 : Byte) (serial : DWord) (m : Word) (x9 x10 v y : Byte) (s : State) :
    Result :=
  admitted s (.next (s.deliver (infoBytes f0 f1 f2 serial m x9 x10 v y)))

/-- OK.TOK (R92): a read returns `4F 4B`. -/
def execOkTok (s : State) : Result := admitted s (.next (s.deliver Config.tokOk))

/-- BOOT.TOK (R92): a read returns these 4 bytes. -/
def execBootTok (t0 t1 t2 t3 : Byte) (s : State) : Result :=
  admitted s (.next (s.deliver [t0, t1, t2, t3]))

/-- READY.TOK (R92): a read returns these 6 bytes. -/
def execReadyTok (t0 t1 t2 t3 t4 t5 : Byte) (s : State) : Result :=
  admitted s (.next (s.deliver [t0, t1, t2, t3, t4, t5]))

end Sys2Proof.Machine
end

