-- ==== Sys2Proof/Machine/Dispatch.lean ====
section
/-! DEFINITION. One arm per instruction. -/

namespace Sys2Proof.Machine

def exec (i : Instr) (s : State) : Host.Outcome State Fault Refusal :=
  match i with
  | .crcInit => Sys2Proof.Machine.execCrcInit s
  | .crcUpd b => Sys2Proof.Machine.execCrcUpd b s
  | .crcGet => Sys2Proof.Machine.execCrcGet s
  | .encRhr a start count => Sys2Proof.Machine.execEncRhr a start count s
  | .encWsr a reg value => Sys2Proof.Machine.execEncWsr a reg value s
  | .ldRd4 => Sys2Proof.Machine.execLdRd4 s
  | .ldReboot => Sys2Proof.Machine.execLdReboot s
  | .decRhr4 => Sys2Proof.Machine.execDecRhr4 s
  | .decAck => Sys2Proof.Machine.execDecAck s
  | .decInfo => Sys2Proof.Machine.execDecInfo s
  | .cmpBoot => Sys2Proof.Machine.execCmpBoot s
  | .chkReady => Sys2Proof.Machine.execChkReady s
  | .chkOk => Sys2Proof.Machine.execChkOk s
  | .send => Sys2Proof.Machine.execSend s
  | .recv n => Sys2Proof.Machine.execRecv n s
  | .setdl d => Sys2Proof.Machine.execSetdl d s
  | .pause => Sys2Proof.Machine.execPause s
  | .sendtok k => Sys2Proof.Machine.execSendtok k s
  | .sendchunk => Sys2Proof.Machine.execSendchunk s
  | .phDetect => Sys2Proof.Machine.execPhDetect s
  | .phLegacy => Sys2Proof.Machine.execPhLegacy s
  | .phIdent => Sys2Proof.Machine.execPhIdent s
  | .phGate => Sys2Proof.Machine.execPhGate s
  | .phXfer => Sys2Proof.Machine.execPhXfer s
  | .rhrReq a p q c => Sys2Proof.Machine.execRhrReq a p q c s
  | .wsrReq a p q c => Sys2Proof.Machine.execWsrReq a p q c s
  | .rd4Req => Sys2Proof.Machine.execRd4Req s
  | .rebootReq => Sys2Proof.Machine.execRebootReq s
  | .rd4Rsp m x5 x6 x7 x8 x9 v c => Sys2Proof.Machine.execRd4Rsp m x5 x6 x7 x8 x9 v c s
  | .rebootAck k => Sys2Proof.Machine.execRebootAck k s
  | .infoRsp f0 f1 f2 serial m x9 x10 v y => Sys2Proof.Machine.execInfoRsp f0 f1 f2 serial m x9 x10 v y s
  | .okTok => Sys2Proof.Machine.execOkTok s
  | .bootTok t0 t1 t2 t3 => Sys2Proof.Machine.execBootTok t0 t1 t2 t3 s
  | .readyTok t0 t1 t2 t3 t4 t5 => Sys2Proof.Machine.execReadyTok t0 t1 t2 t3 t4 t5 s
  | .chunk d => Sys2Proof.Machine.execChunk d s

end Sys2Proof.Machine
end

