-- ==== Sys2Proof/Machine/Step.lean ====
section
/-! DEFINITION. One step: the next thing the outside presents is decoded and carried out. FC16 has no program counter and no fetch (10_state.md R31): what runs next is the host's choice (R20), held in `input` (Log 1). -/

namespace Sys2Proof.Machine

/-- One step. With nothing presented the block is idle and waits (70_reset_and_hazards.md R251). What is no instruction is refused (30_encoding.md R108, 60_exceptions.md R232). The spec gives no order among the reasons for a refusal; an input that is no instruction is refused as such also after a fault or after `Complete`, before the session is looked at (Log 15, DESIGN CHOICE). -/
def step (s : State) : Host.Outcome State Fault Refusal :=
  match s.input with
  | [] => .next s
  | u :: rest =>
    match decode u with
    | .ok i => exec i (s.setInput rest)
    | .error e => .refused (.illegalInput e)

/-- The state with a word of spec/opcode_table.json presented first (Log 11). -/
def State.withFetchWord (s : State) (nbits w : Nat) : State :=
  s.setInput (tableInput nbits w :: s.input)

end Sys2Proof.Machine
end

