-- ==== Sys2Proof/Safety.lean ====
section
/-! DEFINITION. What counts as a good state and a safe run: the invariants that rule out states no run reaches, the transition table of the session (44_session_phases.md R192), and the readings of the link log that claims use. -/

namespace Sys2Proof.Machine

/-- A buffer holds exactly the offsets below its length (10_state.md R25, R26, R29), in canonical form. -/
def Memory.holds (m : Memory) (n : Nat) : Prop :=
  m.wf ∧ ∀ a, (m.read a).isSome = true ↔ a < n

/-- The three buffers hold exactly their valid bytes, and `TXBUF` is empty or holds one whole frame (R25, R26, R29, R41). -/
structure State.BuffersInv (s : State) : Prop where
  tx : s.tx.buf.holds s.tx.len.val
  txWhole : s.tx.len.val = 0 ∨ s.tx.len.val = Config.reqLen
  rx : s.rx.buf.holds s.rx.len.val
  err : s.err.bytes.holds s.err.blen.val
  errNone : s.err.kind = .none → s.err.blen.val = 0

/-- What `TXBUF` holds is a frame with the right checksum (41_frame_encode.md R148). -/
structure State.FrameInv (s : State) : Prop where
  crc : s.tx.len.val = Config.reqLen → crcOk s.frame = true

/-- The error registers record one fault, together with `SESSION = Failed` (60_exceptions.md R226, R229), of a kind that an operation can raise (R225), in a phase (R38), with a chunk index only for a chunk acknowledgment (R221). -/
structure State.ErrorInv (s : State) : Prop where
  failed : s.session = .failed ↔ s.err.kind ≠ .none
  phase : s.err.phase = .none ↔ s.err.kind = .none
  source : s.err.kind ≠ .imageSourceFailure
  chunk : s.err.chunk.isSome = true → s.err.kind = .protocolViolation ∧ s.err.phase = .transfer
  bytes : s.err.blen.val ≠ 0 → s.err.kind = .protocolViolation

/-- The identity registers hold values exactly when their valid flag says so (10_state.md R27, R28, 42_frame_decode.md R155: never partly updated). -/
structure State.IdentityInv (s : State) : Prop where
  preModel : s.pre.model.isSome = s.pre.valid
  preVersion : s.pre.version.isSome = s.pre.valid
  serial : s.ident.serial.isSome = s.ident.valid
  model : s.ident.model.isSome = s.ident.valid
  version : s.ident.version.isSome = s.ident.valid

/-- The states in which step 3 has been done. -/
def Session.identified (x : Session) : Bool :=
  decide (x ∈ [Session.identityKnown, .modelValidated, .transferring, .complete])

/-- The states in which step 4 has been passed (44_session_phases.md R192). -/
def Session.gated (x : Session) : Bool :=
  decide (x ∈ [Session.modelValidated, .transferring, .complete])

/-- The gate (60_exceptions.md R237): a session past step 3 has an identity, and one past step 4 has a model code in the registry. -/
structure State.GateInv (s : State) : Prop where
  known : s.session.identified = true → s.ident.valid = true
  registered : s.session.gated = true → ∃ m, s.ident.model = some m ∧ m ∈ Config.registry

/-- The chunk index (10_state.md R32, 44_session_phases.md R206): never past the image, and at its end when complete. -/
structure State.ChunkInv (s : State) : Prop where
  bound : s.chunkIdx ≤ nchunks s.cfg.image.length
  atEnd : s.session = .complete → s.chunkIdx = nchunks s.cfg.image.length

/-- The transition table R192. The last row, any non-terminal state to `Failed`, is the last case. -/
def Session.edge (x y : Session) : Bool :=
  match x, y with
  | .idle, .bootloaderUnconfirmed => true
  | .bootloaderUnconfirmed, .bootloaderConfirmed => true
  | .bootloaderUnconfirmed, .legacyDetected => true
  | .legacyDetected, .rebootRequested => true
  | .rebootRequested, .bootloaderConfirmed => true
  | .bootloaderConfirmed, .identityKnown => true
  | .identityKnown, .modelValidated => true
  | .modelValidated, .transferring => true
  | .transferring, .complete => true
  | .complete, .failed => false
  | .failed, .failed => false
  | _, .failed => true
  | _, _ => false

/-- A path of the transition table. -/
abbrev Session.Path (x y : Session) : Prop :=
  Relation.ReflTransGen (fun a b => Session.edge a b = true) x y

/-- The messages written to the link in full, in order: the link log of 95_test_vectors.md section 6. -/
def writesOf (log : List LinkEvent) : List (List Byte) :=
  match log with
  | [] => []
  | .wrote B :: rest => B :: writesOf rest
  | _ :: rest => writesOf rest

/-- The first `n` chunks of an image (44_session_phases.md R207). -/
def firstChunks (image : List Byte) (n : Nat) : List (List Byte) :=
  (List.range n).map (chunkOf image)

/-- `RXBUF[0..RXLEN-1]` is `B` (10_state.md R26). -/
def State.hasReply (s : State) (B : List Byte) : Prop :=
  s.rx.buf.readBytes 0 s.rx.len.val = some B

/-- `TXBUF[0..TXLEN-1]` is `F` (10_state.md R25). -/
def State.hasFrame (s : State) (F : List Byte) : Prop :=
  s.tx.buf.readBytes 0 s.tx.len.val = some F

/-- The instructions that may put bytes into `RXBUF` (10_state.md R43): RECV, the phases that contain it, and the received messages (Log 9). -/
def StoresReply (i : Instr) : Prop :=
  (∃ n, i = .recv n) ∨ i = .phDetect ∨ i = .phLegacy ∨ i = .phIdent ∨ i = .phXfer ∨
  (∃ m x5 x6 x7 x8 x9 v c, i = .rd4Rsp m x5 x6 x7 x8 x9 v c) ∨ (∃ k, i = .rebootAck k) ∨
  (∃ f0 f1 f2 serial m x9 x10 v y, i = .infoRsp f0 f1 f2 serial m x9 x10 v y) ∨ i = .okTok ∨
  (∃ t0 t1 t2 t3, i = .bootTok t0 t1 t2 t3) ∨ ∃ t0 t1 t2 t3 t4 t5, i = .readyTok t0 t1 t2 t3 t4 t5

/-- The instructions that may call `write_all` (43_transport_ops.md R187), alone, in a phase, or as a message that FC16 sends (Log 8). -/
def WritesLink (i : Instr) : Prop :=
  i = .send ∨ (∃ k, i = .sendtok k) ∨ i = .sendchunk ∨ i = .phDetect ∨ i = .phLegacy ∨
  i = .phIdent ∨ i = .phXfer ∨ (∃ a p q c, i = .rhrReq a p q c) ∨
  (∃ a p q c, i = .wsrReq a p q c) ∨ i = .rd4Req ∨ i = .rebootReq ∨ ∃ d, i = .chunk d

/-- The instructions, one after the other, as long as each answers a next state. -/
def runAll (is : List Instr) (s : State) : Result :=
  match is with
  | [] => .next s
  | i :: rest =>
    match exec i s with
    | .next t => runAll rest t
    | .fault f => .fault f
    | .refused r => .refused r

/-- A host that runs the operations of a phase one by one and stops at the first fault (44_session_phases.md R190, R194). -/
def hostSequence (steps : List (State → Result)) (s : State) : Result :=
  match steps with
  | [] => .next s
  | f :: rest =>
    match f s with
    | .next t => if t.err.kind = .none then hostSequence rest t else .next t
    | .fault f => .fault f
    | .refused r => .refused r

/-- A result whose next state has `CRC` set to a given value. -/
def withCrc (v : Option Word) (r : Result) : Result :=
  match r with
  | .next t => .next (t.setCrc v)
  | .fault f => .fault f
  | .refused w => .refused w

/-- A run of which no operation was refused and none stopped, the premise of R232. -/
def SafeRun (n : Nat) (s t : State) : Prop := Sys2Proof.core.run n s = .next t

end Sys2Proof.Machine
end

