-- ==== Sys2Proof/Certificates/Slice0/Obligations.lean ====
section
/-! DEFINITION. The statements for the provers. Each docstring names the rule of spec/ it formalises; "Log n" is the model's own choice, notes/assumptions/n.md. `s.live` says that no fault is recorded and the session is in no terminal state (R229, R193), which is when an operation may run. -/

open Sys2Proof Sys2Proof.Machine

/-! ## Encoding and the step -/

/-- Words written out from the tables of 30_encoding.md (R107, R82, R90) decode to what they stand for. That a message is presented by the name of its format is the model's choice (Log 11). -/
def Obligations.WrittenWordsDecode : Prop :=
  decode (.command [0x01, 0xA5]) = .ok (.crcUpd 0xA5) ∧
  decode (.command [0x10, 0x02, 0x12, 0x34, 0xAB, 0xCD]) = .ok (.encRhr 0x02 0x1234 0xABCD) ∧
  decode (.command [0x22]) = .ok .decInfo ∧
  decode (.command [0x31, 0x0D]) = .ok (.recv 13) ∧
  decode (.command [0x44]) = .ok .phXfer ∧
  decode (.message .rhrReq [0x02, 0x03, 0x00, 0x10, 0x00, 0x02, 0xC5, 0xFD]) =
    .ok (.rhrReq 0x02 0x0010 0x0002 0xFDC5) ∧
  decode (.message .infoRsp
    [0x69, 0x6E, 0x66, 0xEF, 0xBE, 0xAD, 0xDE, 0x51, 0xEB, 0x11, 0x22, 0xFF, 0x33]) =
    .ok (.infoRsp 0x69 0x6E 0x66 0xDEADBEEF 0xEB51 0x11 0x22 0xFF 0x33)

/-- Every well-formed instruction is what its encoding decodes to (R106, R107, R82 to R94). -/
def Obligations.DecodeEncodeAgree : Prop :=
  ∀ i : Instr, i.wellFormed = true → decode (encode i) = .ok i

/-- Each input has one meaning: what decodes to an instruction is that instruction's encoding (R106, R107, R82 to R94). -/
def Obligations.EncodeDecodeAgree : Prop :=
  ∀ (u : Input) (i : Instr), decode u = .ok i → encode i = u

/-- 30_encoding.md R108, which is the spec's own decision D28: an unknown code, and an operand outside its range, is refused; a refusal holds no new state. An unknown code is refused by the step, the operands by `RECV` and `SENDTOK`. -/
def Obligations.BadCommandsAreRefused : Prop :=
  (∀ (s : State) (op : Byte) (args : List Byte) (rest : List Input),
    op.toNat ∉ [0x00, 0x01, 0x02, 0x10, 0x11, 0x12, 0x13, 0x20, 0x21, 0x22, 0x23, 0x24, 0x25,
      0x30, 0x31, 0x32, 0x33, 0x34, 0x35, 0x40, 0x41, 0x42, 0x43, 0x44] →
    s.input = .command (op :: args) :: rest →
    step s = .refused (.illegalInput (.unknownCode op))) ∧
  (∀ (s : State) (n : Byte), s.live = true → n.toNat = 0 ∨ 13 < n.toNat →
    exec (.recv n) s = .refused .operandOutOfRange) ∧
  (∀ (s : State) (k : Byte), s.live = true → 2 < k.toNat →
    exec (.sendtok k) s = .refused .operandOutOfRange)

/-- A step carries out the instruction that the first input decodes to, on the state with that input taken; with nothing presented the block waits (R20, R251, Log 1). -/
def Obligations.StepRunsDecodedInstruction : Prop :=
  (∀ (s : State) (u : Input) (rest : List Input) (i : Instr),
    s.input = u :: rest → decode u = .ok i → step s = exec i { s with input := rest }) ∧
  (∀ s : State, s.input = [] → step s = .next s)

/-! ## Reset -/

/-- R42: the value of every register after reset. The spec takes `SESSION` and `DEADLINE` from its source; the others are its decision D18. -/
def Obligations.ResetLeavesListedValues : Prop :=
  State.reset.session = .idle ∧ State.reset.deadline = 2 ∧ State.reset.crc = none ∧
  (∀ a, State.reset.tx.buf.read a = none) ∧ State.reset.tx.len.val = 0 ∧
  (∀ a, State.reset.rx.buf.read a = none) ∧ State.reset.rx.len.val = 0 ∧
  State.reset.rx.fresh = false ∧
  State.reset.pre = { model := none, version := none, valid := false } ∧
  State.reset.ident = { serial := none, model := none, version := none, valid := false } ∧
  State.reset.matched = false ∧ State.reset.err.kind = .none ∧ State.reset.err.phase = .none ∧
  (∀ a, State.reset.err.bytes.read a = none) ∧ State.reset.err.blen.val = 0 ∧
  State.reset.err.chunk = none ∧ State.reset.chunkIdx = 0

/-- The reset state (R42) meets every invariant of Safety.lean. -/
def Obligations.ResetMeetsTheInvariants : Prop :=
  State.reset.BuffersInv ∧ State.reset.FrameInv ∧ State.reset.ErrorInv ∧ State.reset.IdentityInv ∧
  State.reset.GateInv ∧ State.reset.ChunkInv

/-! ## The checksum unit -/

/-- R126, R127, R128, the spec's decisions D3 and D5: the streaming operations, their examples, and where they are refused. The output of CRC.GET is kept in `out` (Log 7). -/
def Obligations.StreamingOperationsDriveTheAccumulator : Prop :=
  (∀ (s : State) (b : Byte), s.live = true →
    exec .crcInit s = .next { s with crc := some 0xFFFF#16 } ∧
    (∀ c, s.crc = some c →
      exec (.crcUpd b) s = .next { s with crc := some (crcByte c b) } ∧
      exec .crcGet s =
        .next { s with out := .crcBytes (c.extractLsb' 0 8) (c.extractLsb' 8 8) }) ∧
    (s.crc = none →
      exec (.crcUpd b) s = .refused (.unwritten .crc) ∧ exec .crcGet s = .refused (.unwritten .crc))) ∧
  (∀ (s : State) (b : Byte), s.err.kind ≠ .none →
    ∀ i ∈ [Instr.crcInit, .crcUpd b, .crcGet], exec i s = .refused .sessionFailed) ∧
  (∀ b : Byte, Function.Bijective (fun c => crcByte c b)) ∧
  crcByte 0xFFFF 0x01 = 0x807E ∧
  (∀ s : State, s.live = true →
    runAll [.crcInit, .crcGet] s =
      .next { s with crc := some 0xFFFF#16, out := .crcBytes 0xFF 0xFF } ∧
    runAll [.crcInit, .crcUpd 0x01, .crcUpd 0x03, .crcUpd 0x00, .crcUpd 0x00, .crcUpd 0x00,
        .crcUpd 0x04, .crcGet] s =
      .next { s with crc := some 0x0944#16, out := .crcBytes 0x44 0x09 })

/-- R129, which the spec derives: streaming a message through CRC.INIT and CRC.UPD gives `crc16` of it, whatever other operations are interleaved, since none of them touches `CRC`. -/
def Obligations.StreamingEqualsMessageChecksum : Prop :=
  (∀ (s : State) (M : List Byte), s.live = true →
    runAll (.crcInit :: M.map .crcUpd) s = .next { s with crc := some (crc16 M) }) ∧
  (∀ (is : List Instr) (s t : State), s.crc = some 0xFFFF#16 → Instr.crcInit ∉ is →
    runAll is s = .next t →
    t.crc = some (crc16 (is.filterMap (fun i => match i with | .crcUpd b => some b | _ => none))))

/-- R131, R132, R133, which the spec derives: the byte step feeds the bits of the byte one at a time, least significant first; the bit step, and the byte step for each byte, are bijections; the table form, and the first entries of the table. -/
def Obligations.ByteStepSerialAndTableForms : Prop :=
  (∀ (c : Word) (b : Byte),
    crcByte c b =
      (List.range 8).foldl
        (fun (c : Word) i =>
          if (c.getLsbD 0 ^^ b.getLsbD i) then (c >>> 1) ^^^ 0xA001#16 else c >>> 1) c) ∧
  (Function.Bijective crcBit ∧ ∀ b : Byte, Function.Bijective (fun c => crcByte c b)) ∧
  (∀ (c : Word) (b : Byte),
    crcByte c b = (c >>> 8) ^^^ crcByte 0x0000 ((c ^^^ b.zeroExtend 16).extractLsb' 0 8)) ∧
  [(0x00 : Byte), 0x01, 0x02, 0x03, 0x04, 0x05, 0x06, 0x07, 0x80, 0xFF].map (crcByte 0x0000) =
    [0x0000, 0xC0C1, 0xC181, 0x0140, 0xC301, 0x03C0, 0x0280, 0xC241, 0xA001, 0x4040]

/-- R135, which the spec derives: the checksum of a frame with its two checksum bytes is zero, the two identities behind it, the bijection, and the equivalence of the two checks. -/
def Obligations.ChecksumResidueIsZero : Prop :=
  (∀ M : List Byte, crc16 (crcAppend M) = 0x0000#16) ∧
  (∀ c : Word, crcByte c (lo8 c) = c >>> 8 ∧ crcByte (c >>> 8) (hi8 c) = 0x0000#16) ∧
  (∀ c : Word, Function.Bijective (fun bs : Byte × Byte => crcByte (crcByte c bs.1) bs.2)) ∧
  (∀ F : List Byte, 2 ≤ F.length → (crcOk F = true ↔ crc16 F = 0x0000#16))

/-- R136, which the spec derives: linearity over messages of one length. -/
def Obligations.ChecksumIsLinear : Prop :=
  ∀ A B C : List Byte, A.length = B.length → B.length = C.length →
    crc16 A ^^^ crc16 B ^^^ crc16 C =
      crc16 (List.zipWith (· ^^^ ·) (List.zipWith (· ^^^ ·) A B) C)

/-- R125, R156: what the checksum check and the check of a read response accept. That fewer than 2 bytes fail is the spec's decision D12, that the response's checksum is checked its decision D13. -/
def Obligations.ChecksAcceptExactlyTheirShapes : Prop :=
  (∀ F : List Byte, crcOk F = true ↔
    2 ≤ F.length ∧
      F[F.length - 2]? = some (lo8 (crc16 (F.take (F.length - 2)))) ∧
      F[F.length - 1]? = some (hi8 (crc16 (F.take (F.length - 2))))) ∧
  (∀ B : List Byte, rhr4Ok B = true ↔
    B.length = 13 ∧ B[0]? = some 0x01 ∧ B[1]? = some 0x03 ∧ B[2]? = some 0x08 ∧ crcOk B = true)

/-- R24, the spec's decision D5: no operation outside `CRC.*` reads or writes `CRC`: with any other accumulator it answers the same, and the accumulator stays. -/
def Obligations.OtherOperationsIgnoreTheAccumulator : Prop :=
  ∀ (i : Instr) (s : State) (v : Option Word), i ≠ .crcInit → (∀ b, i ≠ .crcUpd b) → i ≠ .crcGet →
    exec i { s with crc := v } = withCrc v (exec i s) ∧ withCrc s.crc (exec i s) = exec i s

/-! ## The encoder -/

/-- R142, R143, R146, the spec's own generalisation (decision D10) and its derivation: the general encoders, for every operand value; and the fixed frames are instances of them, so that the loaders and the encoders leave identical state. -/
def Obligations.EncodersBuildRequests : Prop :=
  (∀ (s : State) (a : Byte) (p q : Word), s.live = true →
    exec (.encRhr a p q) s =
      .next { s with tx :=
        { buf := s.tx.buf.writeBytes 0 (crcAppend [a, 0x03, hi8 p, lo8 p, hi8 q, lo8 q]), len := 8 } } ∧
    exec (.encWsr a p q) s =
      .next { s with tx :=
        { buf := s.tx.buf.writeBytes 0 (crcAppend [a, 0x06, hi8 p, lo8 p, hi8 q, lo8 q]), len := 8 } }) ∧
  encReq 0x01 0x03 0x0000 0x0004 = [0x01, 0x03, 0x00, 0x00, 0x00, 0x04, 0x44, 0x09] ∧
  encReq 0x01 0x06 0x0100 0x1601 = [0x01, 0x06, 0x01, 0x00, 0x16, 0x01, 0x47, 0x96] ∧
  Config.frameRd4 = encReq 0x01 0x03 0x0000 0x0004 ∧
  Config.frameReboot = encReq 0x01 0x06 0x0100 0x1601 ∧
  (∀ s : State,
    exec .ldRd4 s = exec (.encRhr 1 0x0000 0x0004) s ∧
    exec .ldReboot s = exec (.encWsr 1 0x0100 0x1601) s)

/-- R144, R145: the fixed frames are loaded as they are printed, and nothing but `TXBUF` and `TXLEN` changes. -/
def Obligations.FixedFramesAreLoaded : Prop :=
  decode (.command [0x12]) = .ok .ldRd4 ∧ decode (.command [0x13]) = .ok .ldReboot ∧
  (∀ s : State,
    (s.live = true →
      exec .ldRd4 s =
        .next { s with tx :=
          { buf := s.tx.buf.writeBytes 0 [0x01, 0x03, 0x00, 0x00, 0x00, 0x04, 0x44, 0x09], len := 8 } } ∧
      exec .ldReboot s =
        .next { s with tx :=
          { buf := s.tx.buf.writeBytes 0 [0x01, 0x06, 0x01, 0x00, 0x16, 0x01, 0x47, 0x96], len := 8 } }) ∧
    (s.err.kind ≠ .none →
      exec .ldRd4 s = .refused .sessionFailed ∧ exec .ldReboot s = .refused .sessionFailed))

/-- R148, which the spec derives: after an encode operation `TXLEN = 8` and the frame carries its checksum, in both forms of the check; bytes beyond the frame stay as they were. -/
def Obligations.EncodedFramesCarryTheirChecksum : Prop :=
  ∀ (s t : State) (i : Instr),
    ((∃ a p q, i = .encRhr a p q) ∨ (∃ a p q, i = .encWsr a p q) ∨ i = .ldRd4 ∨ i = .ldReboot) →
    exec i s = .next t →
    t.tx.len.val = 8 ∧
      (∃ F, t.hasFrame F ∧ crcOk F = true ∧ crc16 F = 0x0000#16) ∧
      (∀ a, 8 ≤ a → t.tx.buf.read a = s.tx.buf.read a) ∧
      t = { s with tx := t.tx }

/-- R149, which the spec derives: length, injectivity, and the derived examples. -/
def Obligations.RequestEncodingIsInjective : Prop :=
  (∀ (a f : Byte) (p q : Word), (encReq a f p q).length = 8) ∧
  (∀ (a f a' f' : Byte) (p q p' q' : Word),
    encReq a f p q = encReq a' f' p' q' → a = a' ∧ f = f' ∧ p = p' ∧ q = q') ∧
  encReq 1 0x03 0x0000 0x0001 = [0x01, 0x03, 0x00, 0x00, 0x00, 0x01, 0x84, 0x0A] ∧
  encReq 2 0x03 0x0010 0x0002 = [0x02, 0x03, 0x00, 0x10, 0x00, 0x02, 0xC5, 0xFD] ∧
  encReq 1 0x06 0x0012 0x0001 = [0x01, 0x06, 0x00, 0x12, 0x00, 0x01, 0xE8, 0x0F] ∧
  encReq 0xFF 0x06 0xFFFF 0xFFFF = [0xFF, 0x06, 0xFF, 0xFF, 0xFF, 0xFF, 0x9D, 0x80] ∧
  encReq 0 0x06 0x0000 0x0000 = [0x00, 0x06, 0x00, 0x00, 0x00, 0x00, 0x88, 0x1B]

/-! ## Taking a fault -/

/-- R226: what `raise` writes, that it writes nothing else, and that it ends the phase operation around it. That cells beyond the given bytes, `ERR_BYTES` without bytes and `ERR_CHUNK` without an index keep their content is the model's reading (Log 21). -/
def Obligations.RaiseWritesTheErrorRegisters : Prop :=
  ∀ (s : State) (k : ErrKind) (ph : ErrPhase) (c : Option Nat),
    (∀ (B : List Byte) (t : State), B.length ≤ 13 → t = s.raise k ph (some B) c →
      t = { s with err := t.err, session := .failed } ∧ t.err.kind = k ∧ t.err.phase = ph ∧
      t.err.bytes.readBytes 0 B.length = some B ∧
      (∀ a, B.length ≤ a → t.err.bytes.read a = s.err.bytes.read a) ∧
      t.err.blen.val = B.length ∧ t.err.chunk = c.or s.err.chunk) ∧
    (∀ t : State, t = s.raise k ph none c →
      t = { s with err := t.err, session := .failed } ∧ t.err.kind = k ∧ t.err.phase = ph ∧
      t.err.bytes = s.err.bytes ∧ t.err.blen.val = 0 ∧ t.err.chunk = c.or s.err.chunk) ∧
    (k ≠ .none → ∀ (b : Option (List Byte)) (f : State → State),
      (s.raise k ph b c).andThen f = s.raise k ph b c)

/-! ## The decoder -/

/-- R157, R158: DEC.RHR4 on every fresh reply. That 1 to 12 bytes are a protocol violation is the spec's decision D14, that the checksum is checked its decision D13. The two outputs are also kept in `out` (Log 7). -/
def Obligations.DecRhr4ValidatesThenExtracts : Prop :=
  ∀ (s : State) (B : List Byte), s.hasReply B → s.live = true → s.rx.fresh = true →
    (B = [] → exec .decRhr4 s = .next (s.raise .timeout .legacy none none)) ∧
    (B ≠ [] → rhr4Ok B = false →
      exec .decRhr4 s = .next (s.raise .protocolViolation .legacy (some B) none)) ∧
    (rhr4Ok B = true →
      exec .decRhr4 s =
        .next { s with
          pre := { model := some (be16 (byteAt B 3) (byteAt B 4)), version := some (byteAt B 10),
                   valid := true }
          rx := { s.rx with fresh := false }
          out := .preIdentity (be16 (byteAt B 3) (byteAt B 4)) (byteAt B 10) })

/-- R159: DEC.ACK on every fresh reply. That an empty one is a protocol violation is the spec's decision D15. -/
def Obligations.DecAckComparesOneByte : Prop :=
  ∀ (s : State) (B : List Byte), s.hasReply B → s.live = true → s.rx.fresh = true →
    (B = [s.cfg.rebootAck] → exec .decAck s = .next { s with rx := { s.rx with fresh := false } }) ∧
    (B ≠ [s.cfg.rebootAck] →
      exec .decAck s = .next (s.raise .protocolViolation .legacy (some B) none))

/-- R163 with R160, R161, R162, and R222 for the timeout: DEC.INFO on every fresh reply of a session that has no identity yet (a second one, the spec's decision D20: PhIdentIsItsSequence). -/
def Obligations.DecInfoValidatesThenExtracts : Prop :=
  ∀ (s : State) (B : List Byte), s.hasReply B → s.live = true → s.rx.fresh = true →
    s.ident.valid = false →
    (B = [] → exec .decInfo s = .next (s.raise .timeout .identify none none)) ∧
    (B ≠ [] → ¬(B.length = 13 ∧ B.take 3 = s.cfg.infoPrefix.toList) →
      exec .decInfo s = .next (s.raise .protocolViolation .identify (some B) none)) ∧
    (B.length = 13 ∧ B.take 3 = s.cfg.infoPrefix.toList →
      ∃ (serial : DWord) (model : Word),
        serial.toNat = (byteAt B 6).toNat * 2 ^ 24 + (byteAt B 5).toNat * 2 ^ 16 +
          (byteAt B 4).toNat * 2 ^ 8 + (byteAt B 3).toNat ∧
        model.toNat = (byteAt B 8).toNat * 256 + (byteAt B 7).toNat ∧
        exec .decInfo s =
          .next { s with
            ident := { serial := some serial, model := some model, version := some (byteAt B 11),
                       valid := true }
            rx := { s.rx with fresh := false } })

/-- R164, R165, R167, R168: the three token comparisons on every fresh reply. A token matches only as a whole; CMP.BOOT never faults; a fault of CHK.OK records the chunk index. -/
def Obligations.TokenComparisonsMatchWholeTokens : Prop :=
  decode (.command [0x23]) = .ok .cmpBoot ∧ decode (.command [0x24]) = .ok .chkReady ∧
  decode (.command [0x25]) = .ok .chkOk ∧
  (∀ B T : List Byte,
    tokEq B T = true ↔ B.length = T.length ∧ ∀ i, i < T.length → B[i]? = T[i]?) ∧
  (∀ (s : State) (B : List Byte), s.hasReply B → s.live = true → s.rx.fresh = true →
    exec .cmpBoot s =
      .next { s with matched := decide (B = s.cfg.tokBoot.toList), rx := { s.rx with fresh := false } } ∧
    (B = s.cfg.tokReady.toList →
      exec .chkReady s = .next { s with rx := { s.rx with fresh := false } }) ∧
    (B ≠ s.cfg.tokReady.toList →
      exec .chkReady s = .next (s.raise .protocolViolation .transfer (some B) none)) ∧
    (B = [0x4F, 0x4B] → exec .chkOk s = .next { s with rx := { s.rx with fresh := false } }) ∧
    (B ≠ [0x4F, 0x4B] →
      exec .chkOk s = .next (s.raise .protocolViolation .transfer (some B) (some s.chunkIdx))))

/-- R41, the spec's decision D32: an operation that would read a register nothing has written, or a reply already consumed, is refused. -/
def Obligations.UnwrittenRegistersAreNotRead : Prop :=
  ∀ s : State, s.live = true →
    (s.session = .identityKnown → s.ident.valid = false →
      exec .phGate s = .refused (.unwritten .identity)) ∧
    (∀ i ∈ [Instr.decRhr4, .decAck, .decInfo, .cmpBoot, .chkReady, .chkOk],
      s.rx.fresh = false → exec i s = .refused (.unwritten .reply)) ∧
    (s.tx.len.val = 0 → exec .send s = .refused (.unwritten .txFrame)) ∧
    (∀ b, s.crc = none →
      exec (.crcUpd b) s = .refused (.unwritten .crc) ∧ exec .crcGet s = .refused (.unwritten .crc))

/-! ## The transport operations -/

/-- R181, R66: SEND, for either answer of the link. A failed write has sent some first part of the frame. -/
def Obligations.SendWritesTheFrame : Prop :=
  decode (.command [0x30]) = .ok .send ∧
  (∀ (s : State) (F : List Byte), s.hasFrame F → s.live = true →
    (s.tx.len.val ≠ 0 → s.link.nextWrite = .ok →
      exec .send s = .next { s with link := s.link.tookWrite (.wrote F) }) ∧
    (∀ k, s.tx.len.val ≠ 0 → s.link.nextWrite = .ioError k →
      exec .send s =
        .next (({ s with link := s.link.tookWrite (.writeFailed (F.take k)) } : State).raise
          .transportFailure (phaseOf s.session) none none)) ∧
    (s.tx.len.val = 0 → exec .send s = .refused (.unwritten .txFrame)))

/-- R182: RECV n, for either answer of the link; that there is one read and no loop is the spec's decision D11. What the environment offers beyond `n` bytes the read does not return (Log 2). Offsets at and beyond the length hold no value afterwards. -/
def Obligations.RecvStoresTheReply : Prop :=
  ∀ (s : State) (n : Byte), s.live = true → 1 ≤ n.toNat → n.toNat ≤ 13 →
    (∀ r, s.link.nextRead = .bytes r →
      ∃ t : State,
        exec (.recv n) s = .next t ∧
        t = { s with rx := t.rx, link := s.link.tookRead (.readGave (r.take n.toNat)) } ∧
        t.rx.len.val = (r.take n.toNat).length ∧ t.rx.fresh = true ∧ t.hasReply (r.take n.toNat) ∧
        ∀ a, t.rx.len.val ≤ a → t.rx.buf.read a = none) ∧
    (s.link.nextRead = .ioError →
      exec (.recv n) s =
        .next (({ s with link := s.link.tookRead .readFailed } : State).raise
          .transportFailure (phaseOf s.session) none none))

/-- R183, R184: SETDL sets the deadline and PAUSE changes nothing. -/
def Obligations.SetdlAndPause : Prop :=
  decode (.command [0x32, 0x05]) = .ok (.setdl 5) ∧ decode (.command [0x33]) = .ok .pause ∧
  (∀ (s : State) (d : Byte), s.live = true →
    exec (.setdl d) s = .next { s with deadline := d.toNat } ∧ exec .pause s = .next s)

/-- R185: SENDTOK k, for either answer of the link, and where it is refused. That k = 2 runs in every session state is the spec's decision D20, which the model follows where R264 reads against it (Log 13). -/
def Obligations.SendtokWritesTheToken : Prop :=
  decode (.command [0x34, 0x02]) = .ok (.sendtok 2) ∧
  (∀ (s : State) (k : Byte) (T : List Byte), s.live = true →
    (k = 0 ∧ T = s.cfg.tokQuery) ∨ (k = 1 ∧ T = s.cfg.tokGetInfo) ∨ (k = 2 ∧ T = s.cfg.tokStart) →
    (s.link.nextWrite = .ok →
      exec (.sendtok k) s = .next { s with link := s.link.tookWrite (.wrote T) }) ∧
    (∀ j, s.link.nextWrite = .ioError j →
      exec (.sendtok k) s =
        .next (({ s with link := s.link.tookWrite (.writeFailed (T.take j)) } : State).raise
          .transportFailure (phaseOf s.session) none none))) ∧
  (∀ (s : State) (k : Byte), s.live = true → 2 < k.toNat →
    exec (.sendtok k) s = .refused .operandOutOfRange)

/-- R186: SENDCHUNK, for either answer of the link, and where it is refused. -/
def Obligations.SendchunkWritesTheSelectedChunk : Prop :=
  decode (.command [0x35]) = .ok .sendchunk ∧
  (∀ s : State,
    (s.live = true → s.session = .transferring → s.chunkIdx < (s.cfg.image.length + 63) / 64 →
      (s.link.nextWrite = .ok →
        exec .sendchunk s =
          .next { s with
            link := s.link.tookWrite (.wrote ((s.cfg.image.drop (64 * s.chunkIdx)).take 64)) }) ∧
      (∀ k, s.link.nextWrite = .ioError k →
        exec .sendchunk s =
          .next (({ s with
              link := s.link.tookWrite
                (.writeFailed (((s.cfg.image.drop (64 * s.chunkIdx)).take 64).take k)) } : State).raise
            .transportFailure .transfer none none))) ∧
    (s.live = true → s.session = .transferring → (s.cfg.image.length + 63) / 64 ≤ s.chunkIdx →
      exec .sendchunk s = .refused .noSuchChunk) ∧
    (s.live = true → s.session ≠ .transferring →
      exec .sendchunk s = .refused (.wrongSession s.session)))

/-- R188, the spec's decision D24: the phase that a link fault of SEND, RECV or SENDTOK records. -/
def Obligations.LinkFaultsRecordThePhase : Prop :=
  ∀ (s t : State) (i : Instr),
    (i = .send ∨ (∃ n, i = .recv n) ∨ ∃ k, i = .sendtok k) →
    exec i s = .next t → t.err.kind ≠ .none →
    t.err.kind = .transportFailure ∧
    (s.session = .idle ∨ s.session = .bootloaderUnconfirmed → t.err.phase = .detect) ∧
    (s.session = .legacyDetected ∨ s.session = .rebootRequested → t.err.phase = .legacy) ∧
    (s.session = .bootloaderConfirmed → t.err.phase = .identify) ∧
    (s.session = .identityKnown → t.err.phase = .gate) ∧
    (s.session = .modelValidated ∨ s.session = .transferring → t.err.phase = .transfer)

/-! ## The phases -/

/-- R195: PH.DETECT is its sequence of operations, for every answer of the link, and reaches the same states as a host that runs them one by one; where it leaves the session, and which faults can arise. -/
def Obligations.PhDetectIsItsSequence : Prop :=
  decode (.command [0x40]) = .ok .phDetect ∧
  (∀ s : State, s.live = true → s.session = .idle →
    exec .phDetect s =
      hostSequence
        [exec (.sendtok 0), exec (.recv 4),
          fun s => .next { s with session := .bootloaderUnconfirmed },
          exec .cmpBoot,
          fun s => .next { s with
            session := if s.matched then .bootloaderConfirmed else .legacyDetected }] s ∧
    (∀ t, exec .phDetect s = .next t →
      (t.err.kind = .none ∧ (t.session = .bootloaderConfirmed ∨ t.session = .legacyDetected)) ∨
      (t.err.kind = .transportFailure ∧ t.err.phase = .detect ∧ t.session = .failed)))

/-- R197: PH.LEGACY is its sequence of operations, for every answer of the link, and reaches the same states as a host that runs them one by one; where it leaves the session, and which faults can arise. -/
def Obligations.PhLegacyIsItsSequence : Prop :=
  decode (.command [0x41]) = .ok .phLegacy ∧
  (∀ s : State, s.live = true → s.session = .legacyDetected →
    exec .phLegacy s =
      hostSequence
        [exec (.setdl 5), exec .ldRd4, exec .send, exec (.recv 13), exec .decRhr4, exec .ldReboot,
          exec .send, fun s => .next { s with session := .rebootRequested }, exec (.recv 1),
          exec .decAck, exec .pause, fun s => .next { s with session := .bootloaderConfirmed }] s ∧
    (∀ t, exec .phLegacy s = .next t →
      (t.err.kind = .none ∧ t.session = .bootloaderConfirmed) ∨
      (t.err.kind ∈ [ErrKind.transportFailure, .timeout, .protocolViolation] ∧
        t.err.phase = .legacy ∧ t.session = .failed)))

/-- R195, R196: where PH.DETECT leaves the session and the registers once its write and its read succeed, whatever the reply; no binary frame is sent. What the environment offers beyond 4 bytes the read does not return (Log 2). -/
def Obligations.PhDetectDecidesOnTheReply : Prop :=
  ∀ (s : State) (r : List Byte), s.live = true → s.session = .idle → s.link.nextWrite = .ok →
    (s.link.tookWrite (.wrote s.cfg.tokQuery)).nextRead = .bytes r →
    exec .phDetect s =
      .next { s with
        link := (s.link.tookWrite (.wrote s.cfg.tokQuery)).tookRead (.readGave (r.take 4))
        rx := { buf := Memory.ofBytes (r.take 4), len := lengthReg 13 (r.take 4).length, fresh := false }
        matched := decide (r.take 4 = s.cfg.tokBoot.toList)
        session := if r.take 4 = s.cfg.tokBoot.toList then .bootloaderConfirmed else .legacyDetected }

/-- R197, R198: the state PH.LEGACY leaves on a valid response and the acknowledgment byte; and with a response that DEC.RHR4 does not accept: the reboot request is then not sent. What the environment offers beyond 13 bytes the read does not return (Log 2). -/
def Obligations.PhLegacyReachesBootloader : Prop :=
  (∀ (s : State) (B : List Byte) (rs : List ReadDraw) (ws : List WriteDraw),
    s.live = true → s.session = .legacyDetected → rhr4Ok B = true →
    s.link.reads = .bytes B :: .bytes [s.cfg.rebootAck] :: rs → s.link.writes = .ok :: .ok :: ws →
    exec .phLegacy s =
      .next { s with
        deadline := 5
        tx := { buf := (s.tx.buf.writeBytes 0 Config.frameRd4).writeBytes 0 Config.frameReboot, len := 8 }
        rx := { buf := Memory.ofBytes [s.cfg.rebootAck], len := 1, fresh := false }
        pre := { model := some (be16 (byteAt B 3) (byteAt B 4)), version := some (byteAt B 10),
                 valid := true }
        out := .preIdentity (be16 (byteAt B 3) (byteAt B 4)) (byteAt B 10)
        session := .bootloaderConfirmed
        link :=
          { reads := rs, writes := ws, calls := s.link.calls + 4
            log := s.link.log ++ [.wrote Config.frameRd4, .readGave B, .wrote Config.frameReboot,
              .readGave [s.cfg.rebootAck]] } }) ∧
  (∀ (s : State) (r : List Byte), s.live = true → s.session = .legacyDetected →
    s.link.nextWrite = .ok →
    (s.link.tookWrite (.wrote Config.frameRd4)).nextRead = .bytes r → rhr4Ok (r.take 13) = false →
    ∃ t : State,
      exec .phLegacy s = .next t ∧ t.session = .failed ∧ t.err.phase = .legacy ∧ t.pre = s.pre ∧
      t.err.kind = (if r = [] then .timeout else .protocolViolation) ∧
      writesOf t.link.log = writesOf s.link.log ++ [Config.frameRd4])

/-- R200: PH.IDENT is its sequence of operations, for every answer of the link and whether or not an identity was decoded before; the state it leaves on a valid info reply, and on a link fault, which comes before its DEC.INFO. A second identification is refused: DEC.INFO by the spec's decision D20, and with it the phase that comes to it (Log 12). -/
def Obligations.PhIdentIsItsSequence : Prop :=
  (∀ s : State, s.live = true → s.session = .bootloaderConfirmed →
    exec .phIdent s =
      hostSequence
        [exec (.sendtok 1), exec (.recv 13), exec .decInfo,
          fun s => .next { s with session := .identityKnown }] s) ∧
  (∀ (s : State) (B : List Byte) (rs : List ReadDraw) (ws : List WriteDraw),
    s.live = true → s.session = .bootloaderConfirmed → s.ident.valid = false →
    B.length = 13 → B.take 3 = s.cfg.infoPrefix.toList →
    s.link.reads = .bytes B :: rs → s.link.writes = .ok :: ws →
    exec .phIdent s =
      .next { s with
        rx := { buf := Memory.ofBytes B, len := 13, fresh := false }
        ident := { serial := some (le32 (byteAt B 3) (byteAt B 4) (byteAt B 5) (byteAt B 6))
                   model := some (le16 (byteAt B 7) (byteAt B 8))
                   version := some (byteAt B 11), valid := true }
        session := .identityKnown
        link := { reads := rs, writes := ws, calls := s.link.calls + 2
                  log := s.link.log ++ [.wrote s.cfg.tokGetInfo, .readGave B] } }) ∧
  (∀ s : State, s.live = true → s.session = .bootloaderConfirmed →
    (∀ k, s.link.nextWrite = .ioError k →
      exec .phIdent s =
        .next (({ s with
            link := s.link.tookWrite (.writeFailed (s.cfg.tokGetInfo.take k)) } : State).raise
          .transportFailure .identify none none)) ∧
    (s.link.nextWrite = .ok → (s.link.tookWrite (.wrote s.cfg.tokGetInfo)).nextRead = .ioError →
      exec .phIdent s =
        .next (({ s with
            link := (s.link.tookWrite (.wrote s.cfg.tokGetInfo)).tookRead .readFailed } : State).raise
          .transportFailure .identify none none))) ∧
  (∀ (s : State) (B : List Byte), s.live = true → s.ident.valid = true →
    (s.hasReply B → s.rx.fresh = true → exec .decInfo s = .refused .alreadyIdentified) ∧
    (s.session = .bootloaderConfirmed → s.link.nextWrite = .ok →
      (s.link.tookWrite (.wrote s.cfg.tokGetInfo)).nextRead = .bytes B →
      exec .phIdent s = .refused .alreadyIdentified))

/-- R204, R205: PH.GATE. Nothing is sent or received. -/
def Obligations.PhGateTestsTheRegistry : Prop :=
  decode (.command [0x43]) = .ok .phGate ∧
  (∀ (s : State) (m : Word), s.live = true → s.session = .identityKnown → s.ident.valid = true →
    s.ident.model = some m →
    (m.toNat ∈ [60062, 60065, 60066, 60121, 60125, 60181, 60241] →
      exec .phGate s = .next { s with session := .modelValidated }) ∧
    (m.toNat ∉ [60062, 60065, 60066, 60121, 60125, 60181, 60241] →
      exec .phGate s = .next (s.raise .unsupportedModel .gate none none)))

/-- R206: PH.XFER is its sequence of operations, the loop unrolled to `nchunks(N)` turns; where it leaves the session, and which faults can arise. -/
def Obligations.PhXferIsItsSequence : Prop :=
  decode (.command [0x44]) = .ok .phXfer ∧
  (∀ s : State, s.live = true → s.session = .modelValidated →
    exec .phXfer s =
      hostSequence
        ([exec (.sendtok 2), exec (.recv 6), exec .chkReady,
            fun s => .next { s with session := .transferring }, fun s => .next { s with chunkIdx := 0 }] ++
          (List.replicate ((s.cfg.image.length + 63) / 64)
            [exec .sendchunk, exec (.recv 2), exec .chkOk,
              fun s => .next { s with chunkIdx := s.chunkIdx + 1 }]).flatten ++
          [fun s => .next { s with session := .complete }]) s ∧
    (∀ t, exec .phXfer s = .next t →
      (t.err.kind = .none ∧ t.session = .complete ∧
        t.chunkIdx = (s.cfg.image.length + 63) / 64) ∨
      (t.err.kind ∈ [ErrKind.transportFailure, .protocolViolation] ∧
        t.err.phase = .transfer ∧ t.session = .failed)))

/-- R209, and with it R206 and R208: with the ready token and an acknowledgment for each chunk PH.XFER sends the whole image in order and completes; nothing is written or read after the last acknowledgment. That this holds of the empty image too is R211, which the spec derives (decision D30). -/
def Obligations.PhXferSendsTheWholeImage : Prop :=
  ∀ (s : State) (rs : List ReadDraw) (ws : List WriteDraw),
    s.live = true → s.session = .modelValidated →
    s.link.reads =
      .bytes s.cfg.tokReady.toList ::
        (List.replicate ((s.cfg.image.length + 63) / 64) (.bytes [0x4F, 0x4B]) ++ rs) →
    s.link.writes = .ok :: (List.replicate ((s.cfg.image.length + 63) / 64) .ok ++ ws) →
    ∃ t : State,
      exec .phXfer s = .next t ∧
      t = { s with session := .complete, chunkIdx := (s.cfg.image.length + 63) / 64, rx := t.rx,
                   link := t.link } ∧
      t.rx.fresh = false ∧ t.link.reads = rs ∧ t.link.writes = ws ∧
      writesOf t.link.log =
        writesOf s.link.log ++
          s.cfg.tokStart :: firstChunks s.cfg.image ((s.cfg.image.length + 63) / 64) ∧
      (firstChunks s.cfg.image ((s.cfg.image.length + 63) / 64)).flatten = s.cfg.image

/-- R210: a wrong acknowledgment of chunk `k` stops the transfer with that index recorded, after exactly the chunks up to `k` were sent; nothing is sent or read after it. What the environment offers beyond 2 bytes the read does not return (Log 2). -/
def Obligations.PhXferStopsAtTheFirstBadAcknowledgment : Prop :=
  ∀ (s : State) (k : Nat) (bad : List Byte) (rs : List ReadDraw) (ws : List WriteDraw),
    s.live = true → s.session = .modelValidated → k < (s.cfg.image.length + 63) / 64 →
    bad.take 2 ≠ [0x4F, 0x4B] →
    s.link.reads =
      .bytes s.cfg.tokReady.toList :: (List.replicate k (.bytes [0x4F, 0x4B]) ++ .bytes bad :: rs) →
    s.link.writes = .ok :: (List.replicate (k + 1) .ok ++ ws) →
    ∃ t : State,
      exec .phXfer s = .next t ∧
      t = { s with session := .failed, chunkIdx := k, rx := t.rx, err := t.err, link := t.link } ∧
      t.err.kind = .protocolViolation ∧ t.err.phase = .transfer ∧ t.err.chunk = some k ∧
      t.err.blen.val = (bad.take 2).length ∧
      t.err.bytes.readBytes 0 (bad.take 2).length = some (bad.take 2) ∧
      t.rx.fresh = true ∧ t.link.reads = rs ∧ t.link.writes = ws ∧
      writesOf t.link.log =
        writesOf s.link.log ++ s.cfg.tokStart :: firstChunks s.cfg.image (k + 1)

/-- R207: the number of chunks, their lengths, and that together they are the image. -/
def Obligations.ChunksPartitionTheImage : Prop :=
  ∀ image : List Byte,
    nchunks image.length = (image.length + 63) / 64 ∧
    (∀ i, chunkOf image i = (image.take (min (64 * i + 64) image.length)).drop (64 * i)) ∧
    (∀ i, i + 1 < nchunks image.length → (chunkOf image i).length = 64) ∧
    (∀ i, i + 1 = nchunks image.length →
      (chunkOf image i).length = if image.length % 64 = 0 then 64 else image.length % 64) ∧
    (firstChunks image (nchunks image.length)).flatten = image

/-! ## The session, the gates and the sticky fault -/

/-- R193, the spec's decision D20: each phase operation runs from its entry state only; from the terminal states nothing runs. -/
def Obligations.PhasesRunFromTheirEntryStateOnly : Prop :=
  (∀ s : State, s.live = true →
    (s.session ≠ .idle → exec .phDetect s = .refused (.wrongSession s.session)) ∧
    (s.session ≠ .legacyDetected → exec .phLegacy s = .refused (.wrongSession s.session)) ∧
    (s.session ≠ .bootloaderConfirmed → exec .phIdent s = .refused (.wrongSession s.session)) ∧
    (s.session ≠ .identityKnown → exec .phGate s = .refused (.wrongSession s.session)) ∧
    (s.session ≠ .modelValidated → exec .phXfer s = .refused (.wrongSession s.session))) ∧
  (∀ (i : Instr) (s : State), s.session = .complete ∨ s.session = .failed →
    ∃ r, exec i s = .refused r)

/-- R192, with the spec's decision D21: the session moves only along the transition table, and only a phase operation or a fault moves it. -/
def Obligations.SessionFollowsTheTransitionTable : Prop :=
  ∀ (i : Instr) (s t : State), exec i s = .next t →
    Session.Path s.session t.session ∧
    (t.session = s.session ∨ t.session = .failed ∨ i = .phDetect ∨ i = .phLegacy ∨ i = .phIdent ∨
      i = .phGate ∨ i = .phXfer)

/-- R229, the spec's decision D19: after a fault every operation is refused; so the error registers are never cleared and the session stays failed. -/
def Obligations.FaultsAreSticky : Prop :=
  ∀ (i : Instr) (s : State), s.err.kind ≠ .none → exec i s = .refused .sessionFailed

/-- R220: a fault of a single operation changes the error registers, the session and the model's record of the link (Log 2), and nothing else. R220 exempts the phases, which are sequences; the messages that build and send are sequences by the model's choice (Log 8). -/
def Obligations.FaultsArePrecise : Prop :=
  ∀ (i : Instr) (s t : State), exec i s = .next t → t.err.kind ≠ .none →
    t = { s with err := t.err, session := .failed, link := t.link } ∨
    i = .phDetect ∨ i = .phLegacy ∨ i = .phIdent ∨ i = .phXfer ∨ i = .rd4Req ∨ i = .rebootReq ∨
    (∃ a p q c, i = .rhrReq a p q c) ∨ (∃ a p q c, i = .wsrReq a p q c)

/-- R221 to R225, R187: which operation can raise which error kind. The messages that send can raise what the operations they stand for can (Log 8). -/
def Obligations.ErrorKindsHaveTheirCauses : Prop :=
  ∀ (i : Instr) (s t : State), exec i s = .next t →
    t.err.kind ≠ .imageSourceFailure ∧
    (t.err.kind = .timeout → i = .decRhr4 ∨ i = .decInfo ∨ i = .phLegacy ∨ i = .phIdent) ∧
    (t.err.kind = .unsupportedModel → i = .phGate) ∧
    (t.err.kind = .protocolViolation →
      i = .decRhr4 ∨ i = .decAck ∨ i = .decInfo ∨ i = .chkReady ∨ i = .chkOk ∨ i = .phLegacy ∨
      i = .phIdent ∨ i = .phXfer) ∧
    (t.err.kind = .transportFailure → WritesLink i ∨ ∃ n, i = .recv n)

/-- R28: an identity, once decoded, is not written again, and only DEC.INFO, alone or in PH.IDENT, writes it. -/
def Obligations.IdentityIsWrittenOnce : Prop :=
  ∀ (i : Instr) (s t : State), exec i s = .next t →
    (s.ident.valid = true → t.ident = s.ident) ∧
    (t.ident ≠ s.ident → (i = .decInfo ∨ i = .phIdent) ∧ s.ident.valid = false ∧ t.ident.valid = true)

/-- R43, R22: which operations write which registers (`SESSION`: SessionFollowsTheTransitionTable); the configuration and the presented inputs no operation writes (Log 1, Log 4). The messages write what the operations they stand for write (Logs 8, 9). -/
def Obligations.WriteMatrix : Prop :=
  ∀ (i : Instr) (s t : State), exec i s = .next t →
    (t.crc = s.crc ∨ i = .crcInit ∨ ∃ b, i = .crcUpd b) ∧
    (t.tx = s.tx ∨ (∃ a p q, i = .encRhr a p q) ∨ (∃ a p q, i = .encWsr a p q) ∨ i = .ldRd4 ∨
      i = .ldReboot ∨ i = .phLegacy ∨ (∃ a p q c, i = .rhrReq a p q c) ∨
      (∃ a p q c, i = .wsrReq a p q c) ∨ i = .rd4Req ∨ i = .rebootReq) ∧
    (StoresReply i ∨ (t.rx.buf = s.rx.buf ∧ t.rx.len = s.rx.len)) ∧
    (StoresReply i ∨ i ∈ [Instr.decRhr4, .decAck, .decInfo, .cmpBoot, .chkReady, .chkOk] ∨
      t.rx.fresh = s.rx.fresh) ∧
    (t.pre = s.pre ∨ i = .decRhr4 ∨ i = .phLegacy) ∧
    (t.ident = s.ident ∨ i = .decInfo ∨ i = .phIdent) ∧
    (t.matched = s.matched ∨ i = .cmpBoot ∨ i = .phDetect) ∧
    (t.chunkIdx = s.chunkIdx ∨ i = .phXfer) ∧
    (t.deadline = s.deadline ∨ (∃ d, i = .setdl d) ∨ i = .phLegacy) ∧
    (t.err = s.err ∨ t.session = .failed) ∧
    t.cfg = s.cfg ∧ t.input = s.input

/-- The link's history only grows: what was sent stays sent (R25, R72). -/
def Obligations.LinkHistoryOnlyGrows : Prop :=
  ∀ s t : State, step s = .next t → s.link.log <+: t.link.log

/-! ## Invariants that every step keeps -/

/-- The buffers hold exactly their valid bytes in canonical form, and `TXBUF` one whole frame or none (R25, R26, R29, R52). -/
def Obligations.StepKeepsBuffers : Prop :=
  ∀ s t : State, s.BuffersInv → step s = .next t → t.BuffersInv

/-- No operation puts a frame with a wrong checksum into `TXBUF` (R148). -/
def Obligations.StepKeepsFrameChecksum : Prop :=
  ∀ s t : State, s.FrameInv → step s = .next t → t.FrameInv

/-- The error registers record one fault together with `SESSION = Failed` (R221, R225, R226). -/
def Obligations.StepKeepsErrorRecord : Prop :=
  ∀ s t : State, s.ErrorInv → step s = .next t → t.ErrorInv

/-- The identity registers are never partly updated (R27, R28, R155). -/
def Obligations.StepKeepsIdentityWhole : Prop :=
  ∀ s t : State, s.IdentityInv → step s = .next t → t.IdentityInv

/-- A session past the gate has a model code of the registry (R237). -/
def Obligations.StepKeepsTheGate : Prop :=
  ∀ s t : State, s.GateInv → step s = .next t → t.GateInv

/-- The chunk index never passes the image and stands at its end in `Complete` (R206, R209). -/
def Obligations.StepKeepsChunkIndex : Prop :=
  ∀ s t : State, s.ChunkInv → step s = .next t → t.ChunkInv

/-- R52: from a state whose buffers hold their bytes no step reads a buffer outside its valid bytes: no step answers the model's fault. -/
def Obligations.NoStepReadsOutsideABuffer : Prop :=
  ∀ (s : State) (f : Fault), s.BuffersInv → step s ≠ .fault f

/-- R237: the gated operations, PH.XFER, which opens the transfer, and SENDCHUNK, run only in a session that passed the gate, and so one whose model code is in the registry; elsewhere they answer no next state. The chunk message is SENDCHUNK by the model's choice (Log 8). SENDTOK 2 alone is not gated (the spec's decision D20, Log 13). -/
def Obligations.TransferNeedsRegisteredModel : Prop :=
  ∀ (i : Instr) (s t : State), s.GateInv → exec i s = .next t →
    (i = .phXfer ∨ i = .sendchunk ∨ ∃ d, i = .chunk d) →
    (s.session = .modelValidated ∨ s.session = .transferring) ∧
      ∃ m, s.ident.model = some m ∧ m ∈ Config.registry

/-! ## The messages as instructions (Logs 8, 9) -/

/-- The requests FC16 sends (R83, R84, R85, R86) and the raw chunk (R94), as the model runs them (Log 8): the operations that build and send the message, for every answer of the link; what they leave when the link takes it; a request whose checksum field is not its checksum, and a chunk that is not the selected one, is refused. -/
def Obligations.SentMessagesAreWritten : Prop :=
  ∀ s : State, s.live = true →
    (∀ (a : Byte) (p q c : Word),
      (c = crc16 [a, 0x03, hi8 p, lo8 p, hi8 q, lo8 q] →
        exec (.rhrReq a p q c) s = runAll [.encRhr a p q, .send] s) ∧
      (c ≠ crc16 [a, 0x03, hi8 p, lo8 p, hi8 q, lo8 q] →
        exec (.rhrReq a p q c) s = .refused .checksumMismatch) ∧
      (c = crc16 [a, 0x06, hi8 p, lo8 p, hi8 q, lo8 q] →
        exec (.wsrReq a p q c) s = runAll [.encWsr a p q, .send] s) ∧
      (c ≠ crc16 [a, 0x06, hi8 p, lo8 p, hi8 q, lo8 q] →
        exec (.wsrReq a p q c) s = .refused .checksumMismatch)) ∧
    exec .rd4Req s = runAll [.ldRd4, .send] s ∧
    exec .rebootReq s = runAll [.ldReboot, .send] s ∧
    (∀ d, s.session = .transferring → s.chunkIdx < nchunks s.cfg.image.length →
      (d = chunkOf s.cfg.image s.chunkIdx → exec (.chunk d) s = exec .sendchunk s) ∧
      (d ≠ chunkOf s.cfg.image s.chunkIdx → exec (.chunk d) s = .refused .notTheNextChunk)) ∧
    (s.link.nextWrite = .ok →
      (∀ (a : Byte) (p q : Word),
        exec (.rhrReq a p q (crc16 [a, 0x03, hi8 p, lo8 p, hi8 q, lo8 q])) s =
          .next { s with
            tx := { buf := s.tx.buf.writeBytes 0 (encReq a 0x03 p q), len := 8 }
            link := s.link.tookWrite (.wrote (encReq a 0x03 p q)) } ∧
        exec (.wsrReq a p q (crc16 [a, 0x06, hi8 p, lo8 p, hi8 q, lo8 q])) s =
          .next { s with
            tx := { buf := s.tx.buf.writeBytes 0 (encReq a 0x06 p q), len := 8 }
            link := s.link.tookWrite (.wrote (encReq a 0x06 p q)) }) ∧
      exec .rd4Req s =
        .next { s with
          tx := { buf := s.tx.buf.writeBytes 0 Config.frameRd4, len := 8 }
          link := s.link.tookWrite (.wrote Config.frameRd4) } ∧
      exec .rebootReq s =
        .next { s with
          tx := { buf := s.tx.buf.writeBytes 0 Config.frameReboot, len := 8 }
          link := s.link.tookWrite (.wrote Config.frameReboot) } ∧
      (s.session = .transferring → s.chunkIdx < nchunks s.cfg.image.length →
        exec (.chunk (chunkOf s.cfg.image s.chunkIdx)) s =
          .next { s with link := s.link.tookWrite (.wrote (chunkOf s.cfg.image s.chunkIdx)) }))

/-- The messages FC16 receives (R87, R89, R90, R92), as the model runs them (Log 9): a read returned exactly that message. -/
def Obligations.ReceivedMessagesEnterTheBuffer : Prop :=
  ∀ s : State, s.live = true →
    ∀ (i : Instr) (B : List Byte),
      ((∃ m x5 x6 x7 x8 x9 v c, i = .rd4Rsp m x5 x6 x7 x8 x9 v c ∧
          B = [0x01, 0x03, 0x08, hi8 m, lo8 m, x5, x6, x7, x8, x9, v, lo8 c, hi8 c]) ∨
        (∃ k, i = .rebootAck k ∧ B = [k]) ∨
        (∃ f0 f1 f2 b0 b1 b2 b3 l h x9 x10 v y,
          i = .infoRsp f0 f1 f2 (le32 b0 b1 b2 b3) (le16 l h) x9 x10 v y ∧
          B = [f0, f1, f2, b0, b1, b2, b3, l, h, x9, x10, v, y]) ∨
        (i = .okTok ∧ B = [0x4F, 0x4B]) ∨
        (∃ t0 t1 t2 t3, i = .bootTok t0 t1 t2 t3 ∧ B = [t0, t1, t2, t3]) ∨
        (∃ t0 t1 t2 t3 t4 t5, i = .readyTok t0 t1 t2 t3 t4 t5 ∧ B = [t0, t1, t2, t3, t4, t5])) →
      exec i s =
        .next { s with
          rx := { buf := Memory.ofBytes B, len := lengthReg 13 B.length, fresh := true }
          link := { s.link with calls := s.link.calls + 1, log := s.link.log ++ [.readGave B] } }

/-- R87, R59: a read response that arrives is accepted by DEC.RHR4 exactly when its checksum field is its checksum, and its fields are then the preliminary identity. -/
def Obligations.ReadResponseIsDecoded : Prop :=
  ∀ (s : State) (m : Word) (x5 x6 x7 x8 x9 v : Byte) (c : Word), s.live = true →
    ∃ t : State,
      runAll [.rd4Rsp m x5 x6 x7 x8 x9 v c, .decRhr4] s = .next t ∧
      (c = crc16 [0x01, 0x03, 0x08, hi8 m, lo8 m, x5, x6, x7, x8, x9, v] →
        t.err = s.err ∧ t.session = s.session ∧
          t.pre = { model := some m, version := some v, valid := true }) ∧
      (c ≠ crc16 [0x01, 0x03, 0x08, hi8 m, lo8 m, x5, x6, x7, x8, x9, v] →
        t.err.kind = .protocolViolation ∧ t.session = .failed ∧ t.pre = s.pre)

/-- R90, R60: an info reply that arrives with the configured first three bytes gives its fields as the Device Identity, whatever the uninterpreted bytes are; any other is a protocol violation. -/
def Obligations.InfoReplyIsDecoded : Prop :=
  ∀ (s : State) (f0 f1 f2 : Byte) (serial : DWord) (m : Word) (x9 x10 v y : Byte), s.live = true →
    s.ident.valid = false →
    ∃ t : State,
      runAll [.infoRsp f0 f1 f2 serial m x9 x10 v y, .decInfo] s = .next t ∧
      ([f0, f1, f2] = s.cfg.infoPrefix.toList →
        t.err = s.err ∧ t.session = s.session ∧
          t.ident = { serial := some serial, model := some m, version := some v, valid := true }) ∧
      ([f0, f1, f2] ≠ s.cfg.infoPrefix.toList →
        t.err.kind = .protocolViolation ∧ t.session = .failed ∧ t.ident = s.ident)
end

