-- ==== Sys2Proof/Laws/Bytes.lean ====
section
/-! SUPPORT. Byte order: splitting a value and assembling it again, the numbers the assembled values stand for (00_scope.md R12), and the lengths of the built messages. -/

namespace Sys2Proof

/-- `be16(h, l) = h * 256 + l` (R12). -/
theorem toNat_be16 (h l : Byte) : (be16 h l).toNat = h.toNat * 256 + l.toNat := by
  have hl := l.isLt
  simp only [be16, BitVec.toNat_append]
  rw [← Nat.shiftLeft_add_eq_or_of_lt (by omega), Nat.shiftLeft_eq]

/-- `le16(l, h) = h * 256 + l` (R12). -/
theorem toNat_le16 (l h : Byte) : (le16 l h).toNat = h.toNat * 256 + l.toNat := toNat_be16 h l

/-- `le32(b0, b1, b2, b3)` (R12). -/
theorem toNat_le32 (b0 b1 b2 b3 : Byte) :
    (le32 b0 b1 b2 b3).toNat =
      b0.toNat + b1.toNat * 2 ^ 8 + b2.toNat * 2 ^ 16 + b3.toNat * 2 ^ 24 := by
  have h0 := b0.isLt
  have h1 := b1.isLt
  have h2 := b2.isLt
  simp only [le32, BitVec.toNat_append]
  rw [← Nat.shiftLeft_add_eq_or_of_lt h2, ← Nat.shiftLeft_add_eq_or_of_lt h1,
    ← Nat.shiftLeft_add_eq_or_of_lt h0]
  simp only [Nat.shiftLeft_eq]
  omega

@[simp] theorem be16_hi8_lo8 (v : Word) : be16 (hi8 v) (lo8 v) = v := by
  apply BitVec.eq_of_getLsbD_eq
  intro i hi
  simp only [be16, hi8, lo8, BitVec.getLsbD_append, BitVec.getLsbD_extractLsb']
  by_cases h : i < 8
  · simp [h]
  · have h2 : i - 8 < 8 := by omega
    have h3 : 8 + (i - 8) = i := by omega
    simp [h, h2, h3]

@[simp] theorem le16_lo8_hi8 (v : Word) : le16 (lo8 v) (hi8 v) = v := be16_hi8_lo8 v

@[simp] theorem hi8_be16 (h l : Byte) : hi8 (be16 h l) = h := by
  apply BitVec.eq_of_getLsbD_eq
  intro i hi
  simp only [be16, hi8, BitVec.getLsbD_extractLsb', BitVec.getLsbD_append]
  simp [hi]

@[simp] theorem lo8_be16 (h l : Byte) : lo8 (be16 h l) = l := by
  apply BitVec.eq_of_getLsbD_eq
  intro i hi
  simp only [be16, lo8, BitVec.getLsbD_extractLsb', BitVec.getLsbD_append]
  simp [hi]

@[simp] theorem hi8_le16 (l h : Byte) : hi8 (le16 l h) = h := hi8_be16 h l

@[simp] theorem lo8_le16 (l h : Byte) : lo8 (le16 l h) = l := lo8_be16 h l

@[simp] theorem le32_byteOf (v : DWord) :
    le32 (byteOf v 0) (byteOf v 1) (byteOf v 2) (byteOf v 3) = v := by
  apply BitVec.eq_of_getLsbD_eq
  intro i hi
  simp only [le32, byteOf, BitVec.getLsbD_append, BitVec.getLsbD_extractLsb']
  by_cases h0 : i < 8
  · simp [h0]
  by_cases h1 : i < 16
  · have a : i - 8 < 8 := by omega
    have b : 8 + (i - 8) = i := by omega
    simp [h0, a, b]
  by_cases h2 : i < 24
  · have a : ¬(i - 8 < 8) := by omega
    have a2 : i - 8 - 8 < 8 := by omega
    have b : 16 + (i - 8 - 8) = i := by omega
    simp [h0, a, a2, b]
  · have a : ¬(i - 8 < 8) := by omega
    have a2 : ¬(i - 8 - 8 < 8) := by omega
    have a3 : i - 8 - 8 - 8 < 8 := by omega
    have b : 24 + (i - 8 - 8 - 8) = i := by omega
    simp [h0, a, a2, a3, b]

@[simp] theorem byteOf_le32 (b0 b1 b2 b3 : Byte) :
    byteOf (le32 b0 b1 b2 b3) 0 = b0 ∧ byteOf (le32 b0 b1 b2 b3) 1 = b1 ∧
      byteOf (le32 b0 b1 b2 b3) 2 = b2 ∧ byteOf (le32 b0 b1 b2 b3) 3 = b3 := by
  refine ⟨?_, ?_, ?_, ?_⟩ <;> apply BitVec.eq_of_getLsbD_eq <;> intro i hi <;>
    simp only [le32, byteOf, BitVec.getLsbD_append, BitVec.getLsbD_extractLsb']
  · simp [hi]
  · have a : ¬(8 * 1 + i < 8) := by omega
    have b : 8 * 1 + i - 8 = i := by omega
    simp [hi]
  · have a : ¬(8 * 2 + i < 8) := by omega
    have a2 : ¬(8 * 2 + i - 8 < 8) := by omega
    have b : 8 * 2 + i - 8 - 8 = i := by omega
    simp only [hi, a, a2, b, decide_true, Bool.true_and, if_false, if_true]
  · have a : ¬(8 * 3 + i < 8) := by omega
    have a2 : ¬(8 * 3 + i - 8 < 8) := by omega
    have a3 : ¬(8 * 3 + i - 8 - 8 < 8) := by omega
    have b : 8 * 3 + i - 8 - 8 - 8 = i := by omega
    simp only [hi, a, a2, a3, b, decide_true, Bool.true_and, if_false]

@[simp] theorem length_crcAppend (M : List Byte) : (crcAppend M).length = M.length + 2 := by
  simp [crcAppend]

@[simp] theorem length_reqBody (a f : Byte) (p q : Word) : (reqBody a f p q).length = 6 := rfl

@[simp] theorem length_encReq (a f : Byte) (p q : Word) : (encReq a f p q).length = 8 := rfl

@[simp] theorem length_reqBytes (a f : Byte) (p q c : Word) : (reqBytes a f p q c).length = 8 := rfl

@[simp] theorem length_rspBytes (m : Word) (x5 x6 x7 x8 x9 v : Byte) (c : Word) :
    (rspBytes m x5 x6 x7 x8 x9 v c).length = 13 := rfl

@[simp] theorem length_infoBytes (f0 f1 f2 : Byte) (serial : DWord) (m : Word) (x9 x10 v y : Byte) :
    (infoBytes f0 f1 f2 serial m x9 x10 v y).length = 13 := rfl

/-- A message with its checksum appended passes the check (40_crc16.md R124, R125). -/
theorem crcOk_crcAppend (M : List Byte) : crcOk (crcAppend M) = true := by
  simp [crcOk, crcAppend]

/-- A chunk has at most 64 bytes, and at least one below `nchunks` (44_session_phases.md R207). -/
theorem length_chunkOf (image : List Byte) (i : Nat) :
    (chunkOf image i).length = min 64 (image.length - 64 * i) := by
  simp [chunkOf, Config.chunkSize]

end Sys2Proof
end

