-- ==== Sys2Proof/Laws/Checksum.lean ====
section
/-! SUPPORT. The checksum's steps over exclusive-or and over a value whose low byte is zero (40_crc16.md R121, R122). -/

namespace Sys2Proof

theorem crcBit_xor (x y : Word) : crcBit (x ^^^ y) = crcBit x ^^^ crcBit y := by
  unfold crcBit
  simp only [BitVec.getLsbD_xor]
  cases x.getLsbD 0 <;> cases y.getLsbD 0 <;> simp [BitVec.ushiftRight_xor_distrib]
  · ac_rfl
  · ac_rfl
  · rw [BitVec.xor_assoc, BitVec.xor_comm (y >>> 1), ← BitVec.xor_assoc Config.crcPoly]
    simp

/-- The byte step over the exclusive-or of two accumulators and of two bytes. -/
theorem crcByte_xor (c d : Word) (a b : Byte) :
    crcByte (c ^^^ d) (a ^^^ b) = crcByte c a ^^^ crcByte d b := by
  have h : (c ^^^ d) ^^^ (a ^^^ b).zeroExtend 16 = (c ^^^ a.zeroExtend 16) ^^^ (d ^^^ b.zeroExtend 16) := by
    simp only [BitVec.zeroExtend, BitVec.setWidth_xor]
    ac_rfl
  simp only [crcByte, h, crcBit_xor]

/-- A bit step that shifts out a zero. -/
theorem crcBit_of_even {x : Word} (h : x.getLsbD 0 = false) : crcBit x = x >>> 1 := by
  simp only [crcBit, h]
  rfl

/-- A byte step on a value whose low byte becomes zero is a shift by eight. -/
theorem crcByte_of_low_zero {c : Word} {b : Byte}
    (h : ∀ i < 8, (c ^^^ b.zeroExtend 16).getLsbD i = false) :
    crcByte c b = (c ^^^ b.zeroExtend 16) >>> 8 := by
  unfold crcByte
  generalize c ^^^ b.zeroExtend 16 = x at h
  have s : ∀ k < 8, crcBit (x >>> k) = x >>> (k + 1) := by
    intro k hk
    rw [crcBit_of_even (by simpa using h k hk), BitVec.shiftRight_add]
  have h0 := s 0 (by omega)
  simp only [BitVec.ushiftRight_zero, Nat.zero_add] at h0
  rw [h0, s 1 (by omega), s 2 (by omega), s 3 (by omega), s 4 (by omega), s 5 (by omega),
    s 6 (by omega), s 7 (by omega)]

end Sys2Proof
end

