-- ==== Sys2Proof/Laws/Memory.lean ====
section
/-! SUPPORT. Buffers: a read after a write, the canonical form is kept, and what a buffer that holds `n` bytes answers. -/

namespace Sys2Proof.Machine

@[simp] theorem Memory.read_nil (a : Nat) : Memory.read [] a = none := rfl

/-- A read after a write gives the value written, and every other offset is left alone. -/
theorem Memory.read_write (m : Memory) (a x : Nat) (b : Byte) :
    (Memory.write m a b).read x = if x = a then some b else m.read x := by
  induction m with
  | nil => simp [Memory.write, Memory.read, eq_comm]
  | cons c rest ih =>
    obtain ⟨y, v⟩ := c
    unfold Memory.write
    split
    · simp [Memory.read, eq_comm]
    · split
      · subst_vars
        by_cases h : x = y <;> simp [Memory.read, h, eq_comm]
      · simp only [Memory.read, ih]
        by_cases h : y = x <;> simp_all [eq_comm]

/-- The offsets of a buffer after a write. -/
theorem Memory.mem_write {m : Memory} {a : Nat} {b : Byte} {c : Host.Cell}
    (h : c ∈ Memory.write m a b) : c.1 = a ∨ c ∈ m := by
  induction m with
  | nil => simp_all [Memory.write]
  | cons d rest ih =>
    obtain ⟨y, v⟩ := d
    unfold Memory.write at h
    split at h
    · simp only [List.mem_cons] at h
      rcases h with rfl | h
      · exact .inl rfl
      · exact .inr (by simpa using h)
    · split at h
      · simp only [List.mem_cons] at h
        rcases h with rfl | h
        · exact .inl rfl
        · exact .inr (by simp [h])
      · simp only [List.mem_cons] at h
        rcases h with rfl | h
        · exact .inr (by simp)
        · rcases ih h with h | h
          · exact .inl h
          · exact .inr (by simp [h])

/-- A write keeps the canonical form. -/
theorem Memory.wf_write {m : Memory} (a : Nat) (b : Byte) (h : m.wf) : (Memory.write m a b).wf := by
  induction m with
  | nil => simp [Memory.write, Memory.wf]
  | cons d rest ih =>
    obtain ⟨y, v⟩ := d
    obtain ⟨h1, h2⟩ := List.pairwise_cons.mp h
    unfold Memory.write
    split
    · refine List.pairwise_cons.mpr ⟨?_, h⟩
      intro c hc
      rcases List.mem_cons.mp hc with rfl | hc
      · assumption
      · exact lt_trans ‹_› (h1 c hc)
    · split
      · subst_vars
        exact List.pairwise_cons.mpr ⟨h1, h2⟩
      · refine List.pairwise_cons.mpr ⟨?_, ih h2⟩
        intro c hc
        rcases Memory.mem_write hc with hc | hc
        · simp only [hc]
          omega
        · exact h1 c hc

/-- Writing several bytes keeps the canonical form. -/
theorem Memory.wf_writeBytes {m : Memory} (a : Nat) (B : List Byte) (h : m.wf) :
    (m.writeBytes a B).wf := by
  induction B generalizing m a with
  | nil => exact h
  | cons b rest ih => exact ih _ (Memory.wf_write a b h)

theorem Memory.wf_ofBytes (B : List Byte) : (Memory.ofBytes B).wf :=
  Memory.wf_writeBytes 0 B List.Pairwise.nil

/-- A read after a write of several bytes. -/
theorem Memory.read_writeBytes (m : Memory) (a x : Nat) (B : List Byte) :
    (m.writeBytes a B).read x =
      if a ≤ x ∧ x < a + B.length then B[x - a]? else m.read x := by
  induction B generalizing m a with
  | nil =>
    have : ¬(a ≤ x ∧ x < a + ([] : List Byte).length) := by simp
    simp only [Memory.writeBytes, this, if_false]
  | cons b rest ih =>
    simp only [Memory.writeBytes, ih, Memory.read_write, List.length_cons]
    by_cases h : x = a
    · subst h
      simp
    · by_cases h2 : a + 1 ≤ x ∧ x < a + 1 + rest.length
      · have h3 : a ≤ x ∧ x < a + (rest.length + 1) := by omega
        have h4 : x - a = (x - (a + 1)) + 1 := by omega
        simp [h2, h3, h4]
      · have h3 : ¬(a ≤ x ∧ x < a + (rest.length + 1)) := by omega
        simp only [h2, h3, h, if_false]

/-- How many bytes a read of several bytes gives. -/
theorem Memory.length_readBytes {m : Memory} {a n : Nat} {B : List Byte}
    (h : m.readBytes a n = some B) : B.length = n := by
  induction n generalizing a B with
  | zero => simp_all [Memory.readBytes]
  | succ n ih =>
    simp only [Memory.readBytes] at h
    split at h
    · rename_i b rest _ hr
      cases h
      simp [ih hr]
    · cases h

/-- A read of several bytes depends on those bytes only. -/
theorem Memory.readBytes_congr {m m' : Memory} {a n : Nat}
    (h : ∀ x, a ≤ x → x < a + n → m.read x = m'.read x) : m.readBytes a n = m'.readBytes a n := by
  induction n generalizing a with
  | zero => rfl
  | succ n ih =>
    simp only [Memory.readBytes, h a (le_refl a) (by omega)]
    rw [ih (fun x h1 h2 => h x (by omega) (by omega))]

/-- A read of the bytes just written gives them back. -/
theorem Memory.readBytes_writeBytes (m : Memory) (a : Nat) (B : List Byte) :
    (m.writeBytes a B).readBytes a B.length = some B := by
  induction B generalizing m a with
  | nil => rfl
  | cons b rest ih =>
    simp only [List.length_cons, Memory.readBytes]
    have h1 : (m.writeBytes a (b :: rest)).read a = some b := by
      rw [Memory.read_writeBytes]
      simp
    have h2 := ih (Memory.write m a b) (a + 1)
    rw [h1]
    simp only [Memory.writeBytes, h2]

@[simp] theorem Memory.readBytes_ofBytes (B : List Byte) :
    (Memory.ofBytes B).readBytes 0 B.length = some B :=
  Memory.readBytes_writeBytes [] 0 B

/-- Where each offset of a range holds a value, the read of the range answers. -/
theorem Memory.exists_readBytes {m : Memory} {a n : Nat}
    (h : ∀ x, a ≤ x → x < a + n → (m.read x).isSome = true) : ∃ B, m.readBytes a n = some B := by
  induction n generalizing a with
  | zero => exact ⟨[], rfl⟩
  | succ n ih =>
    obtain ⟨b, hb⟩ := Option.isSome_iff_exists.mp (h a (le_refl a) (by omega))
    obtain ⟨B, hB⟩ := ih (a := a + 1) (fun x h1 h2 => h x (by omega) (by omega))
    exact ⟨b :: B, by simp [Memory.readBytes, hb, hB]⟩

/-- A buffer that holds `n` bytes answers the read of them. -/
theorem Memory.holds.exists_bytes {m : Memory} {n : Nat} (h : m.holds n) :
    ∃ B, m.readBytes 0 n = some B ∧ B.length = n := by
  obtain ⟨B, hB⟩ := Memory.exists_readBytes (m := m) (a := 0) (n := n)
    (fun x _ hx => (h.2 x).mpr (by omega))
  exact ⟨B, hB, Memory.length_readBytes hB⟩

theorem Memory.holds_nil : Memory.holds [] 0 := by
  refine ⟨List.Pairwise.nil, ?_⟩
  simp

/-- A buffer of at most as many bytes holds exactly the bytes written from offset 0. -/
theorem Memory.holds_writeBytes {m : Memory} {n : Nat} {B : List Byte} (h : m.holds n)
    (hn : n ≤ B.length) : (m.writeBytes 0 B).holds B.length := by
  refine ⟨Memory.wf_writeBytes 0 B h.1, ?_⟩
  intro a
  rw [Memory.read_writeBytes]
  by_cases ha : a < B.length
  · simp [ha]
  · have h1 := (h.2 a).not.mpr (by omega)
    simp only [Bool.not_eq_true] at h1
    simp [ha, h1]

theorem Memory.holds_ofBytes (B : List Byte) : (Memory.ofBytes B).holds B.length :=
  Memory.holds_writeBytes Memory.holds_nil (Nat.zero_le _)

end Sys2Proof.Machine
end

