-- ==== Sys2Proof/Laws/State.lean ====
section
/-! SUPPORT. The small lemmas of the state: one per field and update of Machine/Ops.lean, so that no later proof unfolds a record update; and the same for the composed updates `raise`, `storeReply`, `loadFrame`, `consumeReply`. -/

namespace Sys2Proof.Machine

section
variable (v : Option Word) (s : State)
@[simp] theorem State.setCrc_crc : (s.setCrc v).crc = v := rfl
@[simp] theorem State.setCrc_tx : (s.setCrc v).tx = s.tx := rfl
@[simp] theorem State.setCrc_rx : (s.setCrc v).rx = s.rx := rfl
@[simp] theorem State.setCrc_pre : (s.setCrc v).pre = s.pre := rfl
@[simp] theorem State.setCrc_ident : (s.setCrc v).ident = s.ident := rfl
@[simp] theorem State.setCrc_matched : (s.setCrc v).matched = s.matched := rfl
@[simp] theorem State.setCrc_err : (s.setCrc v).err = s.err := rfl
@[simp] theorem State.setCrc_session : (s.setCrc v).session = s.session := rfl
@[simp] theorem State.setCrc_chunkIdx : (s.setCrc v).chunkIdx = s.chunkIdx := rfl
@[simp] theorem State.setCrc_deadline : (s.setCrc v).deadline = s.deadline := rfl
@[simp] theorem State.setCrc_cfg : (s.setCrc v).cfg = s.cfg := rfl
@[simp] theorem State.setCrc_input : (s.setCrc v).input = s.input := rfl
@[simp] theorem State.setCrc_link : (s.setCrc v).link = s.link := rfl
@[simp] theorem State.setCrc_out : (s.setCrc v).out = s.out := rfl
end

section
variable (v : TxUnit) (s : State)
@[simp] theorem State.setTx_crc : (s.setTx v).crc = s.crc := rfl
@[simp] theorem State.setTx_tx : (s.setTx v).tx = v := rfl
@[simp] theorem State.setTx_rx : (s.setTx v).rx = s.rx := rfl
@[simp] theorem State.setTx_pre : (s.setTx v).pre = s.pre := rfl
@[simp] theorem State.setTx_ident : (s.setTx v).ident = s.ident := rfl
@[simp] theorem State.setTx_matched : (s.setTx v).matched = s.matched := rfl
@[simp] theorem State.setTx_err : (s.setTx v).err = s.err := rfl
@[simp] theorem State.setTx_session : (s.setTx v).session = s.session := rfl
@[simp] theorem State.setTx_chunkIdx : (s.setTx v).chunkIdx = s.chunkIdx := rfl
@[simp] theorem State.setTx_deadline : (s.setTx v).deadline = s.deadline := rfl
@[simp] theorem State.setTx_cfg : (s.setTx v).cfg = s.cfg := rfl
@[simp] theorem State.setTx_input : (s.setTx v).input = s.input := rfl
@[simp] theorem State.setTx_link : (s.setTx v).link = s.link := rfl
@[simp] theorem State.setTx_out : (s.setTx v).out = s.out := rfl
end

section
variable (v : RxUnit) (s : State)
@[simp] theorem State.setRx_crc : (s.setRx v).crc = s.crc := rfl
@[simp] theorem State.setRx_tx : (s.setRx v).tx = s.tx := rfl
@[simp] theorem State.setRx_rx : (s.setRx v).rx = v := rfl
@[simp] theorem State.setRx_pre : (s.setRx v).pre = s.pre := rfl
@[simp] theorem State.setRx_ident : (s.setRx v).ident = s.ident := rfl
@[simp] theorem State.setRx_matched : (s.setRx v).matched = s.matched := rfl
@[simp] theorem State.setRx_err : (s.setRx v).err = s.err := rfl
@[simp] theorem State.setRx_session : (s.setRx v).session = s.session := rfl
@[simp] theorem State.setRx_chunkIdx : (s.setRx v).chunkIdx = s.chunkIdx := rfl
@[simp] theorem State.setRx_deadline : (s.setRx v).deadline = s.deadline := rfl
@[simp] theorem State.setRx_cfg : (s.setRx v).cfg = s.cfg := rfl
@[simp] theorem State.setRx_input : (s.setRx v).input = s.input := rfl
@[simp] theorem State.setRx_link : (s.setRx v).link = s.link := rfl
@[simp] theorem State.setRx_out : (s.setRx v).out = s.out := rfl
end

section
variable (v : PreIdentity) (s : State)
@[simp] theorem State.setPre_crc : (s.setPre v).crc = s.crc := rfl
@[simp] theorem State.setPre_tx : (s.setPre v).tx = s.tx := rfl
@[simp] theorem State.setPre_rx : (s.setPre v).rx = s.rx := rfl
@[simp] theorem State.setPre_pre : (s.setPre v).pre = v := rfl
@[simp] theorem State.setPre_ident : (s.setPre v).ident = s.ident := rfl
@[simp] theorem State.setPre_matched : (s.setPre v).matched = s.matched := rfl
@[simp] theorem State.setPre_err : (s.setPre v).err = s.err := rfl
@[simp] theorem State.setPre_session : (s.setPre v).session = s.session := rfl
@[simp] theorem State.setPre_chunkIdx : (s.setPre v).chunkIdx = s.chunkIdx := rfl
@[simp] theorem State.setPre_deadline : (s.setPre v).deadline = s.deadline := rfl
@[simp] theorem State.setPre_cfg : (s.setPre v).cfg = s.cfg := rfl
@[simp] theorem State.setPre_input : (s.setPre v).input = s.input := rfl
@[simp] theorem State.setPre_link : (s.setPre v).link = s.link := rfl
@[simp] theorem State.setPre_out : (s.setPre v).out = s.out := rfl
end

section
variable (v : Identity) (s : State)
@[simp] theorem State.setIdent_crc : (s.setIdent v).crc = s.crc := rfl
@[simp] theorem State.setIdent_tx : (s.setIdent v).tx = s.tx := rfl
@[simp] theorem State.setIdent_rx : (s.setIdent v).rx = s.rx := rfl
@[simp] theorem State.setIdent_pre : (s.setIdent v).pre = s.pre := rfl
@[simp] theorem State.setIdent_ident : (s.setIdent v).ident = v := rfl
@[simp] theorem State.setIdent_matched : (s.setIdent v).matched = s.matched := rfl
@[simp] theorem State.setIdent_err : (s.setIdent v).err = s.err := rfl
@[simp] theorem State.setIdent_session : (s.setIdent v).session = s.session := rfl
@[simp] theorem State.setIdent_chunkIdx : (s.setIdent v).chunkIdx = s.chunkIdx := rfl
@[simp] theorem State.setIdent_deadline : (s.setIdent v).deadline = s.deadline := rfl
@[simp] theorem State.setIdent_cfg : (s.setIdent v).cfg = s.cfg := rfl
@[simp] theorem State.setIdent_input : (s.setIdent v).input = s.input := rfl
@[simp] theorem State.setIdent_link : (s.setIdent v).link = s.link := rfl
@[simp] theorem State.setIdent_out : (s.setIdent v).out = s.out := rfl
end

section
variable (v : Bool) (s : State)
@[simp] theorem State.setMatched_crc : (s.setMatched v).crc = s.crc := rfl
@[simp] theorem State.setMatched_tx : (s.setMatched v).tx = s.tx := rfl
@[simp] theorem State.setMatched_rx : (s.setMatched v).rx = s.rx := rfl
@[simp] theorem State.setMatched_pre : (s.setMatched v).pre = s.pre := rfl
@[simp] theorem State.setMatched_ident : (s.setMatched v).ident = s.ident := rfl
@[simp] theorem State.setMatched_matched : (s.setMatched v).matched = v := rfl
@[simp] theorem State.setMatched_err : (s.setMatched v).err = s.err := rfl
@[simp] theorem State.setMatched_session : (s.setMatched v).session = s.session := rfl
@[simp] theorem State.setMatched_chunkIdx : (s.setMatched v).chunkIdx = s.chunkIdx := rfl
@[simp] theorem State.setMatched_deadline : (s.setMatched v).deadline = s.deadline := rfl
@[simp] theorem State.setMatched_cfg : (s.setMatched v).cfg = s.cfg := rfl
@[simp] theorem State.setMatched_input : (s.setMatched v).input = s.input := rfl
@[simp] theorem State.setMatched_link : (s.setMatched v).link = s.link := rfl
@[simp] theorem State.setMatched_out : (s.setMatched v).out = s.out := rfl
end

section
variable (v : ErrRecord) (s : State)
@[simp] theorem State.setErr_crc : (s.setErr v).crc = s.crc := rfl
@[simp] theorem State.setErr_tx : (s.setErr v).tx = s.tx := rfl
@[simp] theorem State.setErr_rx : (s.setErr v).rx = s.rx := rfl
@[simp] theorem State.setErr_pre : (s.setErr v).pre = s.pre := rfl
@[simp] theorem State.setErr_ident : (s.setErr v).ident = s.ident := rfl
@[simp] theorem State.setErr_matched : (s.setErr v).matched = s.matched := rfl
@[simp] theorem State.setErr_err : (s.setErr v).err = v := rfl
@[simp] theorem State.setErr_session : (s.setErr v).session = s.session := rfl
@[simp] theorem State.setErr_chunkIdx : (s.setErr v).chunkIdx = s.chunkIdx := rfl
@[simp] theorem State.setErr_deadline : (s.setErr v).deadline = s.deadline := rfl
@[simp] theorem State.setErr_cfg : (s.setErr v).cfg = s.cfg := rfl
@[simp] theorem State.setErr_input : (s.setErr v).input = s.input := rfl
@[simp] theorem State.setErr_link : (s.setErr v).link = s.link := rfl
@[simp] theorem State.setErr_out : (s.setErr v).out = s.out := rfl
end

section
variable (v : Session) (s : State)
@[simp] theorem State.setSession_crc : (s.setSession v).crc = s.crc := rfl
@[simp] theorem State.setSession_tx : (s.setSession v).tx = s.tx := rfl
@[simp] theorem State.setSession_rx : (s.setSession v).rx = s.rx := rfl
@[simp] theorem State.setSession_pre : (s.setSession v).pre = s.pre := rfl
@[simp] theorem State.setSession_ident : (s.setSession v).ident = s.ident := rfl
@[simp] theorem State.setSession_matched : (s.setSession v).matched = s.matched := rfl
@[simp] theorem State.setSession_err : (s.setSession v).err = s.err := rfl
@[simp] theorem State.setSession_session : (s.setSession v).session = v := rfl
@[simp] theorem State.setSession_chunkIdx : (s.setSession v).chunkIdx = s.chunkIdx := rfl
@[simp] theorem State.setSession_deadline : (s.setSession v).deadline = s.deadline := rfl
@[simp] theorem State.setSession_cfg : (s.setSession v).cfg = s.cfg := rfl
@[simp] theorem State.setSession_input : (s.setSession v).input = s.input := rfl
@[simp] theorem State.setSession_link : (s.setSession v).link = s.link := rfl
@[simp] theorem State.setSession_out : (s.setSession v).out = s.out := rfl
end

section
variable (v : Nat) (s : State)
@[simp] theorem State.setChunkIdx_crc : (s.setChunkIdx v).crc = s.crc := rfl
@[simp] theorem State.setChunkIdx_tx : (s.setChunkIdx v).tx = s.tx := rfl
@[simp] theorem State.setChunkIdx_rx : (s.setChunkIdx v).rx = s.rx := rfl
@[simp] theorem State.setChunkIdx_pre : (s.setChunkIdx v).pre = s.pre := rfl
@[simp] theorem State.setChunkIdx_ident : (s.setChunkIdx v).ident = s.ident := rfl
@[simp] theorem State.setChunkIdx_matched : (s.setChunkIdx v).matched = s.matched := rfl
@[simp] theorem State.setChunkIdx_err : (s.setChunkIdx v).err = s.err := rfl
@[simp] theorem State.setChunkIdx_session : (s.setChunkIdx v).session = s.session := rfl
@[simp] theorem State.setChunkIdx_chunkIdx : (s.setChunkIdx v).chunkIdx = v := rfl
@[simp] theorem State.setChunkIdx_deadline : (s.setChunkIdx v).deadline = s.deadline := rfl
@[simp] theorem State.setChunkIdx_cfg : (s.setChunkIdx v).cfg = s.cfg := rfl
@[simp] theorem State.setChunkIdx_input : (s.setChunkIdx v).input = s.input := rfl
@[simp] theorem State.setChunkIdx_link : (s.setChunkIdx v).link = s.link := rfl
@[simp] theorem State.setChunkIdx_out : (s.setChunkIdx v).out = s.out := rfl
end

section
variable (v : Nat) (s : State)
@[simp] theorem State.setDeadline_crc : (s.setDeadline v).crc = s.crc := rfl
@[simp] theorem State.setDeadline_tx : (s.setDeadline v).tx = s.tx := rfl
@[simp] theorem State.setDeadline_rx : (s.setDeadline v).rx = s.rx := rfl
@[simp] theorem State.setDeadline_pre : (s.setDeadline v).pre = s.pre := rfl
@[simp] theorem State.setDeadline_ident : (s.setDeadline v).ident = s.ident := rfl
@[simp] theorem State.setDeadline_matched : (s.setDeadline v).matched = s.matched := rfl
@[simp] theorem State.setDeadline_err : (s.setDeadline v).err = s.err := rfl
@[simp] theorem State.setDeadline_session : (s.setDeadline v).session = s.session := rfl
@[simp] theorem State.setDeadline_chunkIdx : (s.setDeadline v).chunkIdx = s.chunkIdx := rfl
@[simp] theorem State.setDeadline_deadline : (s.setDeadline v).deadline = v := rfl
@[simp] theorem State.setDeadline_cfg : (s.setDeadline v).cfg = s.cfg := rfl
@[simp] theorem State.setDeadline_input : (s.setDeadline v).input = s.input := rfl
@[simp] theorem State.setDeadline_link : (s.setDeadline v).link = s.link := rfl
@[simp] theorem State.setDeadline_out : (s.setDeadline v).out = s.out := rfl
end

section
variable (v : List Input) (s : State)
@[simp] theorem State.setInput_crc : (s.setInput v).crc = s.crc := rfl
@[simp] theorem State.setInput_tx : (s.setInput v).tx = s.tx := rfl
@[simp] theorem State.setInput_rx : (s.setInput v).rx = s.rx := rfl
@[simp] theorem State.setInput_pre : (s.setInput v).pre = s.pre := rfl
@[simp] theorem State.setInput_ident : (s.setInput v).ident = s.ident := rfl
@[simp] theorem State.setInput_matched : (s.setInput v).matched = s.matched := rfl
@[simp] theorem State.setInput_err : (s.setInput v).err = s.err := rfl
@[simp] theorem State.setInput_session : (s.setInput v).session = s.session := rfl
@[simp] theorem State.setInput_chunkIdx : (s.setInput v).chunkIdx = s.chunkIdx := rfl
@[simp] theorem State.setInput_deadline : (s.setInput v).deadline = s.deadline := rfl
@[simp] theorem State.setInput_cfg : (s.setInput v).cfg = s.cfg := rfl
@[simp] theorem State.setInput_input : (s.setInput v).input = v := rfl
@[simp] theorem State.setInput_link : (s.setInput v).link = s.link := rfl
@[simp] theorem State.setInput_out : (s.setInput v).out = s.out := rfl
end

section
variable (v : Link) (s : State)
@[simp] theorem State.setLink_crc : (s.setLink v).crc = s.crc := rfl
@[simp] theorem State.setLink_tx : (s.setLink v).tx = s.tx := rfl
@[simp] theorem State.setLink_rx : (s.setLink v).rx = s.rx := rfl
@[simp] theorem State.setLink_pre : (s.setLink v).pre = s.pre := rfl
@[simp] theorem State.setLink_ident : (s.setLink v).ident = s.ident := rfl
@[simp] theorem State.setLink_matched : (s.setLink v).matched = s.matched := rfl
@[simp] theorem State.setLink_err : (s.setLink v).err = s.err := rfl
@[simp] theorem State.setLink_session : (s.setLink v).session = s.session := rfl
@[simp] theorem State.setLink_chunkIdx : (s.setLink v).chunkIdx = s.chunkIdx := rfl
@[simp] theorem State.setLink_deadline : (s.setLink v).deadline = s.deadline := rfl
@[simp] theorem State.setLink_cfg : (s.setLink v).cfg = s.cfg := rfl
@[simp] theorem State.setLink_input : (s.setLink v).input = s.input := rfl
@[simp] theorem State.setLink_link : (s.setLink v).link = v := rfl
@[simp] theorem State.setLink_out : (s.setLink v).out = s.out := rfl
end

section
variable (v : Output) (s : State)
@[simp] theorem State.setOut_crc : (s.setOut v).crc = s.crc := rfl
@[simp] theorem State.setOut_tx : (s.setOut v).tx = s.tx := rfl
@[simp] theorem State.setOut_rx : (s.setOut v).rx = s.rx := rfl
@[simp] theorem State.setOut_pre : (s.setOut v).pre = s.pre := rfl
@[simp] theorem State.setOut_ident : (s.setOut v).ident = s.ident := rfl
@[simp] theorem State.setOut_matched : (s.setOut v).matched = s.matched := rfl
@[simp] theorem State.setOut_err : (s.setOut v).err = s.err := rfl
@[simp] theorem State.setOut_session : (s.setOut v).session = s.session := rfl
@[simp] theorem State.setOut_chunkIdx : (s.setOut v).chunkIdx = s.chunkIdx := rfl
@[simp] theorem State.setOut_deadline : (s.setOut v).deadline = s.deadline := rfl
@[simp] theorem State.setOut_cfg : (s.setOut v).cfg = s.cfg := rfl
@[simp] theorem State.setOut_input : (s.setOut v).input = s.input := rfl
@[simp] theorem State.setOut_link : (s.setOut v).link = s.link := rfl
@[simp] theorem State.setOut_out : (s.setOut v).out = v := rfl
end

section
variable (k : ErrKind) (ph : ErrPhase) (bytes : Option (List Byte)) (chunk : Option Nat) (s : State)
@[simp] theorem State.raise_crc : (s.raise k ph bytes chunk).crc = s.crc := rfl
@[simp] theorem State.raise_tx : (s.raise k ph bytes chunk).tx = s.tx := rfl
@[simp] theorem State.raise_rx : (s.raise k ph bytes chunk).rx = s.rx := rfl
@[simp] theorem State.raise_pre : (s.raise k ph bytes chunk).pre = s.pre := rfl
@[simp] theorem State.raise_ident : (s.raise k ph bytes chunk).ident = s.ident := rfl
@[simp] theorem State.raise_matched : (s.raise k ph bytes chunk).matched = s.matched := rfl
@[simp] theorem State.raise_err : (s.raise k ph bytes chunk).err = s.err.raised k ph bytes chunk := rfl
@[simp] theorem State.raise_session : (s.raise k ph bytes chunk).session = .failed := rfl
@[simp] theorem State.raise_chunkIdx : (s.raise k ph bytes chunk).chunkIdx = s.chunkIdx := rfl
@[simp] theorem State.raise_deadline : (s.raise k ph bytes chunk).deadline = s.deadline := rfl
@[simp] theorem State.raise_cfg : (s.raise k ph bytes chunk).cfg = s.cfg := rfl
@[simp] theorem State.raise_input : (s.raise k ph bytes chunk).input = s.input := rfl
@[simp] theorem State.raise_link : (s.raise k ph bytes chunk).link = s.link := rfl
@[simp] theorem State.raise_out : (s.raise k ph bytes chunk).out = s.out := rfl
end

section
variable (B : List Byte) (s : State)
@[simp] theorem State.storeReply_crc : (s.storeReply B).crc = s.crc := rfl
@[simp] theorem State.storeReply_tx : (s.storeReply B).tx = s.tx := rfl
@[simp] theorem State.storeReply_rx : (s.storeReply B).rx = { buf := Memory.ofBytes B, len := lengthReg 13 B.length, fresh := true } := rfl
@[simp] theorem State.storeReply_pre : (s.storeReply B).pre = s.pre := rfl
@[simp] theorem State.storeReply_ident : (s.storeReply B).ident = s.ident := rfl
@[simp] theorem State.storeReply_matched : (s.storeReply B).matched = s.matched := rfl
@[simp] theorem State.storeReply_err : (s.storeReply B).err = s.err := rfl
@[simp] theorem State.storeReply_session : (s.storeReply B).session = s.session := rfl
@[simp] theorem State.storeReply_chunkIdx : (s.storeReply B).chunkIdx = s.chunkIdx := rfl
@[simp] theorem State.storeReply_deadline : (s.storeReply B).deadline = s.deadline := rfl
@[simp] theorem State.storeReply_cfg : (s.storeReply B).cfg = s.cfg := rfl
@[simp] theorem State.storeReply_input : (s.storeReply B).input = s.input := rfl
@[simp] theorem State.storeReply_link : (s.storeReply B).link = s.link := rfl
@[simp] theorem State.storeReply_out : (s.storeReply B).out = s.out := rfl
end

section
variable (F : List Byte) (s : State)
@[simp] theorem State.loadFrame_crc : (s.loadFrame F).crc = s.crc := rfl
@[simp] theorem State.loadFrame_tx : (s.loadFrame F).tx = { buf := s.tx.buf.writeBytes 0 F, len := lengthReg 8 F.length } := rfl
@[simp] theorem State.loadFrame_rx : (s.loadFrame F).rx = s.rx := rfl
@[simp] theorem State.loadFrame_pre : (s.loadFrame F).pre = s.pre := rfl
@[simp] theorem State.loadFrame_ident : (s.loadFrame F).ident = s.ident := rfl
@[simp] theorem State.loadFrame_matched : (s.loadFrame F).matched = s.matched := rfl
@[simp] theorem State.loadFrame_err : (s.loadFrame F).err = s.err := rfl
@[simp] theorem State.loadFrame_session : (s.loadFrame F).session = s.session := rfl
@[simp] theorem State.loadFrame_chunkIdx : (s.loadFrame F).chunkIdx = s.chunkIdx := rfl
@[simp] theorem State.loadFrame_deadline : (s.loadFrame F).deadline = s.deadline := rfl
@[simp] theorem State.loadFrame_cfg : (s.loadFrame F).cfg = s.cfg := rfl
@[simp] theorem State.loadFrame_input : (s.loadFrame F).input = s.input := rfl
@[simp] theorem State.loadFrame_link : (s.loadFrame F).link = s.link := rfl
@[simp] theorem State.loadFrame_out : (s.loadFrame F).out = s.out := rfl
end

section
variable (s : State)
@[simp] theorem State.consumeReply_crc : s.consumeReply.crc = s.crc := rfl
@[simp] theorem State.consumeReply_tx : s.consumeReply.tx = s.tx := rfl
@[simp] theorem State.consumeReply_rx : s.consumeReply.rx = { s.rx with fresh := false } := rfl
@[simp] theorem State.consumeReply_pre : s.consumeReply.pre = s.pre := rfl
@[simp] theorem State.consumeReply_ident : s.consumeReply.ident = s.ident := rfl
@[simp] theorem State.consumeReply_matched : s.consumeReply.matched = s.matched := rfl
@[simp] theorem State.consumeReply_err : s.consumeReply.err = s.err := rfl
@[simp] theorem State.consumeReply_session : s.consumeReply.session = s.session := rfl
@[simp] theorem State.consumeReply_chunkIdx : s.consumeReply.chunkIdx = s.chunkIdx := rfl
@[simp] theorem State.consumeReply_deadline : s.consumeReply.deadline = s.deadline := rfl
@[simp] theorem State.consumeReply_cfg : s.consumeReply.cfg = s.cfg := rfl
@[simp] theorem State.consumeReply_input : s.consumeReply.input = s.input := rfl
@[simp] theorem State.consumeReply_link : s.consumeReply.link = s.link := rfl
@[simp] theorem State.consumeReply_out : s.consumeReply.out = s.out := rfl
end

@[simp] theorem ErrRecord.raised_kind (k : ErrKind) (ph : ErrPhase) (b : Option (List Byte)) (c : Option Nat)
    (e : ErrRecord) : (e.raised k ph b c).kind = k := rfl
@[simp] theorem ErrRecord.raised_phase (k : ErrKind) (ph : ErrPhase) (b : Option (List Byte)) (c : Option Nat)
    (e : ErrRecord) : (e.raised k ph b c).phase = ph := rfl

end Sys2Proof.Machine
end

