-- ==== Sys2Proof/Laws/Ops.lean ====
section
/-! SUPPORT. One lemma per shared operation that says everything it can do; later proofs cite these and do not unfold the operations. -/

namespace Sys2Proof.Machine

/-! ## Refusal or run -/

/-- In a live state the common check lets the operation run. -/
theorem admitted_of_live {s : State} (h : s.live = true) (k : Result) : admitted s k = k := by
  simp only [State.live, decide_eq_true_eq] at h
  simp [admitted, h]

/-- Two equal next states, read without looking into either. -/
theorem next_eq {x t : State} (h : (.next x : Result) = .next t) : t = x := by
  injection h with h
  exact h.symm

/-- The common check passes only in a live state. -/
theorem admitted_next {s t : State} {k : Result} (h : admitted s k = .next t) :
    s.live = true ∧ k = .next t := by
  unfold admitted at h
  split at h
  · cases h
  · split at h
    · cases h
    · refine ⟨?_, h⟩
      simp only [State.live, decide_eq_true_eq]
      simp_all

theorem admitted_fault {s : State} {k : Result} {f : Fault} (h : admitted s k = .fault f) :
    k = .fault f := by
  unfold admitted at h
  split at h
  · cases h
  · split at h
    · cases h
    · exact h

/-- After a fault every operation is refused (60_exceptions.md R229). -/
theorem admitted_of_faulted {s : State} (h : s.err.kind ≠ .none) (k : Result) :
    admitted s k = .refused .sessionFailed := by
  simp [admitted, h]

theorem inSession_next {x : Session} {s t : State} {k : Result}
    (h : inSession x s k = .next t) : s.live = true ∧ s.session = x ∧ k = .next t := by
  obtain ⟨hl, hk⟩ := admitted_next h
  split at hk
  · exact ⟨hl, ‹_›, hk⟩
  · cases hk

theorem inSession_fault {x : Session} {s : State} {k : Result} {f : Fault}
    (h : inSession x s k = .fault f) : k = .fault f := by
  have hk := admitted_fault h
  split at hk
  · exact hk
  · cases hk

/-- The received bytes are what the buffer read gives. -/
theorem reply_of_readBytes {s : State} {B : List Byte}
    (h : s.rx.buf.readBytes 0 s.rx.len.val = some B) : s.reply = B := by
  simp [State.reply, h]

theorem frame_of_readBytes {s : State} {F : List Byte}
    (h : s.tx.buf.readBytes 0 s.tx.len.val = some F) : s.frame = F := by
  simp [State.frame, h]

theorem memRead_rxbuf {s : State} {B : List Byte}
    (h : s.rx.buf.readBytes 0 s.rx.len.val = some B) :
    s.memRead .rxbuf 0 s.rx.len.val = .ok B := by
  simp [State.memRead, State.lengthOf, State.bufferOf, h]

theorem memRead_txbuf {s : State} {F : List Byte}
    (h : s.tx.buf.readBytes 0 s.tx.len.val = some F) :
    s.memRead .txbuf 0 s.tx.len.val = .ok F := by
  simp [State.memRead, State.lengthOf, State.bufferOf, h]

/-- A decode operation on a fresh reply of a live session. -/
theorem withReply_of_fresh {s : State} {B : List Byte} (hl : s.live = true) (hf : s.rx.fresh = true)
    (hB : s.rx.buf.readBytes 0 s.rx.len.val = some B) (k : List Byte → Result) :
    withReply s k = k B := by
  simp [withReply, admitted_of_live hl, hf, memRead_rxbuf hB]

/-- A decode operation answers only on a fresh reply of a live session. -/
theorem withReply_next {s t : State} {k : List Byte → Result} (h : withReply s k = .next t) :
    s.live = true ∧ s.rx.fresh = true ∧
      ∃ B, s.rx.buf.readBytes 0 s.rx.len.val = some B ∧ k B = .next t := by
  obtain ⟨hl, hk⟩ := admitted_next h
  split at hk
  · rename_i hf
    refine ⟨hl, hf, ?_⟩
    split at hk
    · rename_i B hB
      refine ⟨B, ?_, hk⟩
      cases hr : s.rx.buf.readBytes 0 s.rx.len.val with
      | none => simp [State.memRead, State.lengthOf, State.bufferOf, hr] at hB
      | some B' => simpa [State.memRead, State.lengthOf, State.bufferOf, hr] using hB
    · cases hk
  · cases hk

/-! ## Taking a fault -/

/-- `raise` gives exactly this state (60_exceptions.md R226). -/
theorem raise_eq (k : ErrKind) (ph : ErrPhase) (b : Option (List Byte)) (c : Option Nat) (s : State) :
    s.raise k ph b c = { s with err := s.err.raised k ph b c, session := .failed } := rfl

@[simp] theorem andThen_of_none {s : State} (h : s.err.kind = .none) (f : State → State) :
    s.andThen f = f s := by
  simp [State.andThen, h]

@[simp] theorem andThen_of_faulted {s : State} (h : s.err.kind ≠ .none) (f : State → State) :
    s.andThen f = s := by
  simp [State.andThen, h]

/-- What a sub-step keeps in both branches holds after it. -/
theorem andThen_induction {P : State → Prop} {s : State} {f : State → State} (hs : P s)
    (hf : s.err.kind = .none → P (f s)) : P (s.andThen f) := by
  by_cases h : s.err.kind = .none
  · simpa [h] using hf h
  · simpa [h] using hs

/-! ## The link -/

/-- Everything a write can do: the message is logged, or the fault is taken. -/
theorem writeAll_cases (ph : ErrPhase) (B : List Byte) (s : State) :
    (s.link.nextWrite = .ok ∧
      s.writeAll ph B = s.setLink (s.link.tookWrite (.wrote B))) ∨
    (∃ k, s.link.nextWrite = .ioError k ∧
      s.writeAll ph B =
        (s.setLink (s.link.tookWrite (.writeFailed (B.take k)))).raise .transportFailure ph none none) := by
  unfold State.writeAll
  cases h : s.link.nextWrite with
  | ok => exact .inl ⟨rfl, rfl⟩
  | ioError k => exact .inr ⟨k, rfl, rfl⟩

/-- Everything a read can do: a reply of at most `n` bytes is stored, or the fault is taken. -/
theorem receive_cases (ph : ErrPhase) (n : Nat) (s : State) :
    (∃ r, s.link.nextRead = .bytes r ∧
      s.receive ph n =
        (s.setLink (s.link.tookRead (.readGave (r.take n)))).storeReply (r.take n)) ∨
    (s.link.nextRead = .ioError ∧
      s.receive ph n =
        (s.setLink (s.link.tookRead .readFailed)).raise .transportFailure ph none none) := by
  unfold State.receive
  cases h : s.link.nextRead with
  | bytes r => exact .inl ⟨r, rfl, rfl⟩
  | ioError => exact .inr ⟨rfl, rfl⟩

@[simp] theorem nextRead_cons (d : ReadDraw) (ds : List ReadDraw) (ws : List WriteDraw) (k : Nat)
    (log : List LinkEvent) : Link.nextRead ⟨d :: ds, ws, k, log⟩ = d := rfl

@[simp] theorem nextWrite_cons (rs : List ReadDraw) (d : WriteDraw) (ds : List WriteDraw) (k : Nat)
    (log : List LinkEvent) : Link.nextWrite ⟨rs, d :: ds, k, log⟩ = d := rfl

@[simp] theorem lengthReg_val (cap k : Nat) : (lengthReg cap k).val = min k cap := rfl

/-- The reply just stored is what the next decode reads. -/
@[simp] theorem reply_storeReply {B : List Byte} (h : B.length ≤ 13) (s : State) :
    (s.storeReply B).reply = B := by
  simp [State.reply, Nat.min_eq_left h]

/-- The frame just loaded is what the next `SEND` writes. -/
@[simp] theorem frame_loadFrame {F : List Byte} (h : F.length ≤ 8) (s : State) :
    (s.loadFrame F).frame = F := by
  simp [State.frame, Nat.min_eq_left h, Memory.readBytes_writeBytes]

/-- A reply is never longer than `RXBUF`. -/
theorem length_reply_le (s : State) : s.reply.length ≤ 13 := by
  unfold State.reply
  cases h : s.rx.buf.readBytes 0 s.rx.len.val with
  | none => simp
  | some B =>
    have h1 := Memory.length_readBytes h
    have h2 := s.rx.len.isLt
    simp only [Option.getD_some, h1]
    omega

/-! ## The buffers after a fault -/

/-- A fault that carries bytes leaves exactly those bytes in `ERR_BYTES` (60_exceptions.md R226). -/
theorem raised_holds_bytes {e : ErrRecord} {B : List Byte} (k : ErrKind) (ph : ErrPhase)
    (c : Option Nat) (he : e.bytes.holds e.blen.val) (h0 : e.blen.val = 0) (hB : B.length ≤ 13) :
    (e.raised k ph (some B) c).bytes.holds (e.raised k ph (some B) c).blen.val := by
  simp only [ErrRecord.raised, lengthReg_val, Nat.min_eq_left hB]
  exact Memory.holds_writeBytes he (by omega)

/-- A fault without bytes leaves `ERR_BYTES` empty where it was empty. -/
theorem raised_holds_none {e : ErrRecord} (k : ErrKind) (ph : ErrPhase) (c : Option Nat)
    (he : e.bytes.holds e.blen.val) (h0 : e.blen.val = 0) :
    (e.raised k ph none c).bytes.holds (e.raised k ph none c).blen.val := by
  rw [h0] at he
  exact he

end Sys2Proof.Machine
end

