-- ==== Sys2Proof/Laws/Meanings.lean ====
section
/-! SUPPORT. What each body and each meaning can do: the cases of the decode bodies, the fields the link calls leave alone, and for each meaning the one inversion lemma "if it answers a next state, then ...". -/

namespace Sys2Proof.Machine

/-! ## The link calls and the decode bodies leave these fields alone -/

section
variable (ph : ErrPhase) (B : List Byte) (s : State)
@[simp] theorem State.writeAll_crc : (s.writeAll ph B).crc = s.crc := by
  unfold State.writeAll; split <;> rfl
@[simp] theorem State.writeAll_tx : (s.writeAll ph B).tx = s.tx := by
  unfold State.writeAll; split <;> rfl
@[simp] theorem State.writeAll_rx : (s.writeAll ph B).rx = s.rx := by
  unfold State.writeAll; split <;> rfl
@[simp] theorem State.writeAll_pre : (s.writeAll ph B).pre = s.pre := by
  unfold State.writeAll; split <;> rfl
@[simp] theorem State.writeAll_ident : (s.writeAll ph B).ident = s.ident := by
  unfold State.writeAll; split <;> rfl
@[simp] theorem State.writeAll_matched : (s.writeAll ph B).matched = s.matched := by
  unfold State.writeAll; split <;> rfl
@[simp] theorem State.writeAll_chunkIdx : (s.writeAll ph B).chunkIdx = s.chunkIdx := by
  unfold State.writeAll; split <;> rfl
@[simp] theorem State.writeAll_deadline : (s.writeAll ph B).deadline = s.deadline := by
  unfold State.writeAll; split <;> rfl
@[simp] theorem State.writeAll_cfg : (s.writeAll ph B).cfg = s.cfg := by
  unfold State.writeAll; split <;> rfl
@[simp] theorem State.writeAll_input : (s.writeAll ph B).input = s.input := by
  unfold State.writeAll; split <;> rfl
@[simp] theorem State.writeAll_out : (s.writeAll ph B).out = s.out := by
  unfold State.writeAll; split <;> rfl
end

section
variable (ph : ErrPhase) (n : Nat) (s : State)
@[simp] theorem State.receive_crc : (s.receive ph n).crc = s.crc := by
  unfold State.receive; split <;> rfl
@[simp] theorem State.receive_tx : (s.receive ph n).tx = s.tx := by
  unfold State.receive; split <;> rfl
@[simp] theorem State.receive_pre : (s.receive ph n).pre = s.pre := by
  unfold State.receive; split <;> rfl
@[simp] theorem State.receive_ident : (s.receive ph n).ident = s.ident := by
  unfold State.receive; split <;> rfl
@[simp] theorem State.receive_matched : (s.receive ph n).matched = s.matched := by
  unfold State.receive; split <;> rfl
@[simp] theorem State.receive_chunkIdx : (s.receive ph n).chunkIdx = s.chunkIdx := by
  unfold State.receive; split <;> rfl
@[simp] theorem State.receive_deadline : (s.receive ph n).deadline = s.deadline := by
  unfold State.receive; split <;> rfl
@[simp] theorem State.receive_cfg : (s.receive ph n).cfg = s.cfg := by
  unfold State.receive; split <;> rfl
@[simp] theorem State.receive_input : (s.receive ph n).input = s.input := by
  unfold State.receive; split <;> rfl
@[simp] theorem State.receive_out : (s.receive ph n).out = s.out := by
  unfold State.receive; split <;> rfl
end

section
variable (B : List Byte) (s : State)
@[simp] theorem State.decodeRhr4_crc : (s.decodeRhr4 B).crc = s.crc := by
  unfold State.decodeRhr4; split_ifs <;> rfl
@[simp] theorem State.decodeRhr4_tx : (s.decodeRhr4 B).tx = s.tx := by
  unfold State.decodeRhr4; split_ifs <;> rfl
@[simp] theorem State.decodeRhr4_ident : (s.decodeRhr4 B).ident = s.ident := by
  unfold State.decodeRhr4; split_ifs <;> rfl
@[simp] theorem State.decodeRhr4_matched : (s.decodeRhr4 B).matched = s.matched := by
  unfold State.decodeRhr4; split_ifs <;> rfl
@[simp] theorem State.decodeRhr4_chunkIdx : (s.decodeRhr4 B).chunkIdx = s.chunkIdx := by
  unfold State.decodeRhr4; split_ifs <;> rfl
@[simp] theorem State.decodeRhr4_deadline : (s.decodeRhr4 B).deadline = s.deadline := by
  unfold State.decodeRhr4; split_ifs <;> rfl
@[simp] theorem State.decodeRhr4_cfg : (s.decodeRhr4 B).cfg = s.cfg := by
  unfold State.decodeRhr4; split_ifs <;> rfl
@[simp] theorem State.decodeRhr4_input : (s.decodeRhr4 B).input = s.input := by
  unfold State.decodeRhr4; split_ifs <;> rfl
@[simp] theorem State.decodeRhr4_link : (s.decodeRhr4 B).link = s.link := by
  unfold State.decodeRhr4; split_ifs <;> rfl
end

section
variable (B : List Byte) (s : State)
@[simp] theorem State.decodeAck_crc : (s.decodeAck B).crc = s.crc := by
  unfold State.decodeAck; split_ifs <;> rfl
@[simp] theorem State.decodeAck_tx : (s.decodeAck B).tx = s.tx := by
  unfold State.decodeAck; split_ifs <;> rfl
@[simp] theorem State.decodeAck_pre : (s.decodeAck B).pre = s.pre := by
  unfold State.decodeAck; split_ifs <;> rfl
@[simp] theorem State.decodeAck_ident : (s.decodeAck B).ident = s.ident := by
  unfold State.decodeAck; split_ifs <;> rfl
@[simp] theorem State.decodeAck_matched : (s.decodeAck B).matched = s.matched := by
  unfold State.decodeAck; split_ifs <;> rfl
@[simp] theorem State.decodeAck_chunkIdx : (s.decodeAck B).chunkIdx = s.chunkIdx := by
  unfold State.decodeAck; split_ifs <;> rfl
@[simp] theorem State.decodeAck_deadline : (s.decodeAck B).deadline = s.deadline := by
  unfold State.decodeAck; split_ifs <;> rfl
@[simp] theorem State.decodeAck_cfg : (s.decodeAck B).cfg = s.cfg := by
  unfold State.decodeAck; split_ifs <;> rfl
@[simp] theorem State.decodeAck_input : (s.decodeAck B).input = s.input := by
  unfold State.decodeAck; split_ifs <;> rfl
@[simp] theorem State.decodeAck_link : (s.decodeAck B).link = s.link := by
  unfold State.decodeAck; split_ifs <;> rfl
@[simp] theorem State.decodeAck_out : (s.decodeAck B).out = s.out := by
  unfold State.decodeAck; split_ifs <;> rfl
end

section
variable (B : List Byte) (s : State)
@[simp] theorem State.decodeInfo_crc : (s.decodeInfo B).crc = s.crc := by
  unfold State.decodeInfo; split_ifs <;> rfl
@[simp] theorem State.decodeInfo_tx : (s.decodeInfo B).tx = s.tx := by
  unfold State.decodeInfo; split_ifs <;> rfl
@[simp] theorem State.decodeInfo_pre : (s.decodeInfo B).pre = s.pre := by
  unfold State.decodeInfo; split_ifs <;> rfl
@[simp] theorem State.decodeInfo_matched : (s.decodeInfo B).matched = s.matched := by
  unfold State.decodeInfo; split_ifs <;> rfl
@[simp] theorem State.decodeInfo_chunkIdx : (s.decodeInfo B).chunkIdx = s.chunkIdx := by
  unfold State.decodeInfo; split_ifs <;> rfl
@[simp] theorem State.decodeInfo_deadline : (s.decodeInfo B).deadline = s.deadline := by
  unfold State.decodeInfo; split_ifs <;> rfl
@[simp] theorem State.decodeInfo_cfg : (s.decodeInfo B).cfg = s.cfg := by
  unfold State.decodeInfo; split_ifs <;> rfl
@[simp] theorem State.decodeInfo_input : (s.decodeInfo B).input = s.input := by
  unfold State.decodeInfo; split_ifs <;> rfl
@[simp] theorem State.decodeInfo_link : (s.decodeInfo B).link = s.link := by
  unfold State.decodeInfo; split_ifs <;> rfl
@[simp] theorem State.decodeInfo_out : (s.decodeInfo B).out = s.out := by
  unfold State.decodeInfo; split_ifs <;> rfl
end

section
variable (B : List Byte) (s : State)
@[simp] theorem State.compareBoot_crc : (s.compareBoot B).crc = s.crc := by
  rfl
@[simp] theorem State.compareBoot_tx : (s.compareBoot B).tx = s.tx := by
  rfl
@[simp] theorem State.compareBoot_pre : (s.compareBoot B).pre = s.pre := by
  rfl
@[simp] theorem State.compareBoot_ident : (s.compareBoot B).ident = s.ident := by
  rfl
@[simp] theorem State.compareBoot_err : (s.compareBoot B).err = s.err := by
  rfl
@[simp] theorem State.compareBoot_session : (s.compareBoot B).session = s.session := by
  rfl
@[simp] theorem State.compareBoot_chunkIdx : (s.compareBoot B).chunkIdx = s.chunkIdx := by
  rfl
@[simp] theorem State.compareBoot_deadline : (s.compareBoot B).deadline = s.deadline := by
  rfl
@[simp] theorem State.compareBoot_cfg : (s.compareBoot B).cfg = s.cfg := by
  rfl
@[simp] theorem State.compareBoot_input : (s.compareBoot B).input = s.input := by
  rfl
@[simp] theorem State.compareBoot_link : (s.compareBoot B).link = s.link := by
  rfl
@[simp] theorem State.compareBoot_out : (s.compareBoot B).out = s.out := by
  rfl
end

section
variable (B : List Byte) (s : State)
@[simp] theorem State.checkReady_crc : (s.checkReady B).crc = s.crc := by
  unfold State.checkReady; split_ifs <;> rfl
@[simp] theorem State.checkReady_tx : (s.checkReady B).tx = s.tx := by
  unfold State.checkReady; split_ifs <;> rfl
@[simp] theorem State.checkReady_pre : (s.checkReady B).pre = s.pre := by
  unfold State.checkReady; split_ifs <;> rfl
@[simp] theorem State.checkReady_ident : (s.checkReady B).ident = s.ident := by
  unfold State.checkReady; split_ifs <;> rfl
@[simp] theorem State.checkReady_matched : (s.checkReady B).matched = s.matched := by
  unfold State.checkReady; split_ifs <;> rfl
@[simp] theorem State.checkReady_chunkIdx : (s.checkReady B).chunkIdx = s.chunkIdx := by
  unfold State.checkReady; split_ifs <;> rfl
@[simp] theorem State.checkReady_deadline : (s.checkReady B).deadline = s.deadline := by
  unfold State.checkReady; split_ifs <;> rfl
@[simp] theorem State.checkReady_cfg : (s.checkReady B).cfg = s.cfg := by
  unfold State.checkReady; split_ifs <;> rfl
@[simp] theorem State.checkReady_input : (s.checkReady B).input = s.input := by
  unfold State.checkReady; split_ifs <;> rfl
@[simp] theorem State.checkReady_link : (s.checkReady B).link = s.link := by
  unfold State.checkReady; split_ifs <;> rfl
@[simp] theorem State.checkReady_out : (s.checkReady B).out = s.out := by
  unfold State.checkReady; split_ifs <;> rfl
end

section
variable (B : List Byte) (s : State)
@[simp] theorem State.checkOk_crc : (s.checkOk B).crc = s.crc := by
  unfold State.checkOk; split_ifs <;> rfl
@[simp] theorem State.checkOk_tx : (s.checkOk B).tx = s.tx := by
  unfold State.checkOk; split_ifs <;> rfl
@[simp] theorem State.checkOk_pre : (s.checkOk B).pre = s.pre := by
  unfold State.checkOk; split_ifs <;> rfl
@[simp] theorem State.checkOk_ident : (s.checkOk B).ident = s.ident := by
  unfold State.checkOk; split_ifs <;> rfl
@[simp] theorem State.checkOk_matched : (s.checkOk B).matched = s.matched := by
  unfold State.checkOk; split_ifs <;> rfl
@[simp] theorem State.checkOk_chunkIdx : (s.checkOk B).chunkIdx = s.chunkIdx := by
  unfold State.checkOk; split_ifs <;> rfl
@[simp] theorem State.checkOk_deadline : (s.checkOk B).deadline = s.deadline := by
  unfold State.checkOk; split_ifs <;> rfl
@[simp] theorem State.checkOk_cfg : (s.checkOk B).cfg = s.cfg := by
  unfold State.checkOk; split_ifs <;> rfl
@[simp] theorem State.checkOk_input : (s.checkOk B).input = s.input := by
  unfold State.checkOk; split_ifs <;> rfl
@[simp] theorem State.checkOk_link : (s.checkOk B).link = s.link := by
  unfold State.checkOk; split_ifs <;> rfl
@[simp] theorem State.checkOk_out : (s.checkOk B).out = s.out := by
  unfold State.checkOk; split_ifs <;> rfl
end

/-- A sub-step that keeps a field keeps it whether it runs or not. -/
theorem andThen_field {α : Type} (g : State → α) {s : State} {f : State → State} (h : g (f s) = g s) :
    g (s.andThen f) = g s := by
  by_cases hk : s.err.kind = .none <;> simp [hk, h]

/-! ## The decode bodies, case by case -/

/-- DEC.RHR4 on any reply (42_frame_decode.md R157). -/
theorem decodeRhr4_cases (B : List Byte) (s : State) :
    (B = [] ∧ s.decodeRhr4 B = s.raise .timeout .legacy none none) ∨
    (B ≠ [] ∧ rhr4Ok B = false ∧
      s.decodeRhr4 B = s.raise .protocolViolation .legacy (some B) none) ∨
    (rhr4Ok B = true ∧ s.decodeRhr4 B = (s.takePreIdentity B).consumeReply) := by
  unfold State.decodeRhr4
  by_cases h0 : B.length = 0
  · exact .inl ⟨List.length_eq_zero_iff.mp h0, by simp [h0]⟩
  · have hne : B ≠ [] := fun h => h0 (by simp [h])
    by_cases hok : rhr4Ok B = true
    · refine .inr (.inr ⟨hok, ?_⟩)
      simp only [rhr4Ok, Bool.and_eq_true, decide_eq_true_eq] at hok
      simp [hok, Config.rdRespLen]
    · refine .inr (.inl ⟨hne, by simpa using hok, ?_⟩)
      simp only [rhr4Ok, Bool.and_eq_true, decide_eq_true_eq] at hok
      simp only [h0, if_false]
      split_ifs <;> first | rfl | simp_all

/-- DEC.ACK on any reply (R159). -/
theorem decodeAck_cases (B : List Byte) (s : State) :
    (B ≠ [s.cfg.rebootAck] ∧
      s.decodeAck B = s.raise .protocolViolation .legacy (some B) none) ∨
    (B = [s.cfg.rebootAck] ∧ s.decodeAck B = s.consumeReply) := by
  unfold State.decodeAck
  by_cases h : B = [s.cfg.rebootAck]
  · exact .inr ⟨h, by rw [h]; simp [Config.ackLen, byteAt]⟩
  · refine .inl ⟨h, ?_⟩
    rw [if_pos]
    rcases B with _ | ⟨b, _ | ⟨c, rest⟩⟩ <;> simp_all [Config.ackLen, byteAt]

/-- DEC.INFO on any reply (R163). -/
theorem decodeInfo_cases (B : List Byte) (s : State) :
    (B = [] ∧ s.decodeInfo B = s.raise .timeout .identify none none) ∨
    (B ≠ [] ∧ infoOk s.cfg B = false ∧
      s.decodeInfo B = s.raise .protocolViolation .identify (some B) none) ∨
    (infoOk s.cfg B = true ∧ s.decodeInfo B = (s.takeIdentity B).consumeReply) := by
  unfold State.decodeInfo
  by_cases h0 : B.length = 0
  · exact .inl ⟨List.length_eq_zero_iff.mp h0, by simp [h0]⟩
  · have hne : B ≠ [] := fun h => h0 (by simp [h])
    by_cases hok : infoOk s.cfg B = true
    · refine .inr (.inr ⟨hok, ?_⟩)
      simp only [infoOk, decide_eq_true_eq] at hok
      simp [hok, Config.infoLen]
    · refine .inr (.inl ⟨hne, by simpa using hok, ?_⟩)
      simp only [infoOk, decide_eq_true_eq] at hok
      simp only [h0, if_false]
      split_ifs <;> first | rfl | simp_all

/-- CHK.READY on any reply (R167). -/
theorem checkReady_cases (B : List Byte) (s : State) :
    (B = s.cfg.tokReady.toList ∧ s.checkReady B = s.consumeReply) ∨
    (B ≠ s.cfg.tokReady.toList ∧
      s.checkReady B = s.raise .protocolViolation .transfer (some B) none) := by
  unfold State.checkReady tokEq
  by_cases h : B = s.cfg.tokReady.toList <;> simp [h]

/-- CHK.OK on any reply (R168). -/
theorem checkOk_cases (B : List Byte) (s : State) :
    (B = Config.tokOk ∧ s.checkOk B = s.consumeReply) ∨
    (B ≠ Config.tokOk ∧
      s.checkOk B = s.raise .protocolViolation .transfer (some B) (some s.chunkIdx)) := by
  unfold State.checkOk tokEq
  by_cases h : B = Config.tokOk <;> simp [h]

/-! ## The meanings, inverted -/

theorem execCrcInit_next {s t : State} (h : execCrcInit s = .next t) :
    s.live = true ∧ t = s.setCrc (some Config.crcInit) := by
  obtain ⟨hl, hk⟩ := admitted_next h
  obtain rfl := next_eq hk
  exact ⟨hl, rfl⟩

theorem execCrcUpd_next {b : Byte} {s t : State} (h : execCrcUpd b s = .next t) :
    s.live = true ∧ ∃ c, s.crc = some c ∧ t = s.setCrc (some (crcByte c b)) := by
  obtain ⟨hl, hk⟩ := admitted_next h
  split at hk
  · obtain rfl := next_eq hk
    exact ⟨hl, _, ‹_›, rfl⟩
  · cases hk

theorem execCrcGet_next {s t : State} (h : execCrcGet s = .next t) :
    s.live = true ∧ ∃ c, s.crc = some c ∧ t = s.setOut (.crcBytes (lo8 c) (hi8 c)) := by
  obtain ⟨hl, hk⟩ := admitted_next h
  split at hk
  · obtain rfl := next_eq hk
    exact ⟨hl, _, ‹_›, rfl⟩
  · cases hk

theorem execEncRhr_next {a : Byte} {p q : Word} {s t : State} (h : execEncRhr a p q s = .next t) :
    s.live = true ∧ t = s.buildRhr a p q := by
  obtain ⟨hl, hk⟩ := admitted_next h
  obtain rfl := next_eq hk
  exact ⟨hl, rfl⟩

theorem execEncWsr_next {a : Byte} {p q : Word} {s t : State} (h : execEncWsr a p q s = .next t) :
    s.live = true ∧ t = s.buildWsr a p q := by
  obtain ⟨hl, hk⟩ := admitted_next h
  obtain rfl := next_eq hk
  exact ⟨hl, rfl⟩

theorem execLdRd4_next {s t : State} (h : execLdRd4 s = .next t) :
    s.live = true ∧ t = s.loadFrame Config.frameRd4 := by
  obtain ⟨hl, hk⟩ := admitted_next h
  obtain rfl := next_eq hk
  exact ⟨hl, rfl⟩

theorem execLdReboot_next {s t : State} (h : execLdReboot s = .next t) :
    s.live = true ∧ t = s.loadFrame Config.frameReboot := by
  obtain ⟨hl, hk⟩ := admitted_next h
  obtain rfl := next_eq hk
  exact ⟨hl, rfl⟩

theorem execDecRhr4_next {s t : State} (h : execDecRhr4 s = .next t) :
    s.live = true ∧ s.rx.fresh = true ∧
      ∃ B, s.rx.buf.readBytes 0 s.rx.len.val = some B ∧ t = s.decodeRhr4 B := by
  obtain ⟨hl, hf, B, hB, hk⟩ := withReply_next h
  obtain rfl := next_eq hk
  exact ⟨hl, hf, B, hB, rfl⟩

theorem execDecAck_next {s t : State} (h : execDecAck s = .next t) :
    s.live = true ∧ s.rx.fresh = true ∧
      ∃ B, s.rx.buf.readBytes 0 s.rx.len.val = some B ∧ t = s.decodeAck B := by
  obtain ⟨hl, hf, B, hB, hk⟩ := withReply_next h
  obtain rfl := next_eq hk
  exact ⟨hl, hf, B, hB, rfl⟩

theorem execDecInfo_next {s t : State} (h : execDecInfo s = .next t) :
    s.live = true ∧ s.rx.fresh = true ∧ s.ident.valid = false ∧
      ∃ B, s.rx.buf.readBytes 0 s.rx.len.val = some B ∧ t = s.decodeInfo B := by
  obtain ⟨hl, hf, B, hB, hk⟩ := withReply_next h
  split at hk
  · cases hk
  · obtain rfl := next_eq hk
    exact ⟨hl, hf, by simp_all, B, hB, rfl⟩

theorem execCmpBoot_next {s t : State} (h : execCmpBoot s = .next t) :
    s.live = true ∧ s.rx.fresh = true ∧
      ∃ B, s.rx.buf.readBytes 0 s.rx.len.val = some B ∧ t = s.compareBoot B := by
  obtain ⟨hl, hf, B, hB, hk⟩ := withReply_next h
  obtain rfl := next_eq hk
  exact ⟨hl, hf, B, hB, rfl⟩

theorem execChkReady_next {s t : State} (h : execChkReady s = .next t) :
    s.live = true ∧ s.rx.fresh = true ∧
      ∃ B, s.rx.buf.readBytes 0 s.rx.len.val = some B ∧ t = s.checkReady B := by
  obtain ⟨hl, hf, B, hB, hk⟩ := withReply_next h
  obtain rfl := next_eq hk
  exact ⟨hl, hf, B, hB, rfl⟩

theorem execChkOk_next {s t : State} (h : execChkOk s = .next t) :
    s.live = true ∧ s.rx.fresh = true ∧
      ∃ B, s.rx.buf.readBytes 0 s.rx.len.val = some B ∧ t = s.checkOk B := by
  obtain ⟨hl, hf, B, hB, hk⟩ := withReply_next h
  obtain rfl := next_eq hk
  exact ⟨hl, hf, B, hB, rfl⟩

theorem execSend_next {s t : State} (h : execSend s = .next t) :
    s.live = true ∧ s.tx.len.val ≠ 0 ∧
      ∃ F, s.tx.buf.readBytes 0 s.tx.len.val = some F ∧ t = s.writeAll (phaseOf s.session) F := by
  obtain ⟨hl, hk⟩ := admitted_next h
  split at hk
  · cases hk
  · cases hr : s.tx.buf.readBytes 0 s.tx.len.val with
    | none => simp [State.memRead, State.lengthOf, State.bufferOf, hr] at hk
    | some F =>
      rw [memRead_txbuf hr] at hk
      obtain rfl := next_eq hk
      exact ⟨hl, ‹_›, F, rfl, rfl⟩

theorem execRecv_next {n : Byte} {s t : State} (h : execRecv n s = .next t) :
    s.live = true ∧ recvCountOk n = true ∧ t = s.receive (phaseOf s.session) n.toNat := by
  obtain ⟨hl, hk⟩ := admitted_next h
  split at hk
  · obtain rfl := next_eq hk
    exact ⟨hl, ‹_›, rfl⟩
  · cases hk

theorem execSetdl_next {d : Byte} {s t : State} (h : execSetdl d s = .next t) :
    s.live = true ∧ t = s.setDeadline d.toNat := by
  obtain ⟨hl, hk⟩ := admitted_next h
  obtain rfl := next_eq hk
  exact ⟨hl, rfl⟩

theorem execPause_next {s t : State} (h : execPause s = .next t) :
    s.live = true ∧ t = s := by
  obtain ⟨hl, hk⟩ := admitted_next h
  obtain rfl := next_eq hk
  exact ⟨hl, rfl⟩

theorem execSendtok_next {k : Byte} {s t : State} (h : execSendtok k s = .next t) :
    s.live = true ∧ ∃ T, tokenOf s.cfg k = some T ∧ t = s.writeAll (phaseOf s.session) T := by
  obtain ⟨hl, hk⟩ := admitted_next h
  split at hk
  · obtain rfl := next_eq hk
    exact ⟨hl, _, ‹_›, rfl⟩
  · cases hk

theorem execSendchunk_next {s t : State} (h : execSendchunk s = .next t) :
    s.live = true ∧ s.session = .transferring ∧ s.chunkIdx < nchunks s.cfg.image.length ∧
      t = s.sendChunk := by
  obtain ⟨hl, hs, hk⟩ := inSession_next h
  split at hk
  · obtain rfl := next_eq hk
    exact ⟨hl, hs, ‹_›, rfl⟩
  · cases hk

theorem execPhDetect_next {s t : State} (h : execPhDetect s = .next t) :
    s.live = true ∧ s.session = .idle ∧ t = s.detect := by
  obtain ⟨hl, hs, hk⟩ := inSession_next h
  obtain rfl := next_eq hk
  exact ⟨hl, hs, rfl⟩

theorem execPhLegacy_next {s t : State} (h : execPhLegacy s = .next t) :
    s.live = true ∧ s.session = .legacyDetected ∧ t = s.legacy := by
  obtain ⟨hl, hs, hk⟩ := inSession_next h
  obtain rfl := next_eq hk
  exact ⟨hl, hs, rfl⟩

theorem execPhXfer_next {s t : State} (h : execPhXfer s = .next t) :
    s.live = true ∧ s.session = .modelValidated ∧ t = s.transfer := by
  obtain ⟨hl, hs, hk⟩ := inSession_next h
  obtain rfl := next_eq hk
  exact ⟨hl, hs, rfl⟩

theorem execPhIdent_next {s t : State} (h : execPhIdent s = .next t) :
    s.live = true ∧ s.session = .bootloaderConfirmed ∧
      (s.ident.valid = false ∨ s.askIdentity.err.kind ≠ .none) ∧ t = s.identify := by
  obtain ⟨hl, hs, hk⟩ := inSession_next h
  split at hk
  · cases hk
  · rename_i hn
    obtain rfl := next_eq hk
    exact ⟨hl, hs, by rwa [not_and_or, Bool.not_eq_true] at hn, rfl⟩

theorem execPhGate_next {s t : State} (h : execPhGate s = .next t) :
    s.live = true ∧ s.session = .identityKnown ∧ s.ident.valid = true ∧
      ∃ m, s.ident.model = some m ∧ t = s.gate m := by
  obtain ⟨hl, hs, hk⟩ := inSession_next h
  split at hk
  · obtain rfl := next_eq hk
    exact ⟨hl, hs, ‹_›, _, ‹_›, rfl⟩
  · cases hk

theorem execRhrReq_next {a : Byte} {p q c : Word} {s t : State} (h : execRhrReq a p q c s = .next t) :
    s.live = true ∧ c = crc16 (reqBody a Config.fnRead p q) ∧ t = (s.buildRhr a p q).sendFrame := by
  obtain ⟨hl, hk⟩ := admitted_next h
  split at hk
  · obtain rfl := next_eq hk
    exact ⟨hl, ‹_›, rfl⟩
  · cases hk

theorem execWsrReq_next {a : Byte} {p q c : Word} {s t : State} (h : execWsrReq a p q c s = .next t) :
    s.live = true ∧ c = crc16 (reqBody a Config.fnWrite p q) ∧ t = (s.buildWsr a p q).sendFrame := by
  obtain ⟨hl, hk⟩ := admitted_next h
  split at hk
  · obtain rfl := next_eq hk
    exact ⟨hl, ‹_›, rfl⟩
  · cases hk

theorem execRd4Req_next {s t : State} (h : execRd4Req s = .next t) :
    s.live = true ∧ t = (s.loadFrame Config.frameRd4).sendFrame := by
  obtain ⟨hl, hk⟩ := admitted_next h
  obtain rfl := next_eq hk
  exact ⟨hl, rfl⟩

theorem execRebootReq_next {s t : State} (h : execRebootReq s = .next t) :
    s.live = true ∧ t = (s.loadFrame Config.frameReboot).sendFrame := by
  obtain ⟨hl, hk⟩ := admitted_next h
  obtain rfl := next_eq hk
  exact ⟨hl, rfl⟩

theorem execChunk_next {d : List Byte} {s t : State} (h : execChunk d s = .next t) :
    s.live = true ∧ s.session = .transferring ∧ s.chunkIdx < nchunks s.cfg.image.length ∧
      d = chunkOf s.cfg.image s.chunkIdx ∧ t = s.sendChunk := by
  obtain ⟨hl, hs, hk⟩ := inSession_next h
  split at hk
  · split at hk
    · obtain rfl := next_eq hk
      exact ⟨hl, hs, ‹_›, ‹_›, rfl⟩
    · cases hk
  · cases hk

theorem execRd4Rsp_next {m : Word} {x5 x6 x7 x8 x9 v : Byte} {c : Word} {s t : State} (h : execRd4Rsp m x5 x6 x7 x8 x9 v c s = .next t) :
    s.live = true ∧ t = s.deliver (rspBytes m x5 x6 x7 x8 x9 v c) := by
  obtain ⟨hl, hk⟩ := admitted_next h
  obtain rfl := next_eq hk
  exact ⟨hl, rfl⟩

theorem execRebootAck_next {k : Byte} {s t : State} (h : execRebootAck k s = .next t) :
    s.live = true ∧ t = s.deliver [k] := by
  obtain ⟨hl, hk⟩ := admitted_next h
  obtain rfl := next_eq hk
  exact ⟨hl, rfl⟩

theorem execInfoRsp_next {f0 f1 f2 : Byte} {serial : DWord} {m : Word} {x9 x10 v y : Byte} {s t : State} (h : execInfoRsp f0 f1 f2 serial m x9 x10 v y s = .next t) :
    s.live = true ∧ t = s.deliver (infoBytes f0 f1 f2 serial m x9 x10 v y) := by
  obtain ⟨hl, hk⟩ := admitted_next h
  obtain rfl := next_eq hk
  exact ⟨hl, rfl⟩

theorem execOkTok_next {s t : State} (h : execOkTok s = .next t) :
    s.live = true ∧ t = s.deliver Config.tokOk := by
  obtain ⟨hl, hk⟩ := admitted_next h
  obtain rfl := next_eq hk
  exact ⟨hl, rfl⟩

theorem execBootTok_next {t0 t1 t2 t3 : Byte} {s t : State} (h : execBootTok t0 t1 t2 t3 s = .next t) :
    s.live = true ∧ t = s.deliver [t0, t1, t2, t3] := by
  obtain ⟨hl, hk⟩ := admitted_next h
  obtain rfl := next_eq hk
  exact ⟨hl, rfl⟩

theorem execReadyTok_next {t0 t1 t2 t3 t4 t5 : Byte} {s t : State} (h : execReadyTok t0 t1 t2 t3 t4 t5 s = .next t) :
    s.live = true ∧ t = s.deliver [t0, t1, t2, t3, t4, t5] := by
  obtain ⟨hl, hk⟩ := admitted_next h
  obtain rfl := next_eq hk
  exact ⟨hl, rfl⟩

/-- The state that the first input leaves is where the step's instruction runs. -/
theorem step_next {s t : State} (h : step s = .next t) :
    (s.input = [] ∧ t = s) ∨
      ∃ u rest i, s.input = u :: rest ∧ decode u = .ok i ∧ exec i (s.setInput rest) = .next t := by
  unfold step at h
  split at h
  · cases h
    exact .inl ⟨‹_›, rfl⟩
  · split at h
    · exact .inr ⟨_, _, _, ‹_›, ‹_›, h⟩
    · cases h

end Sys2Proof.Machine
end

