-- ==== Sys2Proof/Laws/PerInstr.lean ====
section
/-! SUPPORT. Laws stated per instruction. `EncodedForm`: the encoding of an instruction has the length its table row gives (30_encoding.md R82 to R94, R107). -/

namespace Sys2Proof.Laws

/-- The length of a message by its format, where it is fixed (R82, R87, R89, R90, R92). -/
def messageLength (f : WireFormat) : Option Nat :=
  match f with
  | .rhrReq => some 8
  | .wsrReq => some 8
  | .rd4Req => some 8
  | .rebootReq => some 8
  | .rd4Rsp => some 13
  | .rebootAck => some 1
  | .infoRsp => some 13
  | .okTok => some 2
  | .bootTok => some 4
  | .readyTok => some 6
  | .chunk => none

/-- A command word is as long as its code's row says, a message as long as its format says. -/
def EncodedForm.Statement (i : Instr) : Prop :=
  match encode i with
  | .command w => w.length = commandLength (byteAt w 0) ∧ w ≠ []
  | .message f B => ∀ n, messageLength f = some n → B.length = n

namespace EncodedForm

theorem crcInit : Statement .crcInit := ⟨by decide, by simp⟩
theorem crcUpd (b : Byte) : Statement (.crcUpd b) := ⟨rfl, by simp⟩
theorem crcGet : Statement .crcGet := ⟨by decide, by simp⟩
theorem encRhr (a : Byte) (start count : Word) : Statement (.encRhr a start count) := ⟨rfl, by simp⟩
theorem encWsr (a : Byte) (reg value : Word) : Statement (.encWsr a reg value) := ⟨rfl, by simp⟩
theorem ldRd4 : Statement .ldRd4 := ⟨by decide, by simp⟩
theorem ldReboot : Statement .ldReboot := ⟨by decide, by simp⟩
theorem decRhr4 : Statement .decRhr4 := ⟨by decide, by simp⟩
theorem decAck : Statement .decAck := ⟨by decide, by simp⟩
theorem decInfo : Statement .decInfo := ⟨by decide, by simp⟩
theorem cmpBoot : Statement .cmpBoot := ⟨by decide, by simp⟩
theorem chkReady : Statement .chkReady := ⟨by decide, by simp⟩
theorem chkOk : Statement .chkOk := ⟨by decide, by simp⟩
theorem send : Statement .send := ⟨by decide, by simp⟩
theorem recv (n : Byte) : Statement (.recv n) := ⟨rfl, by simp⟩
theorem setdl (d : Byte) : Statement (.setdl d) := ⟨rfl, by simp⟩
theorem pause : Statement .pause := ⟨by decide, by simp⟩
theorem sendtok (k : Byte) : Statement (.sendtok k) := ⟨rfl, by simp⟩
theorem sendchunk : Statement .sendchunk := ⟨by decide, by simp⟩
theorem phDetect : Statement .phDetect := ⟨by decide, by simp⟩
theorem phLegacy : Statement .phLegacy := ⟨by decide, by simp⟩
theorem phIdent : Statement .phIdent := ⟨by decide, by simp⟩
theorem phGate : Statement .phGate := ⟨by decide, by simp⟩
theorem phXfer : Statement .phXfer := ⟨by decide, by simp⟩
theorem rhrReq (a : Byte) (p q c : Word) : Statement (.rhrReq a p q c) := by
  rintro n h; cases h; rfl
theorem wsrReq (a : Byte) (p q c : Word) : Statement (.wsrReq a p q c) := by
  rintro n h; cases h; rfl
theorem rd4Req : Statement .rd4Req := by
  rintro n h; cases h; rfl
theorem rebootReq : Statement .rebootReq := by
  rintro n h; cases h; rfl
theorem rd4Rsp (m : Word) (x5 x6 x7 x8 x9 v : Byte) (c : Word) :
    Statement (.rd4Rsp m x5 x6 x7 x8 x9 v c) := by
  rintro n h; cases h; rfl
theorem rebootAck (k : Byte) : Statement (.rebootAck k) := by
  rintro n h; cases h; rfl
theorem infoRsp (f0 f1 f2 : Byte) (serial : DWord) (m : Word) (x9 x10 v y : Byte) :
    Statement (.infoRsp f0 f1 f2 serial m x9 x10 v y) := by
  rintro n h; cases h; rfl
theorem okTok : Statement .okTok := by
  rintro n h; cases h; rfl
theorem bootTok (t0 t1 t2 t3 : Byte) : Statement (.bootTok t0 t1 t2 t3) := by
  rintro n h; cases h; rfl
theorem readyTok (t0 t1 t2 t3 t4 t5 : Byte) : Statement (.readyTok t0 t1 t2 t3 t4 t5) := by
  rintro n h; cases h; rfl
theorem chunk (d : List Byte) : Statement (.chunk d) := by
  rintro n h; cases h

end EncodedForm

end Sys2Proof.Laws
end

