-- ==== Sys2Proof/Laws/Phases.lean ====
section
/-! SUPPORT. The phases of Machine/Phases.lean as sequences: how `State.andThen` associates, the induction over the transfer loop, what a phase leaves alone, and that a phase either keeps the error registers or ends in a fault. -/

namespace Sys2Proof.Machine

theorem andThen_assoc (s : State) (f g : State → State) :
    (s.andThen f).andThen g = s.andThen (fun t => (f t).andThen g) := by
  by_cases h : s.err.kind = .none <;> simp [h]

/-- What every turn of the transfer loop keeps, the loop keeps. -/
theorem transferLoop_induction {P : State → Prop}
    (turn : ∀ s, P s → s.err.kind = .none → s.chunkIdx < nchunks s.cfg.image.length →
      P s.transferChunk) (fuel : Nat) (s : State) (h0 : s.err.kind = .none) (hs : P s) :
    P (s.transferLoop fuel) := by
  induction fuel generalizing s with
  | zero => exact hs
  | succ n ih =>
    unfold State.transferLoop
    split
    · exact andThen_induction (turn s hs h0 ‹_›) (fun h1 => ih _ h1 (turn s hs h0 ‹_›))
    · exact hs

/-! ## What the operations of a phase leave alone, the phase leaves alone -/

section
variable {α : Type} (g : State → α) (s : State)

theorem detect_field (hw : ∀ ph B s, g (State.writeAll ph B s) = g s)
    (hr : ∀ ph n s, g (State.receive ph n s) = g s) (hs : ∀ x s, g (State.setSession x s) = g s)
    (hc : ∀ B s, g (State.compareBoot B s) = g s) : g s.detect = g s := by
  unfold State.detect
  simp only [andThen_field g, hs, hc, hr, hw]

theorem legacy_field (hw : ∀ ph B s, g (State.writeAll ph B s) = g s)
    (hr : ∀ ph n s, g (State.receive ph n s) = g s) (hs : ∀ x s, g (State.setSession x s) = g s)
    (hd : ∀ d s, g (State.setDeadline d s) = g s) (hl : ∀ F s, g (State.loadFrame F s) = g s)
    (hc : ∀ B s, g (State.decodeRhr4 B s) = g s) (ha : ∀ B s, g (State.decodeAck B s) = g s) :
    g s.legacy = g s := by
  unfold State.legacy State.legacyRead State.legacyReboot State.sendFrame
  simp only [andThen_field g, hs, hc, hr, hw, hd, hl, ha]

theorem askIdentity_field (hw : ∀ ph B s, g (State.writeAll ph B s) = g s)
    (hr : ∀ ph n s, g (State.receive ph n s) = g s) : g s.askIdentity = g s := by
  unfold State.askIdentity
  simp only [andThen_field g, hr, hw]

theorem identify_field (hw : ∀ ph B s, g (State.writeAll ph B s) = g s)
    (hr : ∀ ph n s, g (State.receive ph n s) = g s) (hs : ∀ x s, g (State.setSession x s) = g s)
    (hc : ∀ B s, g (State.decodeInfo B s) = g s) : g s.identify = g s := by
  unfold State.identify
  simp only [andThen_field g, hs, hc, askIdentity_field g s hw hr]

theorem transfer_field (hw : ∀ ph B s, g (State.writeAll ph B s) = g s)
    (hr : ∀ ph n s, g (State.receive ph n s) = g s) (hs : ∀ x s, g (State.setSession x s) = g s)
    (hi : ∀ x s, g (State.setChunkIdx x s) = g s) (hc : ∀ B s, g (State.checkReady B s) = g s)
    (ho : ∀ B s, g (State.checkOk B s) = g s) : g s.transfer = g s := by
  have hl : ∀ n s, s.err.kind = .none → g (State.transferLoop n s) = g s := fun n s0 h0 =>
    transferLoop_induction (P := fun s => g s = g s0) (fun s h _ _ => by
      unfold State.transferChunk State.sendChunk
      simp only [andThen_field g, hr, hw, hi, ho, h]) n s0 h0 rfl
  have e : g s.startTransfer = g s := by
    unfold State.startTransfer
    simp only [andThen_field g, hs, hc, hr, hw, hi]
  unfold State.transfer
  rw [andThen_field g (hs _ _)]
  by_cases h : s.startTransfer.err.kind = .none
  · rw [andThen_of_none h, hl _ _ h, e]
  · rw [andThen_of_faulted h, e]
end

/-- A fault in the exchange of step 3 ends the step: what follows does not run (R226). -/
theorem identify_of_faulted {s : State} (h : s.askIdentity.err.kind ≠ .none) :
    s.identify = s.askIdentity := by
  unfold State.identify
  rw [andThen_of_faulted h, andThen_of_faulted h]

/-! ## A phase keeps the error registers or ends in a fault -/

/-- The error registers are as they were, or a fault was taken. -/
def Settled (s t : State) : Prop :=
  t.err = s.err ∨ (t.err.kind ≠ .none ∧ t.session = .failed)

theorem Settled.raise (s t : State) {k : ErrKind} (ph : ErrPhase) (b : Option (List Byte))
    (c : Option Nat) (h : k ≠ .none) : Settled s (t.raise k ph b c) :=
  .inr ⟨by simpa [raise_eq, ErrRecord.raised] using h, rfl⟩

section
variable {s t : State}

theorem Settled.andThen {f : State → State} (h0 : s.err.kind = .none) (h : Settled s t)
    (hf : t.err = s.err → Settled s (f t)) : Settled s (t.andThen f) := by
  rcases h with h | ⟨h1, h2⟩
  · rw [andThen_of_none (by rw [h]; exact h0)]
    exact hf h
  · rw [andThen_of_faulted h1]
    exact .inr ⟨h1, h2⟩

theorem Settled.setSession (x : Session) (h : t.err = s.err) : Settled s (t.setSession x) := .inl h

theorem Settled.writeAll (ph : ErrPhase) (B : List Byte) (h : t.err = s.err) :
    Settled s (t.writeAll ph B) := by
  rcases writeAll_cases ph B t with ⟨_, e⟩ | ⟨k, _, e⟩ <;> rw [e]
  · exact .inl h
  · exact Settled.raise _ _ _ _ _ (by simp)

theorem Settled.receive (ph : ErrPhase) (n : Nat) (h : t.err = s.err) :
    Settled s (t.receive ph n) := by
  rcases receive_cases ph n t with ⟨r, _, e⟩ | ⟨_, e⟩ <;> rw [e]
  · exact .inl h
  · exact Settled.raise _ _ _ _ _ (by simp)

theorem Settled.decodeRhr4 (B : List Byte) (h : t.err = s.err) : Settled s (t.decodeRhr4 B) := by
  rcases decodeRhr4_cases B t with ⟨_, e⟩ | ⟨_, _, e⟩ | ⟨_, e⟩ <;> rw [e]
  · exact Settled.raise _ _ _ _ _ (by simp)
  · exact Settled.raise _ _ _ _ _ (by simp)
  · exact .inl h

theorem Settled.decodeAck (B : List Byte) (h : t.err = s.err) : Settled s (t.decodeAck B) := by
  rcases decodeAck_cases B t with ⟨_, e⟩ | ⟨_, e⟩ <;> rw [e]
  · exact Settled.raise _ _ _ _ _ (by simp)
  · exact .inl h

theorem Settled.decodeInfo (B : List Byte) (h : t.err = s.err) : Settled s (t.decodeInfo B) := by
  rcases decodeInfo_cases B t with ⟨_, e⟩ | ⟨_, _, e⟩ | ⟨_, e⟩ <;> rw [e]
  · exact Settled.raise _ _ _ _ _ (by simp)
  · exact Settled.raise _ _ _ _ _ (by simp)
  · exact .inl h

theorem Settled.checkReady (B : List Byte) (h : t.err = s.err) : Settled s (t.checkReady B) := by
  rcases checkReady_cases B t with ⟨_, e⟩ | ⟨_, e⟩ <;> rw [e]
  · exact .inl h
  · exact Settled.raise _ _ _ _ _ (by simp)

theorem Settled.checkOk (B : List Byte) (h : t.err = s.err) : Settled s (t.checkOk B) := by
  rcases checkOk_cases B t with ⟨_, e⟩ | ⟨_, e⟩ <;> rw [e]
  · exact .inl h
  · exact Settled.raise _ _ _ _ _ (by simp)

variable (h0 : s.err.kind = .none)
include h0

theorem Settled.legacyReboot (h : t.err = s.err) : Settled s t.legacyReboot := by
  unfold State.legacyReboot State.sendFrame
  refine Settled.andThen h0 ?_ (Settled.setSession _)
  refine Settled.andThen h0 ?_ (Settled.decodeAck _)
  refine Settled.andThen h0 ?_ (Settled.receive _ _)
  refine Settled.andThen h0 ?_ (Settled.setSession _)
  exact Settled.writeAll _ _ h

theorem Settled.startTransfer (h : t.err = s.err) : Settled s t.startTransfer := by
  unfold State.startTransfer
  refine Settled.andThen h0 ?_ .inl
  refine Settled.andThen h0 ?_ (Settled.setSession _)
  refine Settled.andThen h0 ?_ (Settled.checkReady _)
  refine Settled.andThen h0 ?_ (Settled.receive _ _)
  exact Settled.writeAll _ _ h

theorem Settled.transferChunk (h : t.err = s.err) : Settled s t.transferChunk := by
  unfold State.transferChunk State.sendChunk
  refine Settled.andThen h0 ?_ .inl
  refine Settled.andThen h0 ?_ (Settled.checkOk _)
  refine Settled.andThen h0 ?_ (Settled.receive _ _)
  exact Settled.writeAll _ _ h

theorem Settled.transferLoop (fuel : Nat) (h : t.err = s.err) : Settled s (t.transferLoop fuel) := by
  refine transferLoop_induction (P := Settled s) ?_ fuel t (by rw [h]; exact h0) (.inl h)
  intro u hu hk _
  rcases hu with hu | ⟨hf, _⟩
  · exact Settled.transferChunk h0 hu
  · exact absurd hk hf
end

end Sys2Proof.Machine
end

