-- ==== Sys2Proof/Tests/Slice0.lean ====
section
/-! SUPPORT. Tests. Expected values are the spec's own: its encodings (30_encoding.md) and its vectors (95_test_vectors.md, named V, T, S as there). -/

set_option Elab.async false

namespace Sys2Proof.Tests

open Sys2Proof.Machine

/-! ## WellFormed smoke tests: one ill-formed term for each check -/

theorem test_wf_recv_zero : Instr.wellFormed (.recv 0#8) = false := by decide +kernel
theorem test_wf_recv_fourteen : Instr.wellFormed (.recv 14#8) = false := by decide +kernel
theorem test_wf_recv_bounds : Instr.wellFormed (.recv 1#8) && Instr.wellFormed (.recv 13#8) := by decide +kernel
theorem test_wf_sendtok_three : Instr.wellFormed (.sendtok 3#8) = false := by decide +kernel
theorem test_wf_rhrReq_swapped_crc :
    Instr.wellFormed (.rhrReq 1#8 0#16 4#16 0x4409#16) = false := by decide +kernel
theorem test_wf_rhrReq : Instr.wellFormed (.rhrReq 1#8 0#16 4#16 0x0944#16) = true := by decide +kernel
theorem test_wf_wsrReq_bad_crc :
    Instr.wellFormed (.wsrReq 1#8 0x0100#16 0x1601#16 0x9646#16) = false := by decide +kernel
theorem test_wf_rd4Rsp_bad_crc :
    Instr.wellFormed (.rd4Rsp 0xEB15#16 0 0 0 0 0 0x14#8 0xE39E#16) = false := by decide +kernel
theorem test_wf_chunk_empty : Instr.wellFormed (.chunk []) = false := by decide +kernel
theorem test_wf_chunk_too_long : Instr.wellFormed (.chunk (List.replicate 65 0)) = false := by decide +kernel

/-! ## Decoding: a word for every constructor, written out from R107 and R82 to R94 -/

theorem test_decode_crcInit : decode (.command [0x00]) = .ok .crcInit := rfl
theorem test_decode_crcUpd : decode (.command [0x01, 0xA5]) = .ok (.crcUpd 0xA5) := rfl
theorem test_decode_crcGet : decode (.command [0x02]) = .ok .crcGet := rfl
theorem test_decode_encRhr :
    decode (.command [0x10, 0x02, 0x12, 0x34, 0xAB, 0xCD]) = .ok (.encRhr 0x02 0x1234 0xABCD) := by decide +kernel
theorem test_decode_encWsr :
    decode (.command [0x11, 0x01, 0x01, 0x00, 0x16, 0x01]) = .ok (.encWsr 0x01 0x0100 0x1601) := by decide +kernel
theorem test_decode_ldRd4 : decode (.command [0x12]) = .ok .ldRd4 := rfl
theorem test_decode_ldReboot : decode (.command [0x13]) = .ok .ldReboot := rfl
theorem test_decode_decRhr4 : decode (.command [0x20]) = .ok .decRhr4 := rfl
theorem test_decode_decAck : decode (.command [0x21]) = .ok .decAck := rfl
theorem test_decode_decInfo : decode (.command [0x22]) = .ok .decInfo := rfl
theorem test_decode_cmpBoot : decode (.command [0x23]) = .ok .cmpBoot := rfl
theorem test_decode_chkReady : decode (.command [0x24]) = .ok .chkReady := rfl
theorem test_decode_chkOk : decode (.command [0x25]) = .ok .chkOk := rfl
theorem test_decode_send : decode (.command [0x30]) = .ok .send := rfl
theorem test_decode_recv : decode (.command [0x31, 0x0D]) = .ok (.recv 13) := rfl
theorem test_decode_setdl : decode (.command [0x32, 0x05]) = .ok (.setdl 5) := rfl
theorem test_decode_pause : decode (.command [0x33]) = .ok .pause := rfl
theorem test_decode_sendtok : decode (.command [0x34, 0x02]) = .ok (.sendtok 2) := rfl
theorem test_decode_sendchunk : decode (.command [0x35]) = .ok .sendchunk := rfl
theorem test_decode_phDetect : decode (.command [0x40]) = .ok .phDetect := rfl
theorem test_decode_phLegacy : decode (.command [0x41]) = .ok .phLegacy := rfl
theorem test_decode_phIdent : decode (.command [0x42]) = .ok .phIdent := rfl
theorem test_decode_phGate : decode (.command [0x43]) = .ok .phGate := rfl
theorem test_decode_phXfer : decode (.command [0x44]) = .ok .phXfer := rfl
theorem test_decode_rhrReq :
    decode (.message .rhrReq [0x02, 0x03, 0x00, 0x10, 0x00, 0x02, 0xC5, 0xFD]) =
      .ok (.rhrReq 0x02 0x0010 0x0002 0xFDC5) := by decide +kernel
theorem test_decode_wsrReq :
    decode (.message .wsrReq [0x01, 0x06, 0x00, 0x12, 0x00, 0x01, 0xE8, 0x0F]) =
      .ok (.wsrReq 0x01 0x0012 0x0001 0x0FE8) := by decide +kernel
theorem test_decode_rd4Req :
    decode (.message .rd4Req [0x01, 0x03, 0x00, 0x00, 0x00, 0x04, 0x44, 0x09]) = .ok .rd4Req := by decide +kernel
theorem test_decode_rebootReq :
    decode (.message .rebootReq [0x01, 0x06, 0x01, 0x00, 0x16, 0x01, 0x47, 0x96]) =
      .ok .rebootReq := by decide +kernel
theorem test_decode_rd4Rsp :
    decode (.message .rd4Rsp
      [0x01, 0x03, 0x08, 0xEB, 0x51, 0x12, 0x34, 0x56, 0x78, 0xAB, 0xFF, 0x86, 0xBE]) =
      .ok (.rd4Rsp 0xEB51 0x12 0x34 0x56 0x78 0xAB 0xFF 0xBE86) := by decide +kernel
theorem test_decode_rebootAck : decode (.message .rebootAck [0x5A]) = .ok (.rebootAck 0x5A) := rfl
theorem test_decode_infoRsp :
    decode (.message .infoRsp
      [0x69, 0x6E, 0x66, 0xEF, 0xBE, 0xAD, 0xDE, 0x51, 0xEB, 0x11, 0x22, 0xFF, 0x33]) =
      .ok (.infoRsp 0x69 0x6E 0x66 0xDEADBEEF 0xEB51 0x11 0x22 0xFF 0x33) := by decide +kernel
theorem test_decode_okTok : decode (.message .okTok [0x4F, 0x4B]) = .ok .okTok := by decide +kernel
theorem test_decode_bootTok :
    decode (.message .bootTok [0x62, 0x6F, 0x6F, 0x74]) = .ok (.bootTok 0x62 0x6F 0x6F 0x74) := rfl
theorem test_decode_readyTok :
    decode (.message .readyTok [0x75, 0x70, 0x72, 0x65, 0x64, 0x79]) =
      .ok (.readyTok 0x75 0x70 0x72 0x65 0x64 0x79) := rfl
theorem test_decode_chunk : decode (.message .chunk [0x83, 0x8A]) = .ok (.chunk [0x83, 0x8A]) := by decide +kernel

theorem test_decode_unknown_code : decode (.command [0x03]) = .error (.unknownCode 0x03) := rfl
theorem test_decode_short_word : decode (.command [0x01]) = .error (.wrongLength 0x01) := rfl
theorem test_decode_long_word : decode (.command [0x00, 0x00]) = .error (.wrongLength 0x00) := rfl
theorem test_decode_no_word : decode (.command []) = .error .emptyWord := rfl
theorem test_decode_other_function :
    decode (.message .rhrReq [0x01, 0x04, 0x00, 0x00, 0x00, 0x04, 0x44, 0x09]) =
      .error (.notThatMessage .rhrReq) := by decide +kernel

theorem test_table_word_command : decodeTableWord 8 0x44 = some .phXfer := by decide +kernel
theorem test_table_word_operands_zero : decodeTableWord 8 0x10 = some (.encRhr 0 0 0) := by decide +kernel
theorem test_table_word_okTok : decodeTableWord 16 20299 = some .okTok := by decide +kernel
theorem test_table_word_rd4Req : decodeTableWord 64 0x0103000000044409 = some .rd4Req := by decide +kernel
theorem test_table_word_rd4Rsp :
    decodeTableWord 104 0x010308EB1500000000001409E2 =
      some (.rd4Rsp 0xEB15 0 0 0 0 0 0x14 0xE209) := by decide +kernel

/-! ## One step of each operation, on small states

The open parameters are given values for the tests only; a 130-byte image is the one of 95_test_vectors.md section 6. -/

/-- A configuration for tests. -/
def cfg : SessionConfig where
  tokQuery := [0x51]
  tokBoot := #v[0x62, 0x6F, 0x6F, 0x74]
  rebootAck := 0x5B
  tokGetInfo := [0x47, 0x49]
  infoPrefix := #v[0x69, 0x6E, 0x66]
  tokStart := [0x53]
  tokReady := #v[0x75, 0x70, 0x72, 0x65, 0x64, 0x79]
  image := (List.range 130).map (fun i => BitVec.ofNat 8 (7 * i + 3))
  portId := "test"
  baud := 115200
  verbose := false

/-- The reset state with that configuration and a link that answers as scripted. -/
def start (reads : List ReadDraw) (writes : List WriteDraw) : State :=
  { State.reset with cfg := cfg, link := { reads := reads, writes := writes, calls := 0, log := [] } }

/-- A fresh reply in `RXBUF`. -/
def withRx (B : List Byte) : State := (start [] []).storeReply B

/-- The answer is a next state with the property. -/
def nextIs (r : Result) (p : State → Bool) : Bool :=
  match r with
  | .next t => p t
  | _ => false

/-- The answer is this refusal. -/
def refusedAs (r : Result) (why : Refusal) : Bool :=
  match r with
  | .refused x => decide (x = why)
  | _ => false

/-- The fault registers and the session after a fault. -/
def failedAs (k : ErrKind) (ph : ErrPhase) (B : List Byte) (c : Option Nat) (t : State) : Bool :=
  decide (t.err.kind = k ∧ t.err.phase = ph ∧ t.err.bytes = Memory.ofBytes B ∧
    t.err.blen.val = B.length ∧ t.err.chunk = c ∧ t.session = .failed)

/-- The valid response of T30. -/
def rspT30 : List Byte :=
  [0x01, 0x03, 0x08, 0xEB, 0x15, 0x00, 0x00, 0x00, 0x00, 0x00, 0x14, 0x9E, 0xE2]

/-- The info reply of T51. -/
def infoT51 : List Byte :=
  [0x69, 0x6E, 0x66, 0xEF, 0xBE, 0xAD, 0xDE, 0x51, 0xEB, 0x11, 0x22, 0xFF, 0x33]

-- V1, V2, T10, T13, T7, T8
theorem test_crc16_V1 : crc16 [0x01, 0x03, 0x00, 0x00, 0x00, 0x04] = 0x0944 := by decide +kernel
theorem test_crc16_V2 : crc16 [0x01, 0x06, 0x01, 0x00, 0x16, 0x01] = 0x9647 := by decide +kernel
theorem test_crc16_T8 :
    crc16 [0x31, 0x32, 0x33, 0x34, 0x35, 0x36, 0x37, 0x38, 0x39] = 0x4B37 := by decide +kernel
theorem test_crcBit_T13 :
    [crcBit 0x0000, crcBit 0x0001, crcBit 0x8000, crcBit 0xFFFF] = [0x0000, 0xA001, 0x4000, 0xDFFE] := by
  decide +kernel
theorem test_crcOk_T17 :
    [crcOk [0x01, 0x03, 0x00, 0x00, 0x00, 0x04, 0x44, 0x09],
      crcOk [0x01, 0x03, 0x00, 0x00, 0x00, 0x04, 0x09, 0x44], crcOk [0xFF, 0xFF], crcOk [0xFF],
      crcOk []] = [true, false, true, false, false] := by decide +kernel

-- T19, T18
theorem test_crcInit :
    nextIs (exec .crcInit (start [] [])) (fun t => decide (t.crc = some 0xFFFF)) := by decide +kernel
theorem test_crcUpd :
    nextIs (exec (.crcUpd 0x01) ((start [] []).setCrc (some 0xFFFF)))
      (fun t => decide (t.crc = some 0x807E)) := by decide +kernel
theorem test_crcUpd_unwritten_T19 :
    refusedAs (exec (.crcUpd 0x01) (start [] [])) (.unwritten .crc) := by decide +kernel
theorem test_crcGet :
    nextIs (exec .crcGet ((start [] []).setCrc (some 0x0944)))
      (fun t => decide (t.out = .crcBytes 0x44 0x09 ∧ t.crc = some 0x0944)) := by decide +kernel
theorem test_crcGet_unwritten_T19 :
    refusedAs (exec .crcGet (start [] [])) (.unwritten .crc) := by decide +kernel

-- T28, T26, T29
theorem test_encRhr_T28 :
    nextIs (exec (.encRhr 1 0x1234 0xABCD) (start [] []))
      (fun t => decide (t.tx.buf.readBytes 0 8 =
        some [0x01, 0x03, 0x12, 0x34, 0xAB, 0xCD, 0xBF, 0xD9] ∧ t.tx.len.val = 8)) := by decide +kernel
theorem test_encWsr_T26 :
    nextIs (exec (.encWsr 0xFF 0xFFFF 0xFFFF) (start [] []))
      (fun t => decide (t.frame = [0xFF, 0x06, 0xFF, 0xFF, 0xFF, 0xFF, 0x9D, 0x80])) := by decide +kernel
theorem test_ldRd4_T29 :
    nextIs (exec .ldRd4 (start [] []))
      (fun t => decide (t.frame = [0x01, 0x03, 0x00, 0x00, 0x00, 0x04, 0x44, 0x09])) := by decide +kernel
theorem test_ldReboot_T29 :
    nextIs (exec .ldReboot ((start [] []).loadFrame Config.frameRd4))
      (fun t => decide (t.frame = [0x01, 0x06, 0x01, 0x00, 0x16, 0x01, 0x47, 0x96])) := by decide +kernel

-- T45: a session with no reply yet
theorem test_no_reply_T45 :
    ∀ i ∈ [Instr.decRhr4, .decAck, .decInfo, .cmpBoot, .chkReady, .chkOk],
      refusedAs (exec i (start [] [])) (.unwritten .reply) = true := by decide +kernel

-- T30, T39
theorem test_decRhr4_T30 :
    nextIs (exec .decRhr4 (withRx rspT30))
      (fun t => decide (t.pre = { model := some 60181, version := some 20, valid := true } ∧
        t.rx.fresh = false ∧ t.out = .preIdentity 60181 20)) := by decide +kernel
theorem test_decRhr4_T39 :
    nextIs (exec .decRhr4 (withRx
      [0x01, 0x03, 0x08, 0xEB, 0x15, 0x00, 0x00, 0x00, 0x00, 0x00, 0x14, 0xE2, 0x9E]))
      (fun t => failedAs .protocolViolation .legacy
        [0x01, 0x03, 0x08, 0xEB, 0x15, 0x00, 0x00, 0x00, 0x00, 0x00, 0x14, 0xE2, 0x9E] none t &&
        decide (t.rx.fresh = true ∧ t.pre.valid = false)) := by decide +kernel
-- T46, T48
theorem test_decAck_T46 :
    nextIs (exec .decAck (withRx [0x5B])) (fun t => decide (t.rx.fresh = false ∧ t.session = .idle)) := by
  decide +kernel
theorem test_decAck_T48 :
    nextIs (exec .decAck (withRx [])) (failedAs .protocolViolation .legacy [] none) := by decide +kernel
-- T51, T53
theorem test_decInfo_T51 :
    nextIs (exec .decInfo (withRx infoT51))
      (fun t => decide (t.ident =
        { serial := some 0xDEADBEEF, model := some 60241, version := some 0xFF, valid := true })) := by
  decide +kernel
theorem test_decInfo_T53 :
    nextIs (exec .decInfo (withRx [])) (failedAs .timeout .identify [] none) := by decide +kernel
-- T57, T58
theorem test_cmpBoot_T57 :
    nextIs (exec .cmpBoot (withRx [0x62, 0x6F, 0x6F, 0x74]))
      (fun t => decide (t.matched = true ∧ t.rx.fresh = false)) := by decide +kernel
theorem test_cmpBoot_T58 :
    nextIs (exec .cmpBoot ((withRx [0x62, 0x6F, 0x6F]).setMatched true))
      (fun t => decide (t.matched = false ∧ t.err.kind = .none)) := by decide +kernel
-- T59
theorem test_chkReady_T59 :
    nextIs (exec .chkReady (withRx [0x75, 0x70, 0x72, 0x65, 0x64, 0x79]))
      (fun t => decide (t.rx.fresh = false ∧ t.err.kind = .none)) := by decide +kernel
theorem test_chkReady_short_T59 :
    nextIs (exec .chkReady (withRx [0x75, 0x70, 0x72, 0x65, 0x64]))
      (failedAs .protocolViolation .transfer [0x75, 0x70, 0x72, 0x65, 0x64] none) := by decide +kernel
-- T60
theorem test_chkOk_T60 :
    nextIs (exec .chkOk ((withRx [0x4F, 0x4B]).setChunkIdx 1))
      (fun t => decide (t.rx.fresh = false ∧ t.err.chunk = none)) := by decide +kernel
theorem test_chkOk_lower_case_T60 :
    nextIs (exec .chkOk ((withRx [0x6F, 0x6B]).setChunkIdx 1))
      (failedAs .protocolViolation .transfer [0x6F, 0x6B] (some 1)) := by decide +kernel

-- T61 and R181
theorem test_send :
    nextIs (exec .send ((start [] [.ok]).loadFrame Config.frameRd4))
      (fun t => decide (t.link.log = [.wrote [0x01, 0x03, 0x00, 0x00, 0x00, 0x04, 0x44, 0x09]] ∧
        t.tx.len.val = 8)) := by decide +kernel
theorem test_send_nothing_T61 :
    refusedAs (exec .send (start [] [.ok])) (.unwritten .txFrame) := by decide +kernel
-- T63, T67
theorem test_recv_T63 :
    nextIs (exec (.recv 13) (start [.bytes [1, 2, 3, 4, 5]] []))
      (fun t => decide (t.rx.len.val = 5 ∧ t.rx.fresh = true ∧ t.reply = [1, 2, 3, 4, 5])) := by
  decide +kernel
theorem test_recv_T67 :
    nextIs (exec (.recv 13) (((withRx [1]).setSession .bootloaderConfirmed).setLink
      { reads := [.ioError], writes := [], calls := 0, log := [] }))
      (fun t => failedAs .transportFailure .identify [] none t &&
        decide (t.rx = (withRx [1]).rx)) := by decide +kernel
-- T62
theorem test_recv_T62 :
    refusedAs (exec (.recv 0) (start [] [])) .operandOutOfRange &&
      refusedAs (exec (.recv 14) (start [] [])) .operandOutOfRange := by decide +kernel
-- T66, R184
theorem test_setdl_T66 :
    nextIs (exec (.setdl 5) (start [] [])) (fun t => decide (t = (start [] []).setDeadline 5)) := by
  decide +kernel
theorem test_pause : nextIs (exec .pause (withRx [7])) (fun t => decide (t = withRx [7])) := by
  decide +kernel
-- R185, T64, D20
theorem test_sendtok :
    nextIs (exec (.sendtok 1) (start [] [.ok]))
      (fun t => decide (t.link.log = [.wrote [0x47, 0x49]] ∧ t.tx.len.val = 0)) := by decide +kernel
theorem test_sendtok_bounds_T64_D20 :
    refusedAs (exec (.sendtok 3) (start [] [.ok])) .operandOutOfRange &&
      nextIs (exec (.sendtok 2) (start [] [.ok]))
        (fun t => decide (t.link.log = [.wrote [0x53]])) := by decide +kernel
-- T65
theorem test_sendchunk_T65 :
    nextIs (exec .sendchunk (((start [] [.ok]).setSession .transferring).setChunkIdx 2))
      (fun t => decide (t.link.log = [.wrote [0x83, 0x8A]] ∧ t.chunkIdx = 2)) := by decide +kernel
theorem test_sendchunk_past_the_end_T65 :
    refusedAs (exec .sendchunk (((start [] [.ok]).setSession .transferring).setChunkIdx 3))
      .noSuchChunk := by decide +kernel

-- P3 and P4, first command
theorem test_phDetect_boot :
    nextIs (exec .phDetect (start [.bytes [0x62, 0x6F, 0x6F, 0x74]] [.ok]))
      (fun t => decide (t.session = .bootloaderConfirmed ∧ t.matched = true ∧
        writesOf t.link.log = [[0x51]])) := by decide +kernel
theorem test_phDetect_silent :
    nextIs (exec .phDetect (start [.bytes []] [.ok]))
      (fun t => decide (t.session = .legacyDetected ∧ t.err.kind = .none)) := by decide +kernel
-- P4 and P6, second command
theorem test_phLegacy_P4 :
    nextIs (exec .phLegacy ((start [.bytes rspT30, .bytes [0x5B]] [.ok, .ok]).setSession .legacyDetected))
      (fun t => decide (t.session = .bootloaderConfirmed ∧ t.deadline = 5 ∧ t.pre.model = some 60181 ∧
        t.frame = [0x01, 0x06, 0x01, 0x00, 0x16, 0x01, 0x47, 0x96])) := by decide +kernel
theorem test_phLegacy_silent_P6 :
    nextIs (exec .phLegacy ((start [.bytes []] [.ok, .ok]).setSession .legacyDetected))
      (fun t => failedAs .timeout .legacy [] none t &&
        decide (writesOf t.link.log = [[0x01, 0x03, 0x00, 0x00, 0x00, 0x04, 0x44, 0x09]] ∧
          t.deadline = 5)) := by decide +kernel
-- P3, second command; T70; R200 with R163: the link fails before a second DEC.INFO is come to
theorem test_phIdent :
    nextIs (exec .phIdent ((start [.bytes infoT51] [.ok]).setSession .bootloaderConfirmed))
      (fun t => decide (t.session = .identityKnown ∧ t.ident.model = some 60241 ∧
        writesOf t.link.log = [[0x47, 0x49]])) := by decide +kernel
theorem test_phIdent_refused_T70_R200 :
    refusedAs (exec .phIdent (start [.bytes infoT51] [.ok])) (.wrongSession .idle) &&
      nextIs (exec .phIdent ({ start [.ioError] [.ok] with
          session := .bootloaderConfirmed,
          ident := { serial := some 7, model := some 60181, version := some 20, valid := true } }))
        (fun t => failedAs .transportFailure .identify [] none t &&
          decide (writesOf t.link.log = [[0x47, 0x49]] ∧ t.ident.model = some 60181)) := by
  decide +kernel
-- T68
theorem test_phGate_T68 :
    nextIs (exec .phGate (((start [] []).setSession .identityKnown).setIdent
      { serial := some 7, model := some 60241, version := some 20, valid := true }))
      (fun t => decide (t.session = .modelValidated)) := by decide +kernel
theorem test_phGate_unregistered_T68 :
    nextIs (exec .phGate (((start [] []).setSession .identityKnown).setIdent
      { serial := some 7, model := some 60180, version := some 20, valid := true }))
      (failedAs .unsupportedModel .gate [] none) := by decide +kernel
-- P3 and P5, fourth command
theorem test_phXfer_P3 :
    nextIs (exec .phXfer ((start [.bytes [0x75, 0x70, 0x72, 0x65, 0x64, 0x79], .bytes [0x4F, 0x4B],
      .bytes [0x4F, 0x4B], .bytes [0x4F, 0x4B]] [.ok, .ok, .ok, .ok]).setSession .modelValidated))
      (fun t => decide (t.session = .complete ∧ t.chunkIdx = 3 ∧
        (writesOf t.link.log).map List.length = [1, 64, 64, 2])) := by decide +kernel
theorem test_phXfer_P5 :
    nextIs (exec .phXfer ((start [.bytes [0x75, 0x70, 0x72, 0x65, 0x64, 0x79], .bytes [0x4F, 0x4B],
      .bytes [0x00, 0xFF]] [.ok, .ok, .ok, .ok]).setSession .modelValidated))
      (fun t => failedAs .protocolViolation .transfer [0x00, 0xFF] (some 1) t &&
        decide (t.chunkIdx = 1 ∧ t.rx.fresh = true ∧
          (writesOf t.link.log).map List.length = [1, 64, 64])) := by decide +kernel

-- The messages: T24, T25, R85, R86, R94, R87 to R92
theorem test_rhrReq :
    nextIs (exec (.rhrReq 0x02 0x0010 0x0002 0xFDC5) (start [] [.ok]))
      (fun t => decide (t.link.log = [.wrote [0x02, 0x03, 0x00, 0x10, 0x00, 0x02, 0xC5, 0xFD]])) := by
  decide +kernel
theorem test_rhrReq_wrong_crc :
    refusedAs (exec (.rhrReq 0x02 0x0010 0x0002 0xC5FD) (start [] [.ok])) .checksumMismatch := by
  decide +kernel
theorem test_wsrReq :
    nextIs (exec (.wsrReq 0x01 0x0012 0x0001 0x0FE8) (start [] [.ok]))
      (fun t => decide (t.link.log = [.wrote [0x01, 0x06, 0x00, 0x12, 0x00, 0x01, 0xE8, 0x0F]])) := by
  decide +kernel
theorem test_rd4Req :
    nextIs (exec .rd4Req (start [] [.ok])) (fun t => decide (t.link.log = [.wrote Config.frameRd4])) := by
  decide +kernel
theorem test_rebootReq :
    nextIs (exec .rebootReq (start [] [.ok]))
      (fun t => decide (t.link.log = [.wrote Config.frameReboot])) := by decide +kernel
theorem test_rd4Rsp :
    nextIs (exec (.rd4Rsp 60181 0 0 0 0 0 20 0xE29E) (start [] []))
      (fun t => decide (t.reply = rspT30 ∧ t.rx.fresh = true)) := by decide +kernel
theorem test_rebootAck :
    nextIs (exec (.rebootAck 0x5B) (start [] [])) (fun t => decide (t.reply = [0x5B])) := by
  decide +kernel
theorem test_infoRsp :
    nextIs (exec (.infoRsp 0x69 0x6E 0x66 0xDEADBEEF 60241 0x11 0x22 0xFF 0x33) (start [] []))
      (fun t => decide (t.reply = infoT51)) := by decide +kernel
theorem test_okTok :
    nextIs (exec .okTok (start [] [])) (fun t => decide (t.reply = [0x4F, 0x4B])) := by decide +kernel
theorem test_bootTok :
    nextIs (exec (.bootTok 1 2 3 4) (start [] [])) (fun t => decide (t.reply = [1, 2, 3, 4])) := by
  decide +kernel
theorem test_readyTok :
    nextIs (exec (.readyTok 1 2 3 4 5 6) (start [] []))
      (fun t => decide (t.reply = [1, 2, 3, 4, 5, 6])) := by decide +kernel
theorem test_chunk :
    nextIs (exec (.chunk [0x83, 0x8A]) (((start [] [.ok]).setSession .transferring).setChunkIdx 2))
      (fun t => decide (t.link.log = [.wrote [0x83, 0x8A]])) := by decide +kernel
theorem test_chunk_other_bytes :
    refusedAs (exec (.chunk [0x83]) (((start [] [.ok]).setSession .transferring).setChunkIdx 2))
      .notTheNextChunk := by decide +kernel

-- R229, R193, R188, R37, R38, R98, T69
theorem test_sticky_T71 :
    refusedAs (exec .crcInit ((start [] []).raise .timeout .legacy none none)) .sessionFailed := by
  decide +kernel
theorem test_complete_T70 :
    refusedAs (exec .pause ((start [] []).setSession .complete)) .sessionComplete := by decide +kernel
theorem test_session_codes :
    [Session.idle.code, Session.legacyDetected.code, Session.identityKnown.code, Session.failed.code] =
      [0, 2, 5, 9] := by decide +kernel
theorem test_err_codes :
    [ErrKind.timeout.code, ErrKind.protocolViolation.code, ErrKind.unsupportedModel.code,
      ErrKind.transportFailure.code, ErrPhase.legacy.code, ErrPhase.gate.code, ErrPhase.transfer.code] =
      [1, 2, 3, 4, 2, 4, 5] := by decide +kernel
theorem test_version_parts : versionParts 0x14 = (0, 20) ∧ versionParts 0x7B = (1, 23) := by
  decide +kernel
theorem test_nchunks_T69 :
    [0, 1, 64, 65, 128, 130, 4096, 100000].map nchunks = [0, 1, 1, 2, 2, 3, 64, 1563] := by
  decide +kernel

-- The step, from reset: a table word runs as the first instruction
theorem test_step_first_command :
    nextIs (step (State.reset.withFetchWord 8 0x00)) (fun t => decide (t.crc = some 0xFFFF)) := by
  decide +kernel
theorem test_step_idle : nextIs (step State.reset) (fun t => decide (t.session = .idle)) := by
  decide +kernel
theorem test_step_unknown_code :
    refusedAs (step ((start [] []).setInput [.command [0x45]])) (.illegalInput (.unknownCode 0x45)) := by
  decide +kernel
theorem test_step_okTok_from_reset :
    nextIs (step (State.reset.withFetchWord 16 20299)) (fun t => decide (t.reply = [0x4F, 0x4B])) := by
  decide +kernel

/-! ## Witnesses: concrete states and operands that meet the hypotheses of each statement of Certificates/Slice0/Obligations.lean, for each clause at the bounds of its range -/

/-- Any instruction answers some next state here. -/
def runs (i : Instr) (s : State) : Bool := nextIs (exec i s) (fun _ => true)

/-- A session in the given state, with scripted answers. -/
def inState (x : Session) (reads : List ReadDraw) (writes : List WriteDraw) : State :=
  (start reads writes).setSession x

/-- A decoded identity with this model code. -/
def identified (m : Word) : Identity :=
  { serial := some 7, model := some m, version := some 20, valid := true }

/-- A session that passed the gate, with its transfer open. -/
def inTransfer (idx : Nat) (writes : List WriteDraw) : State :=
  ((inState .transferring [] writes).setIdent (identified 60181)).setChunkIdx idx

theorem witness_DecodeEncodeAgree :
    [Instr.recv 1, .recv 13, .sendtok 2, .chunk [0x55], .chunk (List.replicate 64 0xAA),
      .rhrReq 1 0 4 0x0944, .wsrReq 1 0x0100 0x1601 0x9647,
      .rd4Rsp 0xEB15 0 0 0 0 0 0x14 0xE29E].all Instr.wellFormed = true := by decide +kernel
theorem witness_EncodeDecodeAgree :
    decode (.command [0x34, 0x02]) = .ok (.sendtok 2) ∧
    decode (.message .okTok [0x4F, 0x4B]) = .ok .okTok := by decide +kernel
theorem witness_BadCommandsAreRefused :
    (∀ op ∈ [0x03#8, 0x0F#8, 0x14#8, 0x26#8, 0x36#8, 0x45#8, 0xFF#8],
      op.toNat ∉ [0x00, 0x01, 0x02, 0x10, 0x11, 0x12, 0x13, 0x20, 0x21, 0x22, 0x23, 0x24, 0x25,
        0x30, 0x31, 0x32, 0x33, 0x34, 0x35, 0x40, 0x41, 0x42, 0x43, 0x44]) ∧
    ((start [] []).setInput [.command [0x45, 0x00]]).input = .command (0x45#8 :: [0x00#8]) :: [] ∧
    (start [] []).live = true ∧ (0#8).toNat = 0 ∧ 13 < (14#8).toNat ∧ 2 < (3#8).toNat := by
  decide +kernel
theorem witness_StepRunsDecodedInstruction :
    ((start [] []).setInput [.command [0x31, 0x0D]]).input = .command [0x31, 0x0D] :: [] ∧
    decode (.command [0x31, 0x0D]) = .ok (.recv 13) ∧ State.reset.input = [] := by decide +kernel
theorem witness_StreamingOperationsDriveTheAccumulator :
    (start [] []).live = true ∧ ((start [] []).setCrc (some 0xFFFF)).live = true ∧
    ((start [] []).setCrc (some 0xFFFF)).crc = some 0xFFFF ∧ (start [] []).crc = none ∧
    ((start [] []).raise .timeout .legacy none none).err.kind ≠ .none := by decide +kernel
theorem witness_StreamingEqualsMessageChecksum :
    (start [] []).live = true ∧ ((start [] []).setCrc (some 0xFFFF)).crc = some 0xFFFF ∧
    Instr.crcInit ∉ [Instr.crcUpd 1, .ldRd4, .crcUpd 3] ∧
    nextIs (runAll [.crcUpd 1, .ldRd4, .crcUpd 3] ((start [] []).setCrc (some 0xFFFF)))
      (fun t => decide (t.crc = some (crc16 [1, 3]))) = true := by decide +kernel
theorem witness_ChecksumResidueIsZero :
    2 ≤ ([0xFF, 0xFF] : List Byte).length ∧ crcOk [0xFF, 0xFF] = true ∧ crc16 [0xFF, 0xFF] = 0 := by
  decide +kernel
theorem witness_ChecksumIsLinear :
    ([1, 2] : List Byte).length = ([3, 4] : List Byte).length ∧
    ([3, 4] : List Byte).length = ([5, 6] : List Byte).length := by decide
theorem witness_OtherOperationsIgnoreTheAccumulator :
    Instr.ldRd4 ≠ .crcInit ∧ (∀ b, Instr.ldRd4 ≠ .crcUpd b) ∧ Instr.ldRd4 ≠ .crcGet ∧
    runs .ldRd4 (start [] []) = true := by
  refine ⟨by decide, ?_, by decide, by decide +kernel⟩
  intro b h
  cases h
theorem witness_EncodersBuildRequests : (start [] []).live = true := by decide +kernel
theorem witness_FixedFramesAreLoaded :
    (start [] []).live = true ∧ ((start [] []).raise .timeout .legacy none none).err.kind ≠ .none := by
  decide +kernel
theorem witness_EncodedFramesCarryTheirChecksum :
    [Instr.encRhr 0xFF 0xFFFF 0xFFFF, .encWsr 0 0 0, .ldRd4, .ldReboot].all
      (fun i => runs i (start [] [])) = true := by decide +kernel
theorem witness_RaiseWritesTheErrorRegisters :
    (List.replicate 13 (0#8)).length ≤ 13 ∧ ([] : List Byte).length ≤ 13 ∧
    ErrKind.protocolViolation ≠ .none := by decide
/-- A stored reply of at most 13 bytes is the reply. -/
theorem withRx_hasReply {B : List Byte} (h : B.length ≤ 13) : (withRx B).hasReply B := by
  simp [State.hasReply, withRx, Nat.min_eq_left h]
theorem witness_DecRhr4ValidatesThenExtracts :
    ((withRx []).hasReply [] ∧ (withRx []).live = true ∧ (withRx []).rx.fresh = true) ∧
    ((withRx [1]).hasReply [1] ∧ (withRx [1]).live = true ∧ (withRx [1]).rx.fresh = true ∧
      rhr4Ok [1] = false) ∧
    ((withRx (rspT30.take 12)).hasReply (rspT30.take 12) ∧ (withRx (rspT30.take 12)).live = true ∧
      (withRx (rspT30.take 12)).rx.fresh = true ∧ rhr4Ok (rspT30.take 12) = false) ∧
    ((withRx rspT30).hasReply rspT30 ∧ (withRx rspT30).live = true ∧
      (withRx rspT30).rx.fresh = true ∧ rhr4Ok rspT30 = true) :=
  ⟨⟨withRx_hasReply (by decide), by decide +kernel⟩, ⟨withRx_hasReply (by decide), by decide +kernel⟩,
    ⟨withRx_hasReply (by decide), by decide +kernel⟩, ⟨withRx_hasReply (by decide), by decide +kernel⟩⟩
theorem witness_DecAckComparesOneByte :
    ((withRx [0x5B]).hasReply [0x5B] ∧ (withRx [0x5B]).live = true ∧ (withRx [0x5B]).rx.fresh = true ∧
      [0x5B#8] = [(withRx [0x5B]).cfg.rebootAck]) ∧
    ((withRx []).hasReply [] ∧ (withRx []).live = true ∧ (withRx []).rx.fresh = true ∧
      ([] : List Byte) ≠ [(withRx []).cfg.rebootAck]) :=
  ⟨⟨withRx_hasReply (by decide), by decide +kernel⟩, ⟨withRx_hasReply (by decide), by decide +kernel⟩⟩
theorem witness_DecInfoValidatesThenExtracts :
    ((withRx []).hasReply [] ∧ (withRx []).live = true ∧ (withRx []).rx.fresh = true ∧
      (withRx []).ident.valid = false) ∧
    ((withRx (infoT51.take 12)).hasReply (infoT51.take 12) ∧ (withRx (infoT51.take 12)).live = true ∧
      (withRx (infoT51.take 12)).rx.fresh = true ∧ (withRx (infoT51.take 12)).ident.valid = false ∧
      ¬((infoT51.take 12).length = 13 ∧ (infoT51.take 12).take 3 = cfg.infoPrefix.toList)) ∧
    ((withRx infoT51).hasReply infoT51 ∧ (withRx infoT51).live = true ∧
      (withRx infoT51).rx.fresh = true ∧ (withRx infoT51).ident.valid = false ∧
      infoT51.length = 13 ∧ infoT51.take 3 = cfg.infoPrefix.toList) :=
  ⟨⟨withRx_hasReply (by decide), by decide +kernel⟩, ⟨withRx_hasReply (by decide), by decide +kernel⟩,
    ⟨withRx_hasReply (by decide), by decide +kernel⟩⟩
theorem witness_TokenComparisonsMatchWholeTokens :
    ((withRx [0x4F, 0x4B]).hasReply [0x4F, 0x4B] ∧ (withRx [0x4F, 0x4B]).live = true ∧
      (withRx [0x4F, 0x4B]).rx.fresh = true ∧ [0x4F#8, 0x4B#8] ≠ cfg.tokReady.toList) ∧
    ((withRx cfg.tokReady.toList).hasReply cfg.tokReady.toList ∧
      (withRx cfg.tokReady.toList).live = true ∧ (withRx cfg.tokReady.toList).rx.fresh = true ∧
      cfg.tokReady.toList ≠ [0x4F, 0x4B]) :=
  ⟨⟨withRx_hasReply (by decide), by decide +kernel⟩, ⟨withRx_hasReply (by decide), by decide +kernel⟩⟩
theorem witness_UnwrittenRegistersAreNotRead :
    (inState .identityKnown [] []).live = true ∧ (inState .identityKnown [] []).session = .identityKnown ∧
    (inState .identityKnown [] []).ident.valid = false ∧ (inState .identityKnown [] []).rx.fresh = false ∧
    (inState .identityKnown [] []).tx.len.val = 0 ∧ (inState .identityKnown [] []).crc = none := by
  decide +kernel
theorem witness_SendWritesTheFrame :
    ((start [] [.ok]).loadFrame Config.frameRd4).hasFrame Config.frameRd4 ∧
    ((start [] [.ok]).loadFrame Config.frameRd4).live = true ∧
    ((start [] [.ok]).loadFrame Config.frameRd4).tx.len.val ≠ 0 ∧
    ((start [] [.ok]).loadFrame Config.frameRd4).link.nextWrite = .ok ∧
    ((start [] [.ioError 3]).loadFrame Config.frameRd4).link.nextWrite = .ioError 3 ∧
    (start [] []).hasFrame [] ∧ (start [] []).tx.len.val = 0 := by
  unfold State.hasFrame
  decide +kernel
theorem witness_RecvStoresTheReply :
    (start [.bytes []] []).live = true ∧ 1 ≤ (1#8).toNat ∧ (13#8).toNat ≤ 13 ∧
    (start [.bytes []] []).link.nextRead = .bytes [] ∧
    (start [.bytes rspT30] []).link.nextRead = .bytes rspT30 ∧
    (start [.ioError] []).link.nextRead = .ioError := by decide +kernel
theorem witness_SetdlAndPause : (start [] []).live = true := by decide +kernel
theorem witness_SendtokWritesTheToken :
    (start [] [.ok]).live = true ∧ (start [] [.ok]).link.nextWrite = .ok ∧
    (start [] [.ioError 0]).link.nextWrite = .ioError 0 ∧
    (0#8) = 0 ∧ ([0x51] : List Byte) = (start [] [.ok]).cfg.tokQuery ∧
    (inState .transferring [] [.ok]).live = true ∧ (inState .transferring [] [.ok]).link.nextWrite = .ok ∧
    (2#8) = 2 ∧ ([0x53] : List Byte) = (inState .transferring [] [.ok]).cfg.tokStart ∧
    ([0x53] : List Byte) = (start [] [.ok]).cfg.tokStart ∧ 2 < (3#8).toNat := by decide +kernel
theorem witness_SendchunkWritesTheSelectedChunk :
    (inTransfer 2 [.ok]).live = true ∧ (inTransfer 2 [.ok]).session = .transferring ∧
    (inTransfer 2 [.ok]).chunkIdx < ((inTransfer 2 [.ok]).cfg.image.length + 63) / 64 ∧
    (inTransfer 2 [.ok]).link.nextWrite = .ok ∧
    (inTransfer 0 [.ioError 64]).link.nextWrite = .ioError 64 ∧
    ((inTransfer 3 []).cfg.image.length + 63) / 64 ≤ (inTransfer 3 []).chunkIdx ∧
    (start [] []).session ≠ .transferring := by decide +kernel
theorem witness_LinkFaultsRecordThePhase :
    nextIs (exec (.recv 13) (inState .rebootRequested [.ioError] []))
      (fun t => decide (t.err.kind ≠ .none)) = true ∧
    nextIs (exec (.sendtok 2) (inState .transferring [] [.ioError 0]))
      (fun t => decide (t.err.kind ≠ .none)) = true ∧
    nextIs (exec .send ((inState .bootloaderUnconfirmed [] [.ioError 8]).loadFrame Config.frameRd4))
      (fun t => decide (t.err.kind ≠ .none)) = true := by decide +kernel
theorem witness_PhDetectIsItsSequence :
    (start [.bytes []] [.ok]).live = true ∧ (start [.bytes []] [.ok]).session = .idle ∧
    (start [.bytes []] [.ok]).link.nextWrite = .ok ∧
    ((start [.bytes []] [.ok]).link.tookWrite (.wrote cfg.tokQuery)).nextRead = .bytes [] ∧
    runs .phDetect (start [.ioError] [.ok]) = true := by decide +kernel
theorem witness_PhLegacyIsItsSequence :
    (inState .legacyDetected [.bytes rspT30, .bytes [0x5B]] [.ok, .ok]).live = true ∧
    rhr4Ok rspT30 = true ∧
    (inState .legacyDetected [.bytes rspT30, .bytes [0x5B]] [.ok, .ok]).link.reads =
      .bytes rspT30 :: .bytes [cfg.rebootAck] :: [] ∧
    (inState .legacyDetected [.bytes rspT30, .bytes [0x5B]] [.ok, .ok]).link.writes = .ok :: .ok :: [] ∧
    ((inState .legacyDetected [.bytes []] [.ok]).link.tookWrite (.wrote Config.frameRd4)).nextRead =
      .bytes [] ∧
    rhr4Ok (([] : List Byte).take 13) = false ∧ rhr4Ok ((rspT30.take 12).take 13) = false := by
  decide +kernel
/-- A session with an identity and an unread info reply, and a link that answers as scripted. -/
def identifiedTwice (reads : List ReadDraw) (writes : List WriteDraw) : State :=
  { withRx infoT51 with
    session := .bootloaderConfirmed, ident := identified 60181
    link := { reads := reads, writes := writes, calls := 0, log := [] } }

theorem witness_PhIdentIsItsSequence :
    (inState .bootloaderConfirmed [.bytes infoT51] [.ok]).live = true ∧
    (inState .bootloaderConfirmed [.bytes infoT51] [.ok]).session = .bootloaderConfirmed ∧
    (inState .bootloaderConfirmed [.bytes infoT51] [.ok]).ident.valid = false ∧
    infoT51.length = 13 ∧ infoT51.take 3 = cfg.infoPrefix.toList ∧
    (inState .bootloaderConfirmed [.bytes infoT51] [.ok]).link.reads = .bytes infoT51 :: [] ∧
    (inState .bootloaderConfirmed [.bytes infoT51] [.ok]).link.writes = .ok :: [] := by decide +kernel
theorem witness_PhIdentIsItsSequence_second :
    (identifiedTwice [.bytes infoT51] [.ok]).hasReply infoT51 ∧
    (identifiedTwice [.bytes infoT51] [.ok]).live = true ∧
    (identifiedTwice [.bytes infoT51] [.ok]).ident.valid = true ∧
    (identifiedTwice [.bytes infoT51] [.ok]).rx.fresh = true ∧
    (identifiedTwice [.bytes infoT51] [.ok]).session = .bootloaderConfirmed ∧
    (identifiedTwice [.bytes infoT51] [.ok]).link.nextWrite = .ok ∧
    ((identifiedTwice [.bytes infoT51] [.ok]).link.tookWrite (.wrote cfg.tokGetInfo)).nextRead =
      .bytes infoT51 :=
  ⟨withRx_hasReply (B := infoT51) (by decide), by decide +kernel⟩
theorem witness_PhIdentIsItsSequence_link_faults :
    (identifiedTwice [] [.ioError 1]).live = true ∧
    (identifiedTwice [] [.ioError 1]).session = .bootloaderConfirmed ∧
    (identifiedTwice [] [.ioError 1]).link.nextWrite = .ioError 1 ∧
    (identifiedTwice [.ioError] [.ok]).live = true ∧
    (identifiedTwice [.ioError] [.ok]).link.nextWrite = .ok ∧
    ((identifiedTwice [.ioError] [.ok]).link.tookWrite (.wrote cfg.tokGetInfo)).nextRead = .ioError := by
  decide +kernel
theorem witness_PhGateTestsTheRegistry :
    ((inState .identityKnown [] []).setIdent (identified 60062)).live = true ∧
    ((inState .identityKnown [] []).setIdent (identified 60062)).ident.model = some 60062 ∧
    (60062#16).toNat ∈ [60062, 60065, 60066, 60121, 60125, 60181, 60241] ∧
    (60241#16).toNat ∈ [60062, 60065, 60066, 60121, 60125, 60181, 60241] ∧
    (60063#16).toNat ∉ [60062, 60065, 60066, 60121, 60125, 60181, 60241] := by decide +kernel
theorem witness_PhXferIsItsSequence :
    (inState .modelValidated [.ioError] [.ok]).live = true ∧
    (inState .modelValidated [.ioError] [.ok]).session = .modelValidated ∧
    runs .phXfer (inState .modelValidated [.ioError] [.ok]) = true := by decide +kernel
theorem witness_PhXferSendsTheWholeImage :
    (inState .modelValidated
      (.bytes cfg.tokReady.toList :: List.replicate 3 (.bytes [0x4F, 0x4B])) (List.replicate 4 .ok)).link.reads =
      .bytes cfg.tokReady.toList ::
        (List.replicate ((cfg.image.length + 63) / 64) (.bytes [0x4F, 0x4B]) ++ []) ∧
    (inState .modelValidated
      (.bytes cfg.tokReady.toList :: List.replicate 3 (.bytes [0x4F, 0x4B])) (List.replicate 4 .ok)).link.writes =
      .ok :: (List.replicate ((cfg.image.length + 63) / 64) .ok ++ []) := by decide +kernel
/-- A session that may transfer, with an empty image. -/
def emptyImage : State :=
  { inState .modelValidated [.bytes cfg.tokReady.toList] [.ok] with cfg := { cfg with image := [] } }

theorem witness_PhXferSendsTheWholeImage_empty :
    emptyImage.live = true ∧ emptyImage.session = .modelValidated ∧
    emptyImage.link.reads =
      .bytes emptyImage.cfg.tokReady.toList ::
        (List.replicate ((emptyImage.cfg.image.length + 63) / 64) (.bytes [0x4F, 0x4B]) ++ []) ∧
    emptyImage.link.writes =
      .ok :: (List.replicate ((emptyImage.cfg.image.length + 63) / 64) .ok ++ []) := by decide +kernel
theorem witness_PhXferStopsAtTheFirstBadAcknowledgment_first :
    (inState .modelValidated [.bytes cfg.tokReady.toList, .bytes [0x4F, 0x4C, 0x4B]] [.ok, .ok]).live =
      true ∧
    0 < (cfg.image.length + 63) / 64 ∧ ([0x4F, 0x4C, 0x4B] : List Byte).take 2 ≠ [0x4F, 0x4B] ∧
    (inState .modelValidated [.bytes cfg.tokReady.toList, .bytes [0x4F, 0x4C, 0x4B]]
      [.ok, .ok]).link.reads =
      .bytes cfg.tokReady.toList ::
        (List.replicate 0 (.bytes [0x4F, 0x4B]) ++ .bytes [0x4F, 0x4C, 0x4B] :: []) ∧
    (inState .modelValidated [.bytes cfg.tokReady.toList, .bytes [0x4F, 0x4C, 0x4B]]
      [.ok, .ok]).link.writes = .ok :: (List.replicate (0 + 1) .ok ++ []) := by decide +kernel
theorem witness_PhXferStopsAtTheFirstBadAcknowledgment :
    2 < (cfg.image.length + 63) / 64 ∧ ([] : List Byte).take 2 ≠ [0x4F, 0x4B] ∧
    (inState .modelValidated
      (.bytes cfg.tokReady.toList :: [.bytes [0x4F, 0x4B], .bytes [0x4F, 0x4B], .bytes []])
      (List.replicate 4 .ok)).link.reads =
      .bytes cfg.tokReady.toList :: (List.replicate 2 (.bytes [0x4F, 0x4B]) ++ .bytes [] :: []) ∧
    (inState .modelValidated
      (.bytes cfg.tokReady.toList :: [.bytes [0x4F, 0x4B], .bytes [0x4F, 0x4B], .bytes []])
      (List.replicate 4 .ok)).link.writes = .ok :: (List.replicate (2 + 1) .ok ++ []) := by
  decide +kernel
theorem witness_ChunksPartitionTheImage :
    1 + 1 < nchunks cfg.image.length ∧ 2 + 1 = nchunks cfg.image.length ∧
    0 + 1 = nchunks (List.replicate 64 (0#8)).length := by decide +kernel
theorem witness_PhasesRunFromTheirEntryStateOnly :
    (inState .transferring [] []).live = true ∧ (inState .transferring [] []).session ≠ .modelValidated ∧
    (inState .transferring [] []).session ≠ .idle ∧ (inState .complete [] []).session = .complete := by
  decide +kernel
theorem witness_SessionFollowsTheTransitionTable :
    nextIs (exec .phDetect (start [.bytes []] [.ok]))
      (fun t => decide (t.session = .legacyDetected)) = true := by decide +kernel
theorem witness_FaultsAreSticky :
    ((start [] []).raise .timeout .legacy none none).err.kind ≠ .none := by decide +kernel
theorem witness_FaultsArePrecise :
    nextIs (exec .chkOk (withRx [0x4F])) (fun t => decide (t.err.kind ≠ .none)) = true := by
  decide +kernel
theorem witness_ErrorKindsHaveTheirCauses :
    nextIs (exec .decInfo (withRx [])) (fun t => decide (t.err.kind = .timeout)) = true ∧
    nextIs (exec .phGate ((inState .identityKnown [] []).setIdent (identified 12345)))
      (fun t => decide (t.err.kind = .unsupportedModel)) = true ∧
    nextIs (exec .chkReady (withRx [])) (fun t => decide (t.err.kind = .protocolViolation)) = true ∧
    nextIs (exec .rd4Req (start [] [.ioError 0]))
      (fun t => decide (t.err.kind = .transportFailure)) = true := by
  decide +kernel
theorem witness_IdentityIsWrittenOnce :
    runs .ldRd4 ((start [] []).setIdent (identified 60181)) = true ∧
    ((start [] []).setIdent (identified 60181)).ident.valid = true ∧
    nextIs (exec .decInfo (withRx infoT51)) (fun t => decide (t.ident ≠ (withRx infoT51).ident)) = true := by
  decide +kernel
theorem witness_WriteMatrix :
    runs (.setdl 255) (start [] []) = true ∧ runs .decRhr4 (withRx rspT30) = true ∧
    nextIs (exec .decRhr4 (withRx rspT30)) (fun t => decide (t.rx.fresh ≠ (withRx rspT30).rx.fresh)) = true ∧
    nextIs (exec (.rebootAck 1) (withRx rspT30)) (fun t => decide (t.rx.len ≠ (withRx rspT30).rx.len)) =
      true := by decide +kernel
/-- A state that meets every invariant, with an operation presented. -/
def midTransfer : State :=
  ((inTransfer 2 [.ok]).loadFrame Config.frameReboot).setInput [.command [0x35]]

theorem exists_of_nextIs {r : Result} {p : State → Bool} (h : nextIs r p = true) :
    ∃ t, r = .next t := by
  cases r with
  | next t => exact ⟨t, rfl⟩
  | fault f => cases h
  | refused w => cases h

theorem midTransfer_step : ∃ t, step midTransfer = .next t :=
  exists_of_nextIs (p := fun _ => true) (by decide +kernel)
theorem witness_StepKeepsBuffers : midTransfer.BuffersInv ∧ ∃ t, step midTransfer = .next t :=
  ⟨⟨Memory.holds_ofBytes Config.frameReboot, .inr rfl, Memory.holds_nil, Memory.holds_nil,
    fun _ => rfl⟩, midTransfer_step⟩
theorem witness_StepKeepsBuffers_full : (withRx rspT30).BuffersInv :=
  ⟨Memory.holds_nil, .inl rfl, Memory.holds_ofBytes rspT30, Memory.holds_nil, fun _ => rfl⟩
theorem witness_StepKeepsFrameChecksum :
    midTransfer.FrameInv ∧ midTransfer.tx.len.val = Config.reqLen ∧ ∃ t, step midTransfer = .next t :=
  ⟨⟨fun _ => by decide +kernel⟩, by decide +kernel, midTransfer_step⟩
theorem witness_StepKeepsErrorRecord : midTransfer.ErrorInv ∧ ∃ t, step midTransfer = .next t :=
  ⟨by refine ⟨?_, ?_, ?_, ?_, ?_⟩ <;> decide +kernel, midTransfer_step⟩
theorem witness_StepKeepsErrorRecord_failed :
    ((start [] []).raise .protocolViolation .transfer (some [0x4F]) (some 0)).ErrorInv := by
  refine ⟨?_, ?_, ?_, ?_, ?_⟩ <;> decide +kernel
theorem witness_StepKeepsIdentityWhole : midTransfer.IdentityInv ∧ ∃ t, step midTransfer = .next t :=
  ⟨by refine ⟨?_, ?_, ?_, ?_, ?_⟩ <;> decide +kernel, midTransfer_step⟩
theorem witness_StepKeepsTheGate : midTransfer.GateInv ∧ ∃ t, step midTransfer = .next t :=
  ⟨⟨fun _ => by decide +kernel, fun _ => ⟨60181, by decide +kernel, by decide +kernel⟩⟩,
    midTransfer_step⟩
theorem witness_StepKeepsChunkIndex : midTransfer.ChunkInv ∧ ∃ t, step midTransfer = .next t :=
  ⟨⟨by decide +kernel, fun _ => by simp_all [midTransfer, inTransfer, inState]⟩, midTransfer_step⟩
theorem witness_StepKeepsChunkIndex_complete : ((inState .complete [] []).setChunkIdx 3).ChunkInv :=
  ⟨by decide +kernel, fun _ => by decide +kernel⟩
theorem witness_LinkHistoryOnlyGrows :
    nextIs (step midTransfer) (fun t => decide (t.link.log = [.wrote [0x83, 0x8A]])) = true := by
  decide +kernel
theorem witness_TransferNeedsRegisteredModel :
    (inTransfer 2 [.ok]).GateInv ∧ runs .sendchunk (inTransfer 2 [.ok]) = true ∧
    runs (.chunk [0x83, 0x8A]) (inTransfer 2 [.ok]) = true :=
  ⟨⟨fun _ => by decide +kernel, fun _ => ⟨60181, by decide +kernel, by decide +kernel⟩⟩,
    by decide +kernel⟩
theorem witness_TransferNeedsRegisteredModel_phase :
    ((inState .modelValidated [.ioError] [.ok]).setIdent (identified 60062)).GateInv ∧
    runs .phXfer ((inState .modelValidated [.ioError] [.ok]).setIdent (identified 60062)) = true :=
  ⟨⟨fun _ => by decide +kernel, fun _ => ⟨60062, by decide +kernel, by decide +kernel⟩⟩,
    by decide +kernel⟩
theorem witness_SentMessagesAreWritten :
    (inTransfer 2 [.ok]).live = true ∧ (inTransfer 2 [.ok]).link.nextWrite = .ok ∧
    (inTransfer 2 [.ok]).session = .transferring ∧
    (inTransfer 2 [.ok]).chunkIdx < nchunks (inTransfer 2 [.ok]).cfg.image.length ∧
    (0x0944#16) = crc16 [1, 0x03, hi8 0, lo8 0, hi8 4, lo8 4] ∧
    (0x4409#16) ≠ crc16 [1, 0x03, hi8 0, lo8 0, hi8 4, lo8 4] ∧
    ([0x83] : List Byte) ≠ chunkOf cfg.image 2 := by decide +kernel
theorem witness_ReceivedMessagesEnterTheBuffer :
    (start [] []).live = true ∧ runs (.readyTok 1 2 3 4 5 6) (start [] []) = true := by decide +kernel
theorem witness_ReadResponseIsDecoded :
    (start [] []).live = true ∧
    (0xE29E#16) = crc16 [0x01, 0x03, 0x08, hi8 0xEB15, lo8 0xEB15, 0, 0, 0, 0, 0, 0x14] ∧
    (0x9EE2#16) ≠ crc16 [0x01, 0x03, 0x08, hi8 0xEB15, lo8 0xEB15, 0, 0, 0, 0, 0, 0x14] := by
  decide +kernel
theorem witness_InfoReplyIsDecoded :
    (start [] []).live = true ∧ (start [] []).ident.valid = false ∧
    [0x69#8, 0x6E#8, 0x66#8] = cfg.infoPrefix.toList ∧
    [0x69#8, 0x6E#8, 0x67#8] ≠ cfg.infoPrefix.toList := by decide +kernel

end Sys2Proof.Tests
end

