-- ==== Sys2Proof/Proofs/FrameEncode.lean ====
section
/-! The fixed frames of the encoder (41_frame_encode.md R144, R145). -/

namespace Sys2Proof.Machine

theorem exec_ldRd4 (s : State) :
    exec .ldRd4 s = admitted s (.next (s.loadFrame Config.frameRd4)) := rfl

theorem exec_ldReboot (s : State) :
    exec .ldReboot s = admitted s (.next (s.loadFrame Config.frameReboot)) := rfl

/-- A whole frame fills `TXBUF[0..7]`; beside the transmit buffer and its length no field changes. -/
theorem loadFrame_of_length_eq {F : List Byte} (hF : F.length = 8) (s : State) :
    s.loadFrame F = { s with tx := { buf := s.tx.buf.writeBytes 0 F, len := 8 } } := by
  have hlen : lengthReg 8 F.length = 8 := by rw [hF]; rfl
  simp only [State.loadFrame, State.setTx, hlen]

/-- What loading a whole frame does in a live state. -/
theorem admitted_loadFrame_of_live {F : List Byte} (hF : F.length = 8) {s : State}
    (hs : s.live = true) :
    admitted s (.next (s.loadFrame F)) =
      .next { s with tx := { buf := s.tx.buf.writeBytes 0 F, len := 8 } } := by
  rw [admitted_of_live hs, loadFrame_of_length_eq hF]

end Sys2Proof.Machine

open Sys2Proof Sys2Proof.Machine

/-- Settles O16: both operations load a constant frame behind the common check, which passes in a live state and refuses after a fault. -/
theorem fixedFramesAreLoaded : Obligations.FixedFramesAreLoaded := by
  refine ⟨rfl, rfl, fun s => ⟨fun hlive => ?loaded, fun hfault => ?refused⟩⟩
  case loaded =>
    rw [exec_ldRd4, exec_ldReboot]
    exact ⟨admitted_loadFrame_of_live rfl hlive, admitted_loadFrame_of_live rfl hlive⟩
  case refused =>
    rw [exec_ldRd4, exec_ldReboot]
    exact ⟨admitted_of_faulted hfault _, admitted_of_faulted hfault _⟩

end

