-- ==== Sys2Proof/Proofs/TokenComparisons.lean ====
section
/-! The token comparisons of the decoder (42_frame_decode.md R164, R165, R167, R168). -/

namespace Sys2Proof.Machine

/-- The whole-token equality of R164 is agreement in length and at every offset of the token: beyond that length neither has a byte. -/
theorem tokEq_iff (B T : List Byte) :
    tokEq B T = true ↔ B.length = T.length ∧ ∀ i, i < T.length → B[i]? = T[i]? := by
  rw [tokEq, decide_eq_true_eq]
  constructor
  · rintro rfl
    exact ⟨rfl, fun _ _ => rfl⟩
  · rintro ⟨hlen, hbytes⟩
    refine List.ext_getElem?' fun i hi => hbytes i ?_
    rwa [hlen, max_self] at hi

section
variable {s : State} {B : List Byte} (hB : s.hasReply B) (hl : s.live = true)
  (hf : s.rx.fresh = true)
include hB hl hf

theorem exec_cmpBoot_of_fresh : exec .cmpBoot s = .next (s.compareBoot B) :=
  withReply_of_fresh hl hf hB _

theorem exec_chkReady_of_fresh : exec .chkReady s = .next (s.checkReady B) :=
  withReply_of_fresh hl hf hB _

theorem exec_chkOk_of_fresh : exec .chkOk s = .next (s.checkOk B) :=
  withReply_of_fresh hl hf hB _
end

/-- A body whose outcome turns on a test, read as one clause for each answer of the test. -/
theorem next_clauses_of_cases {p : Prop} {t passed failed : State}
    (h : (p ∧ t = passed) ∨ (¬p ∧ t = failed)) :
    (p → (.next t : Result) = .next passed) ∧ (¬p → (.next t : Result) = .next failed) := by
  obtain ⟨hp, rfl⟩ | ⟨hp, rfl⟩ := h
  · exact ⟨fun _ => rfl, fun hn => absurd hp hn⟩
  · exact ⟨fun h => absurd h hp, fun _ => rfl⟩

end Sys2Proof.Machine

open Sys2Proof Sys2Proof.Machine

/-- Settles O23: on a fresh reply each comparison runs its body over the received bytes; CHK.READY and CHK.OK then either consume the reply or raise, by whether these bytes are the whole token. -/
theorem tokenComparisonsMatchWholeTokens : Obligations.TokenComparisonsMatchWholeTokens := by
  refine ⟨rfl, rfl, rfl, tokEq_iff, fun s B hB hl hf => ?_⟩
  obtain ⟨hready, hnotReady⟩ := next_clauses_of_cases (checkReady_cases B s)
  obtain ⟨hok, hnotOk⟩ := next_clauses_of_cases (checkOk_cases B s)
  rw [exec_cmpBoot_of_fresh hB hl hf, exec_chkReady_of_fresh hB hl hf,
    exec_chkOk_of_fresh hB hl hf]
  exact ⟨rfl, hready, hnotReady, hok, hnotOk⟩

end

