-- ==== Sys2Proof/Proofs/Transport.lean ====
section
/-! The transport operations SEND, SETDL, PAUSE and SENDCHUNK (43_transport_ops.md R181, R183, R184, R186). -/

namespace Sys2Proof.Machine

/-- 44_session_phases.md R207 with the chunk size as its number. -/
theorem chunkOf_eq (image : List Byte) (i : Nat) :
    chunkOf image i = (image.drop (64 * i)).take 64 := rfl

/-! ## The calls of the link and the check of the session -/

theorem writeAll_of_ok {s : State} (h : s.link.nextWrite = .ok) (ph : ErrPhase) (B : List Byte) :
    s.writeAll ph B = { s with link := s.link.tookWrite (.wrote B) } := by
  simp only [State.writeAll, h, State.setLink]

theorem writeAll_of_ioError {s : State} {k : Nat} (h : s.link.nextWrite = .ioError k)
    (ph : ErrPhase) (B : List Byte) :
    s.writeAll ph B =
      ({ s with link := s.link.tookWrite (.writeFailed (B.take k)) } : State).raise
        .transportFailure ph none none := by
  simp only [State.writeAll, h, State.setLink]

theorem inSession_of_eq {x : Session} {s : State} (hl : s.live = true) (hs : s.session = x)
    (k : Result) : inSession x s k = k := by
  rw [inSession, admitted_of_live hl, if_pos hs]

theorem inSession_of_ne {x : Session} {s : State} (hl : s.live = true) (hs : s.session ≠ x)
    (k : Result) : inSession x s k = .refused (.wrongSession s.session) := by
  rw [inSession, admitted_of_live hl, if_neg hs]

/-! ## The operations in a live state -/

theorem exec_send (s : State) : exec .send s = execSend s := rfl

theorem exec_sendchunk (s : State) : exec .sendchunk s = execSendchunk s := rfl

section
variable {s : State} (hl : s.live = true)
include hl

theorem exec_send_of_frame {F : List Byte} (hF : s.hasFrame F) (hne : s.tx.len.val ≠ 0) :
    exec .send s = .next (s.writeAll (phaseOf s.session) F) := by
  rw [exec_send, execSend, admitted_of_live hl, if_neg hne, memRead_txbuf hF]

theorem exec_send_of_empty (h0 : s.tx.len.val = 0) :
    exec .send s = .refused (.unwritten .txFrame) := by
  rw [exec_send, execSend, admitted_of_live hl, if_pos h0]

theorem exec_setdl_of_live (d : Byte) : exec (.setdl d) s = .next { s with deadline := d.toNat } :=
  admitted_of_live hl _

theorem exec_pause_of_live : exec .pause s = .next s :=
  admitted_of_live hl _

theorem exec_sendchunk_of_lt (hs : s.session = .transferring)
    (hi : s.chunkIdx < nchunks s.cfg.image.length) :
    exec .sendchunk s = .next (s.writeAll .transfer (chunkOf s.cfg.image s.chunkIdx)) := by
  rw [exec_sendchunk, execSendchunk, inSession_of_eq hl hs, if_pos hi, State.sendChunk]

theorem exec_sendchunk_of_le (hs : s.session = .transferring)
    (hi : nchunks s.cfg.image.length ≤ s.chunkIdx) :
    exec .sendchunk s = .refused .noSuchChunk := by
  rw [exec_sendchunk, execSendchunk, inSession_of_eq hl hs, if_neg (Nat.not_lt.mpr hi)]

theorem exec_sendchunk_of_ne (hs : s.session ≠ .transferring) :
    exec .sendchunk s = .refused (.wrongSession s.session) :=
  inSession_of_ne hl hs _
end

end Sys2Proof.Machine

open Sys2Proof Sys2Proof.Machine

/-- Settles O25: on a built frame SEND is one write of that frame, whose outcome is the link's answer; without one it is refused before it reads the buffer. -/
theorem sendWritesTheFrame : Obligations.SendWritesTheFrame := by
  refine ⟨rfl, fun s F hF hl => ?_⟩
  refine ⟨fun hne hok => ?wrote, fun k hne herr => ?failed, exec_send_of_empty hl⟩
  case wrote => rw [exec_send_of_frame hl hF hne, writeAll_of_ok hok]
  case failed => rw [exec_send_of_frame hl hF hne, writeAll_of_ioError herr]

/-- Settles O29: within the image SENDCHUNK is one write of the chunk that `CHUNK_IDX` selects, whose outcome is the link's answer; the session and then the index decide the two refusals. -/
theorem sendchunkWritesTheSelectedChunk : Obligations.SendchunkWritesTheSelectedChunk := by
  refine ⟨rfl, fun s => ⟨fun hl hs hi => ⟨fun hok => ?wrote, fun k herr => ?failed⟩,
    exec_sendchunk_of_le, exec_sendchunk_of_ne⟩⟩
  case wrote => rw [exec_sendchunk_of_lt hl hs hi, writeAll_of_ok hok, chunkOf_eq]
  case failed => rw [exec_sendchunk_of_lt hl hs hi, writeAll_of_ioError herr, chunkOf_eq]

/-- Settles O27: behind the common check, which a live state passes, SETDL writes one field and PAUSE none. -/
theorem setdlAndPause : Obligations.SetdlAndPause :=
  ⟨rfl, rfl, fun _ d hl => ⟨exec_setdl_of_live hl d, exec_pause_of_live hl⟩⟩

end

