-- ==== Sys2Proof/Proofs/Chunks.lean ====
section
/-! The image in chunks of 64 bytes (44_session_phases.md R207). -/

namespace Sys2Proof.Machine

theorem nchunks_eq (n : Nat) : nchunks n = (n + 63) / 64 := rfl

/-- The chunk by its first offset and the offset after its last, as R207 writes it. -/
theorem chunkOf_eq_drop_take (image : List Byte) (i : Nat) :
    chunkOf image i = (image.take (min (64 * i + 64) image.length)).drop (64 * i) := by
  rw [chunkOf_eq, List.take_drop, List.take_eq_take_min]

/-- The first chunks together are the first part of the image. -/
theorem flatten_firstChunks (image : List Byte) (n : Nat) :
    (firstChunks image n).flatten = image.take (64 * n) := by
  induction n with
  | zero => rfl
  | succ n ih =>
    have hsnoc : firstChunks image (n + 1) = firstChunks image n ++ [chunkOf image n] := by
      simp [firstChunks, List.range_succ]
    rw [hsnoc, List.flatten_concat, ih, chunkOf_eq, Nat.mul_succ, List.take_add]

end Sys2Proof.Machine

open Sys2Proof Sys2Proof.Machine

/-- Settles O40: the lengths follow from that of one chunk, and the first `n` chunks are the first `64 * n` bytes, which for `nchunks` chunks is the whole image. -/
theorem chunksPartitionTheImage : Obligations.ChunksPartitionTheImage := by
  refine fun image => ⟨rfl, chunkOf_eq_drop_take image, fun i hi => ?full, fun i hi => ?last, ?whole⟩
  case full =>
    rw [nchunks_eq] at hi
    rw [length_chunkOf]
    omega
  case last =>
    rw [nchunks_eq] at hi
    rw [length_chunkOf]
    split <;> omega
  case whole =>
    rw [flatten_firstChunks, nchunks_eq]
    exact List.take_of_length_le (by omega)

end

