-- ==== Sys2Proof/Proofs/Gate.lean ====
section
/-! The registry gate PH.GATE (44_session_phases.md R204, R205). -/

namespace Sys2Proof.Machine

/-- Membership in the registry is by the 16-bit value (R204). -/
theorem mem_registry_iff (m : Word) :
    m ∈ Config.registry ↔ m.toNat ∈ [60062, 60065, 60066, 60121, 60125, 60181, 60241] :=
  (List.mem_map_of_injective BitVec.toNat_injective (l := Config.registry)).symm

theorem gate_of_mem {m : Word} (h : m ∈ Config.registry) (s : State) :
    s.gate m = { s with session := .modelValidated } := by
  rw [State.gate, if_pos h, State.setSession]

theorem gate_of_notMem {m : Word} (h : m ∉ Config.registry) (s : State) :
    s.gate m = s.raise .unsupportedModel .gate none none := by
  rw [State.gate, if_neg h]

theorem exec_phGate (s : State) : exec .phGate s = execPhGate s := rfl

theorem exec_phGate_of_identified {s : State} {m : Word} (hl : s.live = true)
    (hs : s.session = .identityKnown) (hv : s.ident.valid = true) (hm : s.ident.model = some m) :
    exec .phGate s = .next (s.gate m) := by
  rw [exec_phGate, execPhGate, inSession_of_eq hl hs, hv, hm]

end Sys2Proof.Machine

open Sys2Proof Sys2Proof.Machine

/-- Settles O36: with an identity PH.GATE is the test of its model code, which by value is one of the seven. -/
theorem phGateTestsTheRegistry : Obligations.PhGateTestsTheRegistry := by
  refine ⟨rfl, fun s m hl hs hv hm => ?_⟩
  rw [← mem_registry_iff, exec_phGate_of_identified hl hs hv hm]
  exact ⟨fun h => by rw [gate_of_mem h], fun h => by rw [gate_of_notMem h]⟩

end

