-- ==== Sys2Proof/Proofs/HostSequence.lean ====
section
/-! Phases as sequences of operations (44_session_phases.md R190, R194): the rules by which a host that runs the operations one by one reaches the states of `State.andThen`. -/

namespace Sys2Proof.Machine

/-! ## Where a phase can be between two of its operations -/

/-- The kinds of fault that the operations run in a phase can raise (60_exceptions.md R221). -/
def ErrPhase.kinds (ph : ErrPhase) : List ErrKind :=
  match ph with
  | .none => []
  | .detect => [.transportFailure]
  | .legacy => [.transportFailure, .timeout, .protocolViolation]
  | .identify => [.transportFailure, .timeout, .protocolViolation]
  | .gate => [.transportFailure, .unsupportedModel]
  | .transfer => [.transportFailure, .protocolViolation]

/-- No fault is recorded and `Q` holds, or the phase has ended in one of its faults (R226). -/
def Outcome (ph : ErrPhase) (Q : State → Prop) (t : State) : Prop :=
  (t.err.kind = .none ∧ Q t) ∨ (t.err.kind ∈ ph.kinds ∧ t.err.phase = ph ∧ t.session = .failed)

/-- A host that runs `steps` from `s` reaches `t`, where the phase continues under `Q` or has ended in a fault. -/
structure RunsTo (ph : ErrPhase) (steps : List (State → Result)) (s t : State) (Q : State → Prop) :
    Prop where
  run : hostSequence steps s = .next t
  outcome : Outcome ph Q t

/-- An operation may run in session state `x`, with this configuration and chunk index. -/
structure Standing (x : Session) (c : SessionConfig) (i : Nat) (s : State) : Prop where
  live : s.live = true
  session : s.session = x
  cfg : s.cfg = c
  chunkIdx : s.chunkIdx = i

/-- Besides that, a reply is there to be decoded (10_state.md R26). -/
structure Answered (x : Session) (c : SessionConfig) (i : Nat) (s : State) : Prop
    extends Standing x c i s where
  fresh : s.rx.fresh = true
  reply : s.hasReply s.reply

/-! ## Outcomes -/

theorem live_iff (s : State) :
    s.live = true ↔ s.err.kind = .none ∧ s.session ≠ .failed ∧ s.session ≠ .complete := by
  simp [State.live]

theorem ErrPhase.none_notMem_kinds (ph : ErrPhase) : ErrKind.none ∉ ph.kinds := by
  cases ph <;> decide

/-- A link fault can be raised in every session state in which an operation runs (43_transport_ops.md R188). -/
theorem transportFailure_mem_kinds {s : State} (h : s.live = true) :
    .transportFailure ∈ (phaseOf s.session).kinds := by
  obtain ⟨-, hf, hc⟩ := (live_iff s).mp h
  cases hs : s.session with
  | failed => exact absurd hs hf
  | complete => exact absurd hs hc
  | _ => simp [phaseOf, ErrPhase.kinds]

section
variable {ph : ErrPhase} {Q : State → Prop} {s t : State}

theorem Outcome.of_none (hk : t.err.kind = .none) (hQ : Q t) : Outcome ph Q t := .inl ⟨hk, hQ⟩

theorem Outcome.raise {k : ErrKind} (hk : k ∈ ph.kinds) (b : Option (List Byte)) (c : Option Nat) :
    Outcome ph Q (s.raise k ph b c) :=
  .inr ⟨hk, rfl, rfl⟩

end

/-! ## The host's sequence -/

/-- The host runs the first part, and the second from where the first ended unless that was a fault. -/
theorem hostSequence_append {A : List (State → Result)} {s t : State} (hs : s.err.kind = .none)
    (hA : hostSequence A s = .next t) (B : List (State → Result)) :
    hostSequence (A ++ B) s = if t.err.kind = .none then hostSequence B t else .next t := by
  induction A generalizing s with
  | nil =>
    obtain rfl := next_eq hA
    simp [hs]
  | cons f rest ih =>
    rw [hostSequence] at hA
    rw [List.cons_append, hostSequence]
    cases hf : f s with
    | fault r => simp [hf] at hA
    | refused r => simp [hf] at hA
    | next u =>
      simp only [hf] at hA ⊢
      by_cases hu : u.err.kind = .none
      · rw [if_pos hu] at hA ⊢
        exact ih hu hA
      · rw [if_neg hu] at hA ⊢
        obtain rfl := next_eq hA
        rw [if_neg hu]

section
variable {ph : ErrPhase} {A B : List (State → Result)} {Q R : State → Prop} {s t : State}

/-- One operation that answers `t`. -/
theorem RunsTo.of_exec {f : State → Result} (hf : f s = .next t) (ht : Outcome ph Q t) :
    RunsTo ph [f] s t Q :=
  ⟨by simp [hostSequence, hf], ht⟩

/-- One operation that cannot fault. -/
theorem RunsTo.of_none {f : State → Result} (hf : f s = .next t) (hk : t.err.kind = .none)
    (hQ : Q t) : RunsTo ph [f] s t Q :=
  .of_exec hf (.of_none hk hQ)

/-- Sequencing after operations that took no fault. -/
theorem RunsTo.trans {u : State} (hs : s.err.kind = .none) (hA : RunsTo ph A s t Q)
    (ht : t.err.kind = .none) (hB : RunsTo ph B t u R) : RunsTo ph (A ++ B) s u R :=
  ⟨by rw [hostSequence_append hs hA.run, if_pos ht, hB.run], hB.outcome⟩

/-- Sequencing: that the host stops at the first fault is what `State.andThen` does. -/
theorem RunsTo.andThen {g : State → State} (hs : s.err.kind = .none) (hA : RunsTo ph A s t Q)
    (hB : ∀ u, Q u → RunsTo ph B u (g u) R) : RunsTo ph (A ++ B) s (t.andThen g) R := by
  rcases hA.outcome with ⟨hk, hQ⟩ | ⟨hmem, hph, hfailed⟩
  · rw [andThen_of_none hk]
    exact hA.trans hs hk (hB t hQ)
  · have hk : t.err.kind ≠ .none := fun h => ph.none_notMem_kinds (h ▸ hmem)
    rw [andThen_of_faulted hk]
    exact ⟨by rw [hostSequence_append hs hA.run, if_neg hk], .inr ⟨hmem, hph, hfailed⟩⟩

end

end Sys2Proof.Machine

end

