-- ==== Sys2Proof/Proofs/PhaseOperations.lean ====
section
/-! The operations of a phase, one by one: where each may run, what it answers there, and how it leaves the phase (44_session_phases.md R195, R197, R206). -/

namespace Sys2Proof.Machine

theorem Standing.noFault {x : Session} {c : SessionConfig} {i : Nat} {s : State}
    (h : Standing x c i s) : s.err.kind = .none :=
  ((live_iff s).mp h.live).1

theorem Standing.of_live {x : Session} {s : State} (hl : s.live = true) (hs : s.session = x) :
    Standing x s.cfg s.chunkIdx s :=
  ⟨hl, hs, rfl, rfl⟩

/-- Being live depends on the error registers and on the session only. -/
theorem live_congr {s t : State} (he : t.err = s.err) (hs : t.session = s.session) :
    t.live = s.live := by
  rw [State.live, State.live, he, hs]

/-- A stored reply is there to be decoded. -/
theorem hasReply_storeReply {B : List Byte} (hB : B.length ≤ 13) (s : State) :
    (s.storeReply B).hasReply B := by
  have hlen : (lengthReg 13 B.length).val = B.length := Nat.min_eq_left hB
  rw [State.hasReply, State.storeReply_rx, hlen, Memory.readBytes_ofBytes]

/-- A loaded frame is there to be sent. -/
theorem hasFrame_loadFrame {F : List Byte} (hF : F.length ≤ 8) (s : State) :
    (s.loadFrame F).hasFrame F := by
  have hlen : (lengthReg 8 F.length).val = F.length := Nat.min_eq_left hF
  rw [State.hasFrame, State.loadFrame_tx, hlen, Memory.readBytes_writeBytes]

/-! ## The writes between operations, the link calls, and the operations that make them -/

section
variable {x : Session} {c : SessionConfig} {i : Nat} {s t : State}

theorem Standing.congr (h : Standing x c i s) (he : t.err = s.err) (hs : t.session = s.session)
    (hc : t.cfg = s.cfg) (hi : t.chunkIdx = s.chunkIdx) : Standing x c i t :=
  ⟨(live_congr he hs).trans h.live, hs.trans h.session, hc.trans h.cfg, hi.trans h.chunkIdx⟩

theorem Standing.setSession (h : Standing x c i s) {y : Session} (hf : y ≠ .failed)
    (hc : y ≠ .complete) : Standing y c i (s.setSession y) :=
  ⟨(live_iff _).mpr ⟨h.noFault, hf, hc⟩, rfl, h.cfg, h.chunkIdx⟩

theorem Standing.setChunkIdx (h : Standing x c i s) (j : Nat) :
    Standing x c j (s.setChunkIdx j) :=
  ⟨h.live, h.session, h.cfg, rfl⟩

/-- A write of the link, whatever it answers. -/
theorem Standing.outcome_writeAll (h : Standing x c i s) (B : List Byte) :
    Outcome (phaseOf x) (Standing x c i) (s.writeAll (phaseOf x) B) := by
  rcases writeAll_cases (phaseOf x) B s with ⟨-, e⟩ | ⟨k, -, e⟩ <;> rw [e]
  · exact .of_none h.noFault (h.congr rfl rfl rfl rfl)
  · exact .raise (h.session ▸ transportFailure_mem_kinds h.live) _ _

/-- A read of the link, whatever it answers. -/
theorem Standing.outcome_receive (h : Standing x c i s) {n : Nat} (hn : n ≤ 13) :
    Outcome (phaseOf x) (Answered x c i) (s.receive (phaseOf x) n) := by
  rcases receive_cases (phaseOf x) n s with ⟨r, -, e⟩ | ⟨-, e⟩ <;> rw [e]
  · have hlen : (r.take n).length ≤ 13 := (List.length_take_le n r).trans hn
    refine .of_none h.noFault ⟨h.congr rfl rfl rfl rfl, rfl, ?_⟩
    rw [reply_storeReply hlen]
    exact hasReply_storeReply hlen _
  · exact .raise (h.session ▸ transportFailure_mem_kinds h.live) _ _

theorem Standing.runsTo_sendtok (h : Standing x c i s) {k : Byte} {T : List Byte}
    (hT : tokenOf s.cfg k = some T) :
    RunsTo (phaseOf x) [exec (.sendtok k)] s (s.writeAll (phaseOf x) T) (Standing x c i) := by
  refine .of_exec ?_ (h.outcome_writeAll T)
  rw [← h.session]
  exact (admitted_of_live h.live _).trans (by rw [hT])

theorem Standing.runsTo_recv (h : Standing x c i s) {n : Byte} (hn : recvCountOk n = true) :
    RunsTo (phaseOf x) [exec (.recv n)] s (s.receive (phaseOf x) n.toNat) (Answered x c i) := by
  refine .of_exec ?_ (h.outcome_receive (of_decide_eq_true hn).2)
  rw [← h.session]
  exact (admitted_of_live h.live _).trans (if_pos hn)

/-- A frame is loaded and written; `load` is the operation that loads it. -/
theorem Standing.runsTo_loadAndSend (h : Standing x c i s) {load : State → Result} {F : List Byte}
    (hload : load s = .next (s.loadFrame F)) (hF : F.length = 8) :
    RunsTo (phaseOf x) [load, exec .send] s (s.loadFrame F).sendFrame (Standing x c i) := by
  have hs : Standing x c i (s.loadFrame F) := h.congr rfl rfl rfl rfl
  have hframe : (s.loadFrame F).hasFrame F := hasFrame_loadFrame hF.le s
  have hlen : (s.loadFrame F).tx.len.val ≠ 0 := by simp [hF]
  refine (RunsTo.of_none hload hs.noFault hs).trans h.noFault hs.noFault (.of_exec ?_ ?_)
  · rw [exec_send_of_frame hs.live hframe hlen, State.sendFrame, frame_of_readBytes hframe]
  · rw [State.sendFrame, hs.session]
    exact hs.outcome_writeAll _

/-- The session register is written between two operations. -/
theorem Standing.runsTo_setSession (h : Standing x c i s) (ph : ErrPhase) (y : Session)
    (hf : y ≠ .failed) (hc : y ≠ .complete) :
    RunsTo ph [fun s => .next { s with session := y }] s (s.setSession y) (Standing y c i) :=
  .of_none rfl h.noFault (h.setSession hf hc)

/-- The chunk index is written between two operations. -/
theorem Standing.runsTo_setChunkIdx (h : Standing x c i s) (ph : ErrPhase) (f : State → Nat) :
    RunsTo ph [fun s => .next { s with chunkIdx := f s }] s (s.setChunkIdx (f s))
      (Standing x c (f s)) :=
  .of_none rfl h.noFault (h.setChunkIdx (f s))

/-- The session may move on while a reply waits. -/
theorem Answered.runsTo_setSession (h : Answered x c i s) (ph : ErrPhase) (y : Session)
    (hf : y ≠ .failed) (hc : y ≠ .complete) :
    RunsTo ph [fun s => .next { s with session := y }] s (s.setSession y) (Answered y c i) :=
  .of_none rfl h.noFault ⟨h.setSession hf hc, h.fresh, h.reply⟩

/-! ## The decode operations on a waiting reply -/

theorem Answered.runsTo_cmpBoot (h : Answered x c i s) (ph : ErrPhase) :
    RunsTo ph [exec .cmpBoot] s (s.compareBoot s.reply) (Standing x c i) :=
  .of_none (exec_cmpBoot_of_fresh h.reply h.live h.fresh) h.noFault (h.congr rfl rfl rfl rfl)

theorem Answered.runsTo_decRhr4 (h : Answered x c i s) :
    RunsTo .legacy [exec .decRhr4] s (s.decodeRhr4 s.reply) (Standing x c i) := by
  refine .of_exec (withReply_of_fresh h.live h.fresh h.reply _) ?_
  rcases decodeRhr4_cases s.reply s with ⟨-, e⟩ | ⟨-, -, e⟩ | ⟨-, e⟩ <;> rw [e]
  · exact .raise (by decide) _ _
  · exact .raise (by decide) _ _
  · exact .of_none h.noFault (h.congr rfl rfl rfl rfl)

theorem Answered.runsTo_decAck (h : Answered x c i s) :
    RunsTo .legacy [exec .decAck] s (s.decodeAck s.reply) (Standing x c i) := by
  refine .of_exec (withReply_of_fresh h.live h.fresh h.reply _) ?_
  rcases decodeAck_cases s.reply s with ⟨-, e⟩ | ⟨-, e⟩ <;> rw [e]
  · exact .raise (by decide) _ _
  · exact .of_none h.noFault (h.congr rfl rfl rfl rfl)

theorem Answered.runsTo_chkReady (h : Answered x c i s) :
    RunsTo .transfer [exec .chkReady] s (s.checkReady s.reply) (Standing x c i) := by
  refine .of_exec (exec_chkReady_of_fresh h.reply h.live h.fresh) ?_
  rcases checkReady_cases s.reply s with ⟨-, e⟩ | ⟨-, e⟩ <;> rw [e]
  · exact .of_none h.noFault (h.congr rfl rfl rfl rfl)
  · exact .raise (by decide) _ _

theorem Answered.runsTo_chkOk (h : Answered x c i s) :
    RunsTo .transfer [exec .chkOk] s (s.checkOk s.reply) (Standing x c i) := by
  refine .of_exec (exec_chkOk_of_fresh h.reply h.live h.fresh) ?_
  rcases checkOk_cases s.reply s with ⟨-, e⟩ | ⟨-, e⟩ <;> rw [e]
  · exact .of_none h.noFault (h.congr rfl rfl rfl rfl)
  · exact .raise (by decide) _ _

end

end Sys2Proof.Machine

end

