-- ==== Sys2Proof/Proofs/PhaseSequences.lean ====
section
/-! PH.DETECT, PH.LEGACY and PH.XFER as the sequences of their operations (44_session_phases.md R195, R197, R206). -/

namespace Sys2Proof.Machine

section
variable {c : SessionConfig} {i : Nat} {s : State}

theorem Standing.runsTo_detect (h : Standing .idle c i s) :
    RunsTo .detect
      [exec (.sendtok 0), exec (.recv 4),
        fun s => .next { s with session := .bootloaderUnconfirmed },
        exec .cmpBoot,
        fun s => .next { s with
          session := if s.matched then .bootloaderConfirmed else .legacyDetected }]
      s s.detect (fun t => t.session = .bootloaderConfirmed ∨ t.session = .legacyDetected) := by
  simp only [State.detect, andThen_assoc]
  refine .andThen h.noFault (h.runsTo_sendtok rfl) fun _ h => ?_
  refine .andThen h.noFault (h.runsTo_recv rfl) fun _ h => ?_
  refine .andThen h.noFault (h.runsTo_setSession _ .bootloaderUnconfirmed nofun nofun) fun _ h => ?_
  refine .andThen h.noFault (h.runsTo_cmpBoot _) fun u h => ?_
  refine .of_none rfl h.noFault ?_
  cases hm : u.matched <;> simp [State.setSession, hm]

theorem Standing.runsTo_legacyRead (h : Standing .legacyDetected c i s) :
    RunsTo .legacy
      [exec (.setdl 5), exec .ldRd4, exec .send, exec (.recv 13), exec .decRhr4]
      s s.legacyRead (Standing .legacyDetected c i) := by
  have hd : Standing .legacyDetected c i (s.setDeadline Config.dlFlash) := h.congr rfl rfl rfl rfl
  simp only [State.legacyRead, andThen_assoc]
  refine .trans h.noFault (.of_none (exec_setdl_of_live h.live 5) hd.noFault hd) hd.noFault ?_
  refine .andThen hd.noFault (hd.runsTo_loadAndSend (admitted_of_live hd.live _) rfl) fun _ h => ?_
  exact .andThen h.noFault (h.runsTo_recv rfl) fun _ h => h.runsTo_decRhr4

theorem Standing.runsTo_legacyReboot (h : Standing .legacyDetected c i s) :
    RunsTo .legacy
      [exec .ldReboot, exec .send, fun s => .next { s with session := .rebootRequested },
        exec (.recv 1), exec .decAck, exec .pause,
        fun s => .next { s with session := .bootloaderConfirmed }]
      s s.legacyReboot (Standing .bootloaderConfirmed c i) := by
  simp only [State.legacyReboot, andThen_assoc]
  refine .andThen h.noFault (h.runsTo_loadAndSend (admitted_of_live h.live _) rfl) fun _ h => ?_
  refine .andThen h.noFault (h.runsTo_setSession _ .rebootRequested nofun nofun) fun _ h => ?_
  refine .andThen h.noFault (h.runsTo_recv rfl) fun _ h => ?_
  refine .andThen h.noFault h.runsTo_decAck fun _ h => ?_
  refine .trans h.noFault (.of_none (exec_pause_of_live h.live) h.noFault h) h.noFault ?_
  exact h.runsTo_setSession _ .bootloaderConfirmed nofun nofun

theorem Standing.runsTo_startTransfer (h : Standing .modelValidated c i s) :
    RunsTo .transfer
      [exec (.sendtok 2), exec (.recv 6), exec .chkReady,
        fun s => .next { s with session := .transferring }, fun s => .next { s with chunkIdx := 0 }]
      s s.startTransfer (Standing .transferring c 0) := by
  simp only [State.startTransfer, andThen_assoc]
  refine .andThen h.noFault (h.runsTo_sendtok rfl) fun _ h => ?_
  refine .andThen h.noFault (h.runsTo_recv rfl) fun _ h => ?_
  refine .andThen h.noFault h.runsTo_chkReady fun _ h => ?_
  refine .andThen h.noFault (h.runsTo_setSession _ .transferring nofun nofun) fun _ h => ?_
  exact h.runsTo_setChunkIdx _ fun _ => 0

/-- The operations of one turn of the transfer loop (R206). -/
def chunkTurn : List (State → Result) :=
  [exec .sendchunk, exec (.recv 2), exec .chkOk,
    fun s => .next { s with chunkIdx := s.chunkIdx + 1 }]

theorem Standing.runsTo_transferChunk (h : Standing .transferring c i s)
    (hi : i < nchunks c.image.length) :
    RunsTo .transfer chunkTurn s s.transferChunk (Standing .transferring c (i + 1)) := by
  have hlt : s.chunkIdx < nchunks s.cfg.image.length := by rwa [h.cfg, h.chunkIdx]
  have hsend : exec .sendchunk s = .next s.sendChunk := exec_sendchunk_of_lt h.live h.session hlt
  simp only [State.transferChunk, andThen_assoc]
  refine .andThen h.noFault (.of_exec hsend (h.outcome_writeAll _)) fun _ h => ?_
  refine .andThen h.noFault (h.runsTo_recv rfl) fun _ h => ?_
  refine .andThen h.noFault h.runsTo_chkOk fun _ h => ?_
  exact h.chunkIdx ▸ h.runsTo_setChunkIdx _ fun s => s.chunkIdx + 1

/-- As many turns as chunks are left send them all. -/
theorem Standing.runsTo_transferLoop {n : Nat} (h : Standing .transferring c i s)
    (hn : i + n = nchunks c.image.length) :
    RunsTo .transfer (List.replicate n chunkTurn).flatten s (s.transferLoop n)
      (Standing .transferring c (nchunks c.image.length)) := by
  induction n generalizing i s with
  | zero => exact ⟨rfl, .of_none h.noFault (hn ▸ h)⟩
  | succ n ih =>
    have hi : i < nchunks c.image.length := by omega
    rw [State.transferLoop, h.chunkIdx, h.cfg, if_pos hi, List.replicate_succ, List.flatten_cons]
    exact .andThen h.noFault (h.runsTo_transferChunk hi) fun _ h => ih h (by omega)

theorem Standing.runsTo_transfer (h : Standing .modelValidated c i s) :
    RunsTo .transfer
      ([exec (.sendtok 2), exec (.recv 6), exec .chkReady,
          fun s => .next { s with session := .transferring }, fun s => .next { s with chunkIdx := 0 }] ++
        (List.replicate (nchunks c.image.length) chunkTurn).flatten ++
        [fun s => .next { s with session := .complete }])
      s s.transfer (fun t => t.session = .complete ∧ t.chunkIdx = nchunks c.image.length) := by
  have hloop := RunsTo.andThen h.noFault h.runsTo_startTransfer
    (g := fun s => s.transferLoop (nchunks s.cfg.image.length)) fun _ h => by
      rw [h.cfg]
      exact h.runsTo_transferLoop (Nat.zero_add _)
  exact hloop.andThen h.noFault fun _ h => .of_none rfl h.noFault ⟨rfl, h.chunkIdx⟩

end

/-- An instruction that reaches what its sequence reaches: both have the same answer, and it is an outcome of the phase. -/
theorem RunsTo.exec_eq {ph : ErrPhase} {steps : List (State → Result)} {Q : State → Prop}
    {s t : State} {i : Instr} (h : RunsTo ph steps s t Q) (hi : exec i s = .next t) :
    exec i s = hostSequence steps s ∧ ∀ u, exec i s = .next u → Outcome ph Q u := by
  refine ⟨hi.trans h.run.symm, fun u hu => ?_⟩
  obtain rfl := next_eq (hi.symm.trans hu)
  exact h.outcome

end Sys2Proof.Machine

open Sys2Proof Sys2Proof.Machine

/-- Settles O31: each operation of the sequence answers what `State.detect` does there, and the only fault on the way is that of the link. -/
theorem phDetectIsItsSequence : Obligations.PhDetectIsItsSequence := by
  refine ⟨rfl, fun s hl hs => ?_⟩
  have hrun := (Standing.of_live hl hs).runsTo_detect
  obtain ⟨heq, hout⟩ := hrun.exec_eq (i := .phDetect) (inSession_of_eq hl hs _)
  refine ⟨heq, fun t ht => (hout t ht).imp_right fun ⟨hk, hph, hf⟩ => ⟨?_, hph, hf⟩⟩
  exact List.mem_singleton.mp hk

/-- Settles O32: the two halves of `State.legacy` are the two halves of the sequence, and a fault in the first keeps the second from running. -/
theorem phLegacyIsItsSequence : Obligations.PhLegacyIsItsSequence := by
  refine ⟨rfl, fun s hl hs => ?_⟩
  have h := Standing.of_live hl hs
  have hrun := RunsTo.andThen h.noFault h.runsTo_legacyRead fun _ h => h.runsTo_legacyReboot
  obtain ⟨heq, hout⟩ := hrun.exec_eq (i := .phLegacy) (inSession_of_eq hl hs _)
  exact ⟨heq, fun t ht => (hout t ht).imp_left fun ⟨hk, hend⟩ => ⟨hk, hend.session⟩⟩

/-- Settles O37: the opening, `nchunks` turns of the loop by induction on the turns left, and the end. -/
theorem phXferIsItsSequence : Obligations.PhXferIsItsSequence := by
  refine ⟨rfl, fun s hl hs => ?_⟩
  exact (Standing.of_live hl hs).runsTo_transfer.exec_eq (inSession_of_eq hl hs _)

end

