-- ==== Sys2Proof/Proofs/LinkCalls.lean ====
section
/-! The calls of the link, given the link's answer (43_transport_ops.md R180, R182, R185), and RECV and SENDTOK, which are one call each. -/

namespace Sys2Proof.Machine

/-! ## The link, field by field, and its scripted answers (Log 2) -/

section
variable (e : LinkEvent) (l : Link)
@[simp] theorem Link.tookRead_reads : (l.tookRead e).reads = l.reads.tail := rfl
@[simp] theorem Link.tookRead_writes : (l.tookRead e).writes = l.writes := rfl
@[simp] theorem Link.tookRead_calls : (l.tookRead e).calls = l.calls + 1 := rfl
@[simp] theorem Link.tookRead_log : (l.tookRead e).log = l.log ++ [e] := rfl
@[simp] theorem Link.tookWrite_reads : (l.tookWrite e).reads = l.reads := rfl
@[simp] theorem Link.tookWrite_writes : (l.tookWrite e).writes = l.writes.tail := rfl
@[simp] theorem Link.tookWrite_calls : (l.tookWrite e).calls = l.calls + 1 := rfl
@[simp] theorem Link.tookWrite_log : (l.tookWrite e).log = l.log ++ [e] := rfl
end

theorem nextRead_of_reads {l : Link} {d : ReadDraw} {ds : List ReadDraw} (h : l.reads = d :: ds) :
    l.nextRead = d := by
  simp only [Link.nextRead, h]

theorem nextWrite_of_writes {l : Link} {d : WriteDraw} {ds : List WriteDraw}
    (h : l.writes = d :: ds) : l.nextWrite = d := by
  simp only [Link.nextWrite, h]

/-- A scripted link after one write and one read. -/
theorem tookRead_tookWrite_of_script {l : Link} {r : ReadDraw} {w : WriteDraw}
    {rs : List ReadDraw} {ws : List WriteDraw} (hr : l.reads = r :: rs) (hw : l.writes = w :: ws)
    (e e' : LinkEvent) :
    (l.tookWrite e).tookRead e' =
      { reads := rs, writes := ws, calls := l.calls + 2, log := l.log ++ [e, e'] } := by
  simp [Link.tookWrite, Link.tookRead, hr, hw]

/-! ## One call -/

theorem writeAll_eq_setLink {s : State} (h : s.link.nextWrite = .ok) (ph : ErrPhase)
    (B : List Byte) : s.writeAll ph B = s.setLink (s.link.tookWrite (.wrote B)) :=
  writeAll_of_ok h ph B

theorem receive_of_bytes {s : State} {r : List Byte} (h : s.link.nextRead = .bytes r)
    (ph : ErrPhase) (n : Nat) :
    s.receive ph n =
      (s.setLink (s.link.tookRead (.readGave (r.take n)))).storeReply (r.take n) := by
  simp only [State.receive, h]

theorem receive_of_ioError {s : State} (h : s.link.nextRead = .ioError) (ph : ErrPhase) (n : Nat) :
    s.receive ph n =
      ({ s with link := s.link.tookRead .readFailed } : State).raise
        .transportFailure ph none none := by
  simp only [State.receive, h, State.setLink]

/-- A message written and its reply read, both of which the link takes. -/
theorem exchange_of_bytes {s : State} {T r : List Byte} (hk : s.err.kind = .none)
    (hw : s.link.nextWrite = .ok) (hr : (s.link.tookWrite (.wrote T)).nextRead = .bytes r)
    (ph ph' : ErrPhase) (n : Nat) :
    (s.writeAll ph T).andThen (fun s => s.receive ph' n) =
      (s.setLink ((s.link.tookWrite (.wrote T)).tookRead (.readGave (r.take n)))).storeReply
        (r.take n) := by
  rw [writeAll_eq_setLink hw, andThen_of_none (by exact hk), receive_of_bytes hr]
  rfl

/-- A loaded frame is what the next `SEND` writes. -/
theorem sendFrame_loadFrame {F : List Byte} (hF : F.length = 8) (s : State) :
    (s.loadFrame F).sendFrame = (s.loadFrame F).writeAll (phaseOf s.session) F := by
  rw [State.sendFrame, frame_loadFrame hF.le, State.loadFrame_session]

/-- Beyond its length a reply leaves no value in the buffer (10_state.md R26). -/
theorem read_ofBytes_of_le {B : List Byte} {a : Nat} (h : B.length ≤ a) :
    (Memory.ofBytes B).read a = none := by
  have hn : ¬((Memory.ofBytes B).read a).isSome = true := fun hs =>
    absurd (((Memory.holds_ofBytes B).2 a).mp hs) (Nat.not_lt.mpr h)
  simpa using hn

/-! ## The one fault of a call (R187) -/

theorem noFault_of_live {s : State} (h : s.live = true) : s.err.kind = .none :=
  ((live_iff s).mp h).1

theorem writeAll_fault {s : State} {ph : ErrPhase} {B : List Byte} (hl : s.live = true)
    (hk : (s.writeAll ph B).err.kind ≠ .none) :
    (s.writeAll ph B).err.kind = .transportFailure ∧ (s.writeAll ph B).err.phase = ph := by
  rcases writeAll_cases ph B s with ⟨-, e⟩ | ⟨k, -, e⟩ <;> rw [e] at hk ⊢
  · exact absurd (noFault_of_live hl) hk
  · exact ⟨rfl, rfl⟩

theorem receive_fault {s : State} {ph : ErrPhase} {n : Nat} (hl : s.live = true)
    (hk : (s.receive ph n).err.kind ≠ .none) :
    (s.receive ph n).err.kind = .transportFailure ∧ (s.receive ph n).err.phase = ph := by
  rcases receive_cases ph n s with ⟨r, -, e⟩ | ⟨-, e⟩ <;> rw [e] at hk ⊢
  · exact absurd (noFault_of_live hl) hk
  · exact ⟨rfl, rfl⟩

/-! ## RECV and SENDTOK -/

theorem exec_recv_of_live {s : State} (hl : s.live = true) (n : Byte) :
    exec (.recv n) s =
      if recvCountOk n then .next (s.receive (phaseOf s.session) n.toNat)
      else .refused .operandOutOfRange :=
  admitted_of_live hl _

theorem exec_recv_of_range {s : State} {n : Byte} (hl : s.live = true) (h1 : 1 ≤ n.toNat)
    (h13 : n.toNat ≤ 13) : exec (.recv n) s = .next (s.receive (phaseOf s.session) n.toNat) :=
  (exec_recv_of_live hl n).trans (if_pos (decide_eq_true ⟨h1, h13⟩))

theorem exec_sendtok_of_token {s : State} {k : Byte} {T : List Byte} (hl : s.live = true)
    (hT : tokenOf s.cfg k = some T) :
    exec (.sendtok k) s = .next (s.writeAll (phaseOf s.session) T) :=
  (admitted_of_live hl _).trans (by rw [hT])

/-- There are three tokens (R185). -/
theorem tokenOf_eq_none {k : Byte} (h : 2 < k.toNat) (c : SessionConfig) : tokenOf c k = none := by
  have ne (m : Nat) (hm : m ≤ 2) : k ≠ BitVec.ofNat 8 m := by
    rintro rfl
    rw [BitVec.toNat_ofNat] at h
    omega
  rw [tokenOf, if_neg (ne 0 (by omega)), if_neg (ne 1 (by omega)), if_neg (ne 2 (by omega))]

theorem exec_recv_of_outOfRange {s : State} {n : Byte} (hl : s.live = true)
    (hn : n.toNat = 0 ∨ 13 < n.toNat) : exec (.recv n) s = .refused .operandOutOfRange := by
  have hbad : ¬recvCountOk n = true := by
    rw [recvCountOk, decide_eq_true_eq, Config.rxCap]
    omega
  exact (exec_recv_of_live hl n).trans (if_neg hbad)

theorem exec_sendtok_of_outOfRange {s : State} {k : Byte} (hl : s.live = true)
    (hk : 2 < k.toNat) : exec (.sendtok k) s = .refused .operandOutOfRange :=
  (admitted_of_live hl _).trans (by rw [tokenOf_eq_none hk])

end Sys2Proof.Machine

open Sys2Proof Sys2Proof.Machine

/-- Settles O26: in range RECV is one read, whose outcome is the link's answer; the reply that it stores is the whole content of the buffer. -/
theorem recvStoresTheReply : Obligations.RecvStoresTheReply := by
  intro s n hl h1 h13
  rw [exec_recv_of_range hl h1 h13]
  refine ⟨fun r hr => ?stored, fun hr => ?failed⟩
  case failed => rw [receive_of_ioError hr]
  case stored =>
    have hlen : (r.take n.toNat).length ≤ 13 := (List.length_take_le _ r).trans h13
    have hval : (lengthReg 13 (r.take n.toNat).length).val = (r.take n.toNat).length :=
      Nat.min_eq_left hlen
    rw [receive_of_bytes hr]
    refine ⟨_, rfl, rfl, hval, rfl, hasReply_storeReply hlen _, fun a ha => ?_⟩
    exact read_ofBytes_of_le (hval ▸ ha)

/-- Settles O28: the operand selects the token, and SENDTOK is one write of it, whose outcome is the link's answer; a fourth token does not exist. -/
theorem sendtokWritesTheToken : Obligations.SendtokWritesTheToken := by
  refine ⟨rfl, fun s k T hl hT => ?_, fun s k hl hk => exec_sendtok_of_outOfRange hl hk⟩
  have htok : tokenOf s.cfg k = some T := by
    rcases hT with ⟨rfl, rfl⟩ | ⟨rfl, rfl⟩ | ⟨rfl, rfl⟩ <;> rfl
  rw [exec_sendtok_of_token hl htok]
  exact ⟨fun hok => by rw [writeAll_of_ok hok], fun j herr => by rw [writeAll_of_ioError herr]⟩

/-- Settles O30: each of the three is one call of the link in the phase of `SESSION`, so the one fault it can leave is that call's. -/
theorem linkFaultsRecordThePhase : Obligations.LinkFaultsRecordThePhase := by
  intro s t i hi h hk
  obtain ⟨hkind, hphase⟩ : t.err.kind = .transportFailure ∧ t.err.phase = phaseOf s.session := by
    rcases hi with rfl | ⟨n, rfl⟩ | ⟨k, rfl⟩
    · obtain ⟨hl, -, F, -, rfl⟩ := execSend_next h
      exact writeAll_fault hl hk
    · obtain ⟨hl, -, rfl⟩ := execRecv_next h
      exact receive_fault hl hk
    · obtain ⟨hl, T, -, rfl⟩ := execSendtok_next h
      exact writeAll_fault hl hk
  rw [hphase]
  refine ⟨hkind, ?_, ?_, fun hs => by rw [hs]; rfl, fun hs => by rw [hs]; rfl, ?_⟩ <;>
    rintro (hs | hs) <;> rw [hs] <;> rfl

end

