-- ==== Sys2Proof/Proofs/PhaseIdent.lean ====
section
/-! PH.IDENT as the sequence of its operations, and what a second identification answers (44_session_phases.md R200, 42_frame_decode.md R163). -/

namespace Sys2Proof.Machine

theorem decodeInfo_of_infoOk {s : State} {B : List Byte} (h : infoOk s.cfg B = true) :
    s.decodeInfo B = (s.takeIdentity B).consumeReply := by
  rcases decodeInfo_cases B s with ⟨rfl, -⟩ | ⟨-, hbad, -⟩ | ⟨-, e⟩
  · simp [infoOk, Config.infoLen] at h
  · rw [h] at hbad
    cases hbad
  · exact e

/-- `info_ok` with its lengths as numbers (R160). -/
theorem infoOk_iff (c : SessionConfig) (B : List Byte) :
    infoOk c B = true ↔ B.length = 13 ∧ B.take 3 = c.infoPrefix.toList :=
  decide_eq_true_iff

theorem exec_decInfo_of_fresh {s : State} {B : List Byte} (hB : s.hasReply B) (hl : s.live = true)
    (hf : s.rx.fresh = true) :
    exec .decInfo s =
      if s.ident.valid then .refused .alreadyIdentified else .next (s.decodeInfo B) :=
  withReply_of_fresh hl hf hB _

section
variable {x : Session} {c : SessionConfig} {i : Nat} {s : State}

theorem Answered.runsTo_decInfo (h : Answered x c i s) (hv : s.ident.valid = false) :
    RunsTo .identify [exec .decInfo] s (s.decodeInfo s.reply)
      (fun t => Standing x c i t ∧ t.ident.valid = true) := by
  refine .of_exec ?_ ?_
  · rw [exec_decInfo_of_fresh h.reply h.live h.fresh, hv, if_neg Bool.false_ne_true]
  · rcases decodeInfo_cases s.reply s with ⟨-, e⟩ | ⟨-, -, e⟩ | ⟨-, e⟩ <;> rw [e]
    · exact .raise (by decide) _ _
    · exact .raise (by decide) _ _
    · exact .of_none h.noFault ⟨h.congr rfl rfl rfl rfl, rfl⟩

theorem Standing.runsTo_askIdentity (h : Standing .bootloaderConfirmed c i s) :
    RunsTo .identify [exec (.sendtok 1), exec (.recv 13)] s s.askIdentity
      (Answered .bootloaderConfirmed c i) :=
  .andThen h.noFault (h.runsTo_sendtok rfl) fun _ h => h.runsTo_recv rfl

end

theorem askIdentity_ident (s : State) : s.askIdentity.ident = s.ident :=
  askIdentity_field (·.ident) s (fun _ _ _ => State.writeAll_ident ..)
    fun _ _ _ => State.receive_ident ..

section
variable {s : State}

theorem askIdentity_of_writeError {k : Nat} (hw : s.link.nextWrite = .ioError k) :
    s.askIdentity =
      ({ s with link := s.link.tookWrite (.writeFailed (s.cfg.tokGetInfo.take k)) } : State).raise
        .transportFailure .identify none none := by
  rw [State.askIdentity, writeAll_of_ioError hw, andThen_of_faulted (by exact nofun)]

variable (hl : s.live = true) (hw : s.link.nextWrite = .ok)
include hl hw

theorem askIdentity_of_readError
    (hr : (s.link.tookWrite (.wrote s.cfg.tokGetInfo)).nextRead = .ioError) :
    s.askIdentity =
      ({ s with link := (s.link.tookWrite (.wrote s.cfg.tokGetInfo)).tookRead .readFailed } :
        State).raise .transportFailure .identify none none := by
  rw [State.askIdentity, writeAll_of_ok hw, andThen_of_none (by exact noFault_of_live hl),
    receive_of_ioError hr]

theorem askIdentity_of_bytes {r : List Byte}
    (hr : (s.link.tookWrite (.wrote s.cfg.tokGetInfo)).nextRead = .bytes r) :
    s.askIdentity =
      (s.setLink ((s.link.tookWrite (.wrote s.cfg.tokGetInfo)).tookRead
        (.readGave (r.take 13)))).storeReply (r.take 13) :=
  exchange_of_bytes (noFault_of_live hl) hw hr _ _ _

end

theorem exec_phIdent_of_entry {s : State} (hl : s.live = true)
    (hs : s.session = .bootloaderConfirmed) :
    exec .phIdent s =
      if s.ident.valid = true ∧ s.askIdentity.err.kind = .none then .refused .alreadyIdentified
      else .next s.identify :=
  inSession_of_eq hl hs _

/-- A fault in the exchange ends the phase, an identity decoded before or not. -/
theorem exec_phIdent_of_faulted {s : State} (hl : s.live = true)
    (hs : s.session = .bootloaderConfirmed) (hk : s.askIdentity.err.kind ≠ .none) :
    exec .phIdent s = .next s.askIdentity := by
  rw [exec_phIdent_of_entry hl hs, if_neg fun h => hk h.2, identify_of_faulted hk]

theorem exec_phIdent_eq_hostSequence {s : State} (hl : s.live = true)
    (hs : s.session = .bootloaderConfirmed) :
    exec .phIdent s =
      hostSequence
        [exec (.sendtok 1), exec (.recv 13), exec .decInfo,
          fun s => .next { s with session := .identityKnown }] s := by
  have h := Standing.of_live hl hs
  have hask := h.runsTo_askIdentity
  by_cases hk : s.askIdentity.err.kind = .none
  case neg =>
    rw [exec_phIdent_of_faulted hl hs hk]
    exact ((hostSequence_append h.noFault hask.run [_, _]).trans (if_neg hk)).symm
  have ha : Answered .bootloaderConfirmed s.cfg s.chunkIdx s.askIdentity := by
    rcases hask.outcome with ⟨-, ha⟩ | ⟨hmem, -, -⟩
    · exact ha
    · exact absurd (hk ▸ hmem) (ErrPhase.none_notMem_kinds _)
  rw [exec_phIdent_of_entry hl hs]
  refine Eq.trans ?_ ((hostSequence_append h.noFault hask.run [_, _]).trans (if_pos hk)).symm
  cases hv : s.ident.valid with
  | true =>
    rw [if_pos ⟨rfl, hk⟩, hostSequence, exec_decInfo_of_fresh ha.reply ha.live ha.fresh,
      askIdentity_ident, hv, if_pos rfl]
  | false =>
    rw [if_neg fun h => Bool.false_ne_true h.1, State.identify, andThen_of_none hk]
    have hdec := ha.runsTo_decInfo ((congrArg _ (askIdentity_ident s)).trans hv)
    have hrun := hdec.andThen ha.noFault fun _ hu =>
      hu.1.runsTo_setSession _ .identityKnown nofun nofun
    exact hrun.run.symm

end Sys2Proof.Machine

open Sys2Proof Sys2Proof.Machine

/-- Settles O35: the exchange is the first two operations of the sequence; where it faults both stop there, and else both come to DEC.INFO, which decides by `ID_VALID`. -/
theorem phIdentIsItsSequence : Obligations.PhIdentIsItsSequence := by
  refine ⟨fun s hl hs => exec_phIdent_eq_hostSequence hl hs, ?valid, ?linkFault, ?second⟩
  case valid =>
    intro s B rs ws hl hs hv hlen hpre hr hw
    have hk := noFault_of_live hl
    have hok : infoOk s.cfg B = true := (infoOk_iff _ _).mpr ⟨hlen, hpre⟩
    have hread : (s.link.tookWrite (.wrote s.cfg.tokGetInfo)).nextRead = .bytes B :=
      nextRead_of_reads hr
    have hask := askIdentity_of_bytes hl (nextWrite_of_writes hw) hread
    rw [tookRead_tookWrite_of_script hr hw, List.take_of_length_le hlen.le] at hask
    have hid : s.identify =
        (s.askIdentity.takeIdentity B).consumeReply.setSession .identityKnown := by
      simp [State.identify, hask, hk, hlen.le, decodeInfo_of_infoOk, hok, State.takeIdentity]
    rw [exec_phIdent_of_entry hl hs, if_neg (by simp [hv]), hid, hask]
    simp [State.setSession, State.consumeReply, State.setRx, State.takeIdentity, State.setIdent,
      State.storeReply, State.setLink, hlen, lengthReg]
  case linkFault =>
    refine fun s hl hs => ⟨fun k hk => ?write, fun hok hk => ?read⟩
    case write =>
      have hask := askIdentity_of_writeError hk
      rw [exec_phIdent_of_faulted hl hs (by rw [hask]; exact nofun), hask]
    case read =>
      have hask := askIdentity_of_readError hl hok hk
      rw [exec_phIdent_of_faulted hl hs (by rw [hask]; exact nofun), hask]
  case second =>
    refine fun s B hl hv => ⟨fun hB hf => ?single, fun hs hok hr => ?phase⟩
    case single => rw [exec_decInfo_of_fresh hB hl hf, if_pos hv]
    case phase =>
      have hask := askIdentity_of_bytes hl hok hr
      rw [exec_phIdent_of_entry hl hs, if_pos ⟨hv, by rw [hask]; exact noFault_of_live hl⟩]

end

