-- ==== Sys2Proof/Proofs/Effects.lean ====
section
/-! What an instruction can do to the state, one effect at a time: every effect names the instructions that have it and the condition under which they do. An instruction that answers a next state reaches it by such effects, each from a live state, so an invariant is kept by every step if every effect keeps it. -/

namespace Sys2Proof.Machine

/-- The instructions that may put a frame into `TXBUF` (10_state.md R43), alone, in PH.LEGACY, or as a request message (Log 8). -/
def LoadsFrame (i : Instr) : Prop :=
  (∃ a p q, i = .encRhr a p q) ∨ (∃ a p q, i = .encWsr a p q) ∨ i = .ldRd4 ∨ i = .ldReboot ∨
  i = .phLegacy ∨ (∃ a p q c, i = .rhrReq a p q c) ∨ (∃ a p q c, i = .wsrReq a p q c) ∨
  i = .rd4Req ∨ i = .rebootReq

/-- The phase operations (44_session_phases.md R190). -/
def IsPhase (i : Instr) : Prop :=
  i = .phDetect ∨ i = .phLegacy ∨ i = .phIdent ∨ i = .phGate ∨ i = .phXfer

/-- The instructions whose completed parts keep their effects when a later part faults (60_exceptions.md R220, Log 8). -/
def IsSequence (i : Instr) : Prop :=
  i = .phDetect ∨ i = .phLegacy ∨ i = .phIdent ∨ i = .phXfer ∨ i = .rd4Req ∨ i = .rebootReq ∨
  (∃ a p q c, i = .rhrReq a p q c) ∨ ∃ a p q c, i = .wsrReq a p q c

/-- Which instruction can raise which error kind (60_exceptions.md R221 to R225). -/
def CanRaise (i : Instr) (k : ErrKind) : Prop :=
  match k with
  | .none => False
  | .timeout => i = .decRhr4 ∨ i = .decInfo ∨ i = .phLegacy ∨ i = .phIdent
  | .protocolViolation =>
    i = .decRhr4 ∨ i = .decAck ∨ i = .decInfo ∨ i = .chkReady ∨ i = .chkOk ∨ i = .phLegacy ∨
    i = .phIdent ∨ i = .phXfer
  | .unsupportedModel => i = .phGate
  | .transportFailure => WritesLink i ∨ ∃ n, i = .recv n
  | .imageSourceFailure => False

/-- The session register may move to `y`: along the transition table (44_session_phases.md R192), past the gates of 60_exceptions.md R237, and to `Complete` only when no chunk is left (R209). -/
structure State.MayEnter (s : State) (y : Session) : Prop where
  edge : Session.edge s.session y = true
  notFailed : y ≠ .failed
  identified : y = .identityKnown → s.ident.valid = true
  registered : y = .modelValidated → ∃ m, s.ident.model = some m ∧ m ∈ Config.registry
  atEnd : y = .complete → s.chunkIdx = nchunks s.cfg.image.length

/-- What a fault may record (60_exceptions.md R221, R226): a phase, bytes only of a reply that violates the protocol, an index only of a chunk's acknowledgment. -/
structure FaultRecord (k : ErrKind) (ph : ErrPhase) (b : Option (List Byte)) (c : Option Nat) :
    Prop where
  phase : ph ≠ .none
  bytes : ∀ B, b = some B → k = .protocolViolation ∧ B.length ≤ 13
  chunk : c.isSome = true → k = .protocolViolation ∧ ph = .transfer

/-- One effect of instruction `i` on the state. -/
inductive Effect (i : Instr) (s : State) : State → Prop where
  | crc (v : Option Word) (h : i = .crcInit ∨ ∃ b, i = .crcUpd b) : Effect i s (s.setCrc v)
  | out (v : Output) : Effect i s (s.setOut v)
  | deadline (d : Nat) (h : (∃ d, i = .setdl d) ∨ i = .phLegacy) : Effect i s (s.setDeadline d)
  | frame (F : List Byte) (hlen : F.length = 8) (hcrc : crcOk F = true) (h : LoadsFrame i) :
      Effect i s (s.loadFrame F)
  | wrote (l : Link) (hlog : s.link.log <+: l.log) : Effect i s (s.setLink l)
  | reply (l : Link) (hlog : s.link.log <+: l.log) (B : List Byte) (hB : B.length ≤ 13)
      (h : StoresReply i) : Effect i s ((s.setLink l).storeReply B)
  | preIdentity (B : List Byte) (h : i = .decRhr4 ∨ i = .phLegacy) :
      Effect i s (s.takePreIdentity B).consumeReply
  | identity (B : List Byte) (hv : s.ident.valid = false) (h : i = .decInfo ∨ i = .phIdent) :
      Effect i s (s.takeIdentity B).consumeReply
  | compared (B : List Byte) (h : i = .cmpBoot ∨ i = .phDetect) : Effect i s (s.compareBoot B)
  | consumed (h : StoresReply i ∨ i ∈ [Instr.decAck, .chkReady, .chkOk]) :
      Effect i s s.consumeReply
  | session (y : Session) (hy : s.MayEnter y) (h : IsPhase i) : Effect i s (s.setSession y)
  | chunkIdx (n : Nat) (hn : n ≤ nchunks s.cfg.image.length) (h : i = .phXfer) :
      Effect i s (s.setChunkIdx n)
  | fault (l : Link) (hlog : s.link.log <+: l.log) (k : ErrKind) (ph : ErrPhase)
      (b : Option (List Byte)) (c : Option Nat) (hk : CanRaise i k) (hr : FaultRecord k ph b c) :
      Effect i s ((s.setLink l).raise k ph b c)

/-- Effects of `i`, one after the other, each from a live state. -/
abbrev Reaches (i : Instr) : State → State → Prop :=
  Relation.ReflTransGen fun s t => s.live = true ∧ Effect i s t

/-! ## The shared operations as effects -/

/-- The fixed frames carry their checksum (41_frame_encode.md R148). -/
theorem crcOk_frameRd4 : crcOk Config.frameRd4 = true := by decide +kernel

theorem crcOk_frameReboot : crcOk Config.frameReboot = true := by decide +kernel

section
variable {i : Instr} {s : State} {ph : ErrPhase} {B : List Byte}

/-- A fault that leaves the link alone. -/
theorem Effect.raise {k : ErrKind} {b : Option (List Byte)} {c : Option Nat} (hk : CanRaise i k)
    (hr : FaultRecord k ph b c) : Effect i s (s.raise k ph b c) :=
  .fault s.link (List.prefix_refl _) k ph b c hk hr

theorem FaultRecord.plain {k : ErrKind} (hph : ph ≠ .none) : FaultRecord k ph none none :=
  ⟨hph, nofun, nofun⟩

theorem FaultRecord.violation (hph : ph ≠ .none) (hB : B.length ≤ 13) :
    FaultRecord .protocolViolation ph (some B) none :=
  ⟨hph, fun _ h => ⟨rfl, Option.some.inj h ▸ hB⟩, nofun⟩

theorem Effect.writeAll (h : WritesLink i) (hph : ph ≠ .none) : Effect i s (s.writeAll ph B) := by
  rcases writeAll_cases ph B s with ⟨-, e⟩ | ⟨k, -, e⟩ <;> rw [e]
  · exact .wrote _ (List.prefix_append _ _)
  · exact .fault _ (List.prefix_append _ _) _ _ _ _ (.inl h) (.plain hph)

theorem Effect.receive {n : Nat} (h : StoresReply i) (hk : CanRaise i .transportFailure)
    (hph : ph ≠ .none) (hn : n ≤ 13) : Effect i s (s.receive ph n) := by
  rcases receive_cases ph n s with ⟨r, -, e⟩ | ⟨-, e⟩ <;> rw [e]
  · exact .reply _ (List.prefix_append _ _) _ ((List.length_take_le n r).trans hn) h
  · exact .fault _ (List.prefix_append _ _) _ _ _ _ hk (.plain hph)

theorem Effect.deliver (h : StoresReply i) (hB : B.length ≤ 13) : Effect i s (s.deliver B) :=
  .reply _ (List.prefix_append _ _) B hB h

theorem Effect.decodeRhr4 (h : i = .decRhr4 ∨ i = .phLegacy) (hB : B.length ≤ 13) :
    Effect i s (s.decodeRhr4 B) := by
  rcases decodeRhr4_cases B s with ⟨-, e⟩ | ⟨-, -, e⟩ | ⟨-, e⟩ <;> rw [e]
  · exact .raise (by rcases h with rfl | rfl <;> simp [CanRaise]) (.plain nofun)
  · exact .raise (by rcases h with rfl | rfl <;> simp [CanRaise]) (.violation nofun hB)
  · exact .preIdentity B h

theorem Effect.decodeAck (h : i = .decAck ∨ i = .phLegacy) (hB : B.length ≤ 13) :
    Effect i s (s.decodeAck B) := by
  rcases decodeAck_cases B s with ⟨-, e⟩ | ⟨-, e⟩ <;> rw [e]
  · exact .raise (by rcases h with rfl | rfl <;> simp [CanRaise]) (.violation nofun hB)
  · exact .consumed (by rcases h with rfl | rfl <;> simp [StoresReply])

theorem Effect.decodeInfo (h : i = .decInfo ∨ i = .phIdent) (hv : s.ident.valid = false)
    (hB : B.length ≤ 13) : Effect i s (s.decodeInfo B) := by
  rcases decodeInfo_cases B s with ⟨-, e⟩ | ⟨-, -, e⟩ | ⟨-, e⟩ <;> rw [e]
  · exact .raise (by rcases h with rfl | rfl <;> simp [CanRaise]) (.plain nofun)
  · exact .raise (by rcases h with rfl | rfl <;> simp [CanRaise]) (.violation nofun hB)
  · exact .identity B hv h

theorem Effect.checkReady (h : i = .chkReady ∨ i = .phXfer) (hB : B.length ≤ 13) :
    Effect i s (s.checkReady B) := by
  rcases checkReady_cases B s with ⟨-, e⟩ | ⟨-, e⟩ <;> rw [e]
  · exact .consumed (by rcases h with rfl | rfl <;> simp [StoresReply])
  · exact .raise (by rcases h with rfl | rfl <;> simp [CanRaise]) (.violation nofun hB)

theorem Effect.checkOk (h : i = .chkOk ∨ i = .phXfer) (hB : B.length ≤ 13) :
    Effect i s (s.checkOk B) := by
  rcases checkOk_cases B s with ⟨-, e⟩ | ⟨-, e⟩ <;> rw [e]
  · exact .consumed (by rcases h with rfl | rfl <;> simp [StoresReply])
  · refine .raise (by rcases h with rfl | rfl <;> simp [CanRaise]) ⟨nofun, fun C hC => ?_, ?_⟩
    · exact ⟨rfl, Option.some.inj hC ▸ hB⟩
    · exact fun _ => ⟨rfl, rfl⟩

theorem Effect.gate {m : Word} (hs : s.session = .identityKnown) (hm : s.ident.model = some m) :
    Effect .phGate s (s.gate m) := by
  by_cases h : m ∈ Config.registry
  · rw [gate_of_mem h]
    refine .session _ ⟨?_, nofun, nofun, fun _ => ⟨m, hm, h⟩, nofun⟩ (by simp [IsPhase])
    rw [hs]
    rfl
  · rw [gate_of_notMem h]
    exact .raise rfl (.plain nofun)

end

/-! # Every instruction reaches its next state by these effects: a single operation by one of them, a phase and a request message by several. -/

/-! ## The check that every instruction makes -/

/-- Every instruction is behind the common check (60_exceptions.md R229, 44_session_phases.md R193). -/
theorem exec_eq_admitted (i : Instr) (s : State) : ∃ k, exec i s = admitted s k := by
  cases i <;> exact ⟨_, rfl⟩

theorem exec_live {i : Instr} {s t : State} (h : exec i s = .next t) : s.live = true := by
  obtain ⟨k, hk⟩ := exec_eq_admitted i s
  exact (admitted_next (hk.symm.trans h)).1

theorem phaseOf_ne_none {s : State} (h : s.live = true) : phaseOf s.session ≠ .none := by
  obtain ⟨-, hf, hc⟩ := (live_iff s).mp h
  cases hs : s.session with
  | failed => exact absurd hs hf
  | complete => exact absurd hs hc
  | _ => simp [phaseOf]

/-- What `RXBUF` holds is never longer than it (10_state.md R26). -/
theorem length_le_of_hasReply {s : State} {B : List Byte} (h : s.hasReply B) : B.length ≤ 13 :=
  (Memory.length_readBytes h).trans_le (Nat.le_of_lt_succ s.rx.len.isLt)

/-! ## Single operations -/

theorem exec_effect {i : Instr} {s t : State} (h : exec i s = .next t) :
    t = s ∨ Effect i s t ∨ IsSequence i := by
  have hph := phaseOf_ne_none (exec_live h)
  cases i with
  | crcInit =>
    obtain ⟨-, rfl⟩ := execCrcInit_next h
    exact .inr (.inl (.crc _ (.inl rfl)))
  | crcUpd b =>
    obtain ⟨-, c, -, rfl⟩ := execCrcUpd_next h
    exact .inr (.inl (.crc _ (.inr ⟨b, rfl⟩)))
  | crcGet =>
    obtain ⟨-, c, -, rfl⟩ := execCrcGet_next h
    exact .inr (.inl (.out _))
  | encRhr a p q =>
    obtain ⟨-, rfl⟩ := execEncRhr_next h
    exact .inr (.inl (.frame _ rfl (crcOk_crcAppend _) (.inl ⟨a, p, q, rfl⟩)))
  | encWsr a p q =>
    obtain ⟨-, rfl⟩ := execEncWsr_next h
    exact .inr (.inl (.frame _ rfl (crcOk_crcAppend _) (.inr (.inl ⟨a, p, q, rfl⟩))))
  | ldRd4 =>
    obtain ⟨-, rfl⟩ := execLdRd4_next h
    exact .inr (.inl (.frame _ rfl crcOk_frameRd4 (by simp [LoadsFrame])))
  | ldReboot =>
    obtain ⟨-, rfl⟩ := execLdReboot_next h
    exact .inr (.inl (.frame _ rfl crcOk_frameReboot (by simp [LoadsFrame])))
  | decRhr4 =>
    obtain ⟨-, -, B, hB, rfl⟩ := execDecRhr4_next h
    exact .inr (.inl (.decodeRhr4 (.inl rfl) (length_le_of_hasReply hB)))
  | decAck =>
    obtain ⟨-, -, B, hB, rfl⟩ := execDecAck_next h
    exact .inr (.inl (.decodeAck (.inl rfl) (length_le_of_hasReply hB)))
  | decInfo =>
    obtain ⟨-, -, hv, B, hB, rfl⟩ := execDecInfo_next h
    exact .inr (.inl (.decodeInfo (.inl rfl) hv (length_le_of_hasReply hB)))
  | cmpBoot =>
    obtain ⟨-, -, B, -, rfl⟩ := execCmpBoot_next h
    exact .inr (.inl (.compared B (.inl rfl)))
  | chkReady =>
    obtain ⟨-, -, B, hB, rfl⟩ := execChkReady_next h
    exact .inr (.inl (.checkReady (.inl rfl) (length_le_of_hasReply hB)))
  | chkOk =>
    obtain ⟨-, -, B, hB, rfl⟩ := execChkOk_next h
    exact .inr (.inl (.checkOk (.inl rfl) (length_le_of_hasReply hB)))
  | send =>
    obtain ⟨-, -, F, -, rfl⟩ := execSend_next h
    exact .inr (.inl (.writeAll (by simp [WritesLink]) hph))
  | recv n =>
    obtain ⟨-, hn, rfl⟩ := execRecv_next h
    obtain ⟨-, hle⟩ := of_decide_eq_true hn
    exact .inr (.inl (.receive (by simp [StoresReply]) (.inr ⟨n, rfl⟩) hph hle))
  | setdl d =>
    obtain ⟨-, rfl⟩ := execSetdl_next h
    exact .inr (.inl (.deadline _ (.inl ⟨d, rfl⟩)))
  | pause =>
    obtain ⟨-, rfl⟩ := execPause_next h
    exact .inl rfl
  | sendtok k =>
    obtain ⟨-, T, -, rfl⟩ := execSendtok_next h
    exact .inr (.inl (.writeAll (by simp [WritesLink]) hph))
  | sendchunk =>
    obtain ⟨-, -, -, rfl⟩ := execSendchunk_next h
    exact .inr (.inl (.writeAll (by simp [WritesLink]) nofun))
  | phGate =>
    obtain ⟨-, hs, -, m, hm, rfl⟩ := execPhGate_next h
    exact .inr (.inl (.gate hs hm))
  | chunk d =>
    obtain ⟨-, -, -, -, rfl⟩ := execChunk_next h
    exact .inr (.inl (.writeAll (by simp [WritesLink]) nofun))
  | rd4Rsp m x5 x6 x7 x8 x9 v c =>
    obtain ⟨-, rfl⟩ := execRd4Rsp_next h
    exact .inr (.inl (.deliver (by simp [StoresReply]) (by simp)))
  | rebootAck k =>
    obtain ⟨-, rfl⟩ := execRebootAck_next h
    exact .inr (.inl (.deliver (by simp [StoresReply]) (by simp)))
  | infoRsp f0 f1 f2 serial m x9 x10 v y =>
    obtain ⟨-, rfl⟩ := execInfoRsp_next h
    exact .inr (.inl (.deliver (by simp [StoresReply]) (by simp)))
  | okTok =>
    obtain ⟨-, rfl⟩ := execOkTok_next h
    exact .inr (.inl (.deliver (by simp [StoresReply]) (by decide)))
  | bootTok t0 t1 t2 t3 =>
    obtain ⟨-, rfl⟩ := execBootTok_next h
    exact .inr (.inl (.deliver (by simp [StoresReply]) (by simp)))
  | readyTok t0 t1 t2 t3 t4 t5 =>
    obtain ⟨-, rfl⟩ := execReadyTok_next h
    exact .inr (.inl (.deliver (by simp [StoresReply]) (by simp)))
  | _ => exact .inr (.inr (by simp [IsSequence]))

/-! ## Sequences -/

/-- `t` is reached from `s` by effects of `i`, and `Q` holds there unless a fault was taken. -/
structure Leads (i : Instr) (s t : State) (Q : State → Prop) : Prop where
  reach : Reaches i s t
  goal : t.err.kind = .none → Q t

section
variable {i : Instr} {ph : ErrPhase} {s t : State} {Q R : State → Prop}

theorem Outcome.goal (h : Outcome ph Q t) (hk : t.err.kind = .none) : Q t := by
  rcases h with ⟨-, hQ⟩ | ⟨hmem, -, -⟩
  · exact hQ
  · exact absurd (hk ▸ hmem) ph.none_notMem_kinds

theorem Leads.refl (h : Q s) : Leads i s s Q := ⟨.refl, fun _ => h⟩

theorem Leads.of_effect (hl : s.live = true) (he : Effect i s t) (hQ : t.err.kind = .none → Q t) :
    Leads i s t Q :=
  ⟨.single ⟨hl, he⟩, hQ⟩

/-- The next sub-step starts where `Q` holds, or does not run (60_exceptions.md R226). -/
theorem Leads.andThen {g : State → State} (h : Leads i s t Q)
    (hg : ∀ u, Q u → Leads i u (g u) R) : Leads i s (t.andThen g) R := by
  by_cases hk : t.err.kind = .none
  · have hnext := hg t (h.goal hk)
    rw [andThen_of_none hk]
    exact ⟨h.reach.trans hnext.reach, hnext.goal⟩
  · rw [andThen_of_faulted hk]
    exact ⟨h.reach, fun h0 => absurd h0 hk⟩

end

/-! ### The operations of a phase -/

section
variable {i : Instr} {x : Session} {c : SessionConfig} {j : Nat} {s : State}

theorem Standing.phaseOf_ne_none (h : Standing x c j s) : phaseOf x ≠ .none :=
  h.session ▸ Machine.phaseOf_ne_none h.live

theorem Standing.leads_writeAll (h : Standing x c j s) (hi : WritesLink i) (B : List Byte) :
    Leads i s (s.writeAll (phaseOf x) B) (Standing x c j) :=
  .of_effect h.live (.writeAll hi h.phaseOf_ne_none) (h.outcome_writeAll B).goal

theorem Standing.leads_receive (h : Standing x c j s) (hi : WritesLink i) (hr : StoresReply i)
    {n : Nat} (hn : n ≤ 13) : Leads i s (s.receive (phaseOf x) n) (Answered x c j) :=
  .of_effect h.live (.receive hr (.inl hi) h.phaseOf_ne_none hn) (h.outcome_receive hn).goal

/-- A frame is loaded and written. -/
theorem Standing.leads_loadAndSend (h : Standing x c j s) {F : List Byte} (hF : F.length = 8)
    (hcrc : crcOk F = true) (hi : WritesLink i) (hload : LoadsFrame i) :
    Leads i s (s.loadFrame F).sendFrame (Standing x c j) := by
  have hs : Standing x c j (s.loadFrame F) := h.congr rfl rfl rfl rfl
  have hsend : (s.loadFrame F).sendFrame = (s.loadFrame F).writeAll (phaseOf x) F := by
    rw [sendFrame_loadFrame hF, h.session]
  have hw := hs.leads_writeAll hi F
  rw [hsend]
  exact ⟨.head ⟨h.live, .frame F hF hcrc hload⟩ hw.reach, hw.goal⟩

theorem Standing.leads_setSession (h : Standing x c j s) {y : Session} (hy : s.MayEnter y)
    (hc : y ≠ .complete) (hi : IsPhase i) : Leads i s (s.setSession y) (Standing y c j) :=
  .of_effect h.live (.session y hy hi) fun _ => h.setSession hy.notFailed hc

/-- A move that neither passes a gate nor completes the session asks only for an edge of the table. -/
theorem Standing.mayEnter (h : Standing x c j s) {y : Session} (hy : Session.edge x y = true)
    (hne : y ∉ [Session.failed, .identityKnown, .modelValidated, .complete]) : s.MayEnter y := by
  simp only [List.mem_cons, List.not_mem_nil, or_false, not_or] at hne
  obtain ⟨hf, hi, hm, hc⟩ := hne
  exact ⟨h.session ▸ hy, hf, fun e => absurd e hi, fun e => absurd e hm, fun e => absurd e hc⟩

end

/-! ### The phases -/

section
variable {c : SessionConfig} {j : Nat} {s : State}

theorem Standing.leads_detect (h : Standing .idle c j s) :
    Leads .phDetect s s.detect (fun _ => True) := by
  have hw : WritesLink .phDetect := by simp [WritesLink]
  have hp : IsPhase .phDetect := by simp [IsPhase]
  simp only [State.detect, andThen_assoc]
  refine .andThen (h.leads_writeAll hw _) fun _ h => ?_
  refine .andThen (h.leads_receive hw (by simp [StoresReply]) (by decide)) fun _ h => ?_
  refine .andThen (h.leads_setSession (h.mayEnter rfl (by decide)) nofun hp) fun v h => ?_
  have hv : Standing .bootloaderUnconfirmed c j (v.compareBoot v.reply) := h.congr rfl rfl rfl rfl
  refine .andThen (.of_effect h.live (.compared _ (.inr rfl)) fun _ => hv) fun w h => ?_
  refine .of_effect h.live (.session _ (h.mayEnter ?_ ?_) hp) fun _ => trivial
  all_goals cases w.matched <;> decide

theorem Standing.leads_legacyRead (h : Standing .legacyDetected c j s) :
    Leads .phLegacy s s.legacyRead (Standing .legacyDetected c j) := by
  have hw : WritesLink .phLegacy := by simp [WritesLink]
  have hd : Standing .legacyDetected c j (s.setDeadline Config.dlFlash) := h.congr rfl rfl rfl rfl
  have hload := hd.leads_loadAndSend (i := .phLegacy) rfl crcOk_frameRd4 hw (by simp [LoadsFrame])
  simp only [State.legacyRead, andThen_assoc]
  refine .andThen ⟨.head ⟨h.live, .deadline _ (.inr rfl)⟩ hload.reach, hload.goal⟩ fun _ h => ?_
  refine .andThen (h.leads_receive hw (by simp [StoresReply]) (by decide)) fun u h => ?_
  exact .of_effect h.live (.decodeRhr4 (.inr rfl) (length_reply_le u)) h.runsTo_decRhr4.outcome.goal

theorem Standing.leads_legacyReboot (h : Standing .legacyDetected c j s) :
    Leads .phLegacy s s.legacyReboot (Standing .bootloaderConfirmed c j) := by
  have hw : WritesLink .phLegacy := by simp [WritesLink]
  have hp : IsPhase .phLegacy := by simp [IsPhase]
  simp only [State.legacyReboot, andThen_assoc]
  have hsend := h.leads_loadAndSend (i := .phLegacy) rfl crcOk_frameReboot hw (by simp [LoadsFrame])
  refine .andThen hsend fun _ h => ?_
  refine .andThen (h.leads_setSession (h.mayEnter rfl (by decide)) nofun hp) fun _ h => ?_
  refine .andThen (h.leads_receive hw (by simp [StoresReply]) (by decide)) fun u h => ?_
  refine .andThen (.of_effect h.live (.decodeAck (.inr rfl) (length_reply_le u))
    h.runsTo_decAck.outcome.goal) fun _ h => ?_
  exact h.leads_setSession (h.mayEnter rfl (by decide)) nofun hp

theorem Standing.leads_askIdentity (h : Standing .bootloaderConfirmed c j s) :
    Leads .phIdent s s.askIdentity (Answered .bootloaderConfirmed c j) := by
  have hw : WritesLink .phIdent := by simp [WritesLink]
  refine .andThen (h.leads_writeAll hw _) fun _ h => ?_
  exact h.leads_receive hw (by simp [StoresReply]) (by decide)

/-- With an identity already decoded the phase comes no further than its exchange (Log 12). -/
theorem Standing.leads_identify (h : Standing .bootloaderConfirmed c j s)
    (hv : s.ident.valid = false ∨ s.askIdentity.err.kind ≠ .none) :
    Leads .phIdent s s.identify (fun _ => True) := by
  have hask := h.leads_askIdentity
  by_cases hk : s.askIdentity.err.kind = .none
  case neg =>
    rw [identify_of_faulted hk]
    exact ⟨hask.reach, fun _ => trivial⟩
  have hnew : s.askIdentity.ident.valid = false := by
    rw [askIdentity_ident]
    exact hv.resolve_right (not_not_intro hk)
  have ha := hask.goal hk
  have hdec : Leads .phIdent s.askIdentity (s.askIdentity.decodeInfo s.askIdentity.reply)
      (fun u => Standing .bootloaderConfirmed c j u ∧ u.ident.valid = true) :=
    .of_effect ha.live (.decodeInfo (.inr rfl) hnew (length_reply_le _))
      (ha.runsTo_decInfo hnew).outcome.goal
  have hend := hdec.andThen (g := fun u => u.setSession .identityKnown) (R := fun _ => True)
    fun u ⟨hu, hid⟩ => .of_effect hu.live
      (.session _ ⟨hu.session ▸ rfl, nofun, fun _ => hid, nofun, nofun⟩ (by simp [IsPhase]))
      fun _ => trivial
  rw [State.identify, andThen_of_none hk]
  exact ⟨hask.reach.trans hend.reach, fun _ => trivial⟩

theorem Standing.leads_startTransfer (h : Standing .modelValidated c j s) :
    Leads .phXfer s s.startTransfer (Standing .transferring c 0) := by
  have hw : WritesLink .phXfer := by simp [WritesLink]
  simp only [State.startTransfer, andThen_assoc]
  refine .andThen (h.leads_writeAll hw _) fun _ h => ?_
  refine .andThen (h.leads_receive hw (by simp [StoresReply]) (by decide)) fun u h => ?_
  refine .andThen (.of_effect h.live (.checkReady (.inr rfl) (length_reply_le u))
    h.runsTo_chkReady.outcome.goal) fun _ h => ?_
  refine .andThen (h.leads_setSession (h.mayEnter rfl (by decide)) nofun (by simp [IsPhase]))
    fun _ h => ?_
  exact .of_effect h.live (.chunkIdx 0 (Nat.zero_le _) rfl) fun _ => h.setChunkIdx 0

theorem Standing.leads_transferChunk (h : Standing .transferring c j s)
    (hj : j < nchunks c.image.length) :
    Leads .phXfer s s.transferChunk (Standing .transferring c (j + 1)) := by
  have hw : WritesLink .phXfer := by simp [WritesLink]
  simp only [State.transferChunk, andThen_assoc]
  refine .andThen (h.leads_writeAll hw _) fun _ h => ?_
  refine .andThen (h.leads_receive hw (by simp [StoresReply]) (by decide)) fun u h => ?_
  refine .andThen (.of_effect h.live (.checkOk (.inr rfl) (length_reply_le u))
    h.runsTo_chkOk.outcome.goal) fun v h => ?_
  refine .of_effect h.live (.chunkIdx _ ?_ rfl) fun _ => h.chunkIdx ▸ h.setChunkIdx _
  rw [h.chunkIdx, h.cfg]
  exact hj

theorem Standing.leads_transferLoop {n : Nat} (h : Standing .transferring c j s)
    (hn : j + n = nchunks c.image.length) :
    Leads .phXfer s (s.transferLoop n) (Standing .transferring c (nchunks c.image.length)) := by
  induction n generalizing j s with
  | zero => exact .refl (hn ▸ h)
  | succ n ih =>
    have hj : j < nchunks c.image.length := by omega
    rw [State.transferLoop, h.chunkIdx, h.cfg, if_pos hj]
    exact .andThen (h.leads_transferChunk hj) fun _ h => ih h (by omega)

theorem Standing.leads_transfer (h : Standing .modelValidated c j s) :
    Leads .phXfer s s.transfer (fun _ => True) := by
  have hloop := h.leads_startTransfer.andThen
    (g := fun s => s.transferLoop (nchunks s.cfg.image.length)) fun _ h => by
      rw [h.cfg]
      exact h.leads_transferLoop (Nat.zero_add _)
  refine hloop.andThen fun u h => .of_effect h.live (.session _ ?_ (by simp [IsPhase]))
    fun _ => trivial
  refine ⟨h.session ▸ rfl, nofun, nofun, nofun, fun _ => ?_⟩
  rw [h.chunkIdx, h.cfg]

end

/-! ### All instructions -/

/-- A request message loads its frame and sends it (Log 8). -/
theorem reaches_loadAndSend {i : Instr} {s : State} {F : List Byte} (hl : s.live = true)
    (hF : F.length = 8) (hcrc : crcOk F = true) (hi : WritesLink i) (hload : LoadsFrame i) :
    Reaches i s (s.loadFrame F).sendFrame :=
  ((Standing.of_live hl rfl).leads_loadAndSend hF hcrc hi hload).reach

/-- An instruction that answers a next state reaches it by its effects. -/
theorem exec_reaches {i : Instr} {s t : State} (h : exec i s = .next t) : Reaches i s t := by
  have hl := exec_live h
  rcases exec_effect h with rfl | he | hseq
  · exact .refl
  · exact .single ⟨hl, he⟩
  rcases hseq with rfl | rfl | rfl | rfl | rfl | rfl | ⟨a, p, q, c, rfl⟩ | ⟨a, p, q, c, rfl⟩
  · obtain ⟨-, hs, rfl⟩ := execPhDetect_next h
    exact (Standing.of_live hl hs).leads_detect.reach
  · obtain ⟨-, hs, rfl⟩ := execPhLegacy_next h
    exact ((Standing.of_live hl hs).leads_legacyRead.andThen fun _ h => h.leads_legacyReboot).reach
  · obtain ⟨-, hs, hv, rfl⟩ := execPhIdent_next h
    exact ((Standing.of_live hl hs).leads_identify hv).reach
  · obtain ⟨-, hs, ht⟩ := execPhXfer_next h
    rw [ht]
    exact (Standing.of_live hl hs).leads_transfer.reach
  · obtain ⟨-, rfl⟩ := execRd4Req_next h
    exact reaches_loadAndSend hl rfl crcOk_frameRd4 (by simp [WritesLink]) (by simp [LoadsFrame])
  · obtain ⟨-, rfl⟩ := execRebootReq_next h
    exact reaches_loadAndSend hl rfl crcOk_frameReboot (by simp [WritesLink]) (by simp [LoadsFrame])
  · obtain ⟨-, -, rfl⟩ := execRhrReq_next h
    exact reaches_loadAndSend hl rfl (crcOk_crcAppend _) (by simp [WritesLink])
      (by simp [LoadsFrame])
  · obtain ⟨-, -, rfl⟩ := execWsrReq_next h
    exact reaches_loadAndSend hl rfl (crcOk_crcAppend _) (by simp [WritesLink])
      (by simp [LoadsFrame])

/-- What every effect of `i` keeps, `i` keeps. -/
theorem reaches_keeps {i : Instr} {P : State → Prop}
    (heff : ∀ s t, s.live = true → Effect i s t → P s → P t) {s t : State} (h : Reaches i s t)
    (hs : P s) : P t := by
  induction h with
  | refl => exact hs
  | tail _ he ih => exact heff _ _ he.1 he.2 ih

/-- What every effect keeps, every step keeps: the presented inputs are all that a step changes beside. -/
theorem step_keeps {P : State → Prop} (hin : ∀ s l, P s → P (s.setInput l))
    (heff : ∀ i s t, s.live = true → Effect i s t → P s → P t) {s t : State} (hs : P s)
    (h : step s = .next t) : P t := by
  rcases step_next h with ⟨-, rfl⟩ | ⟨u, rest, i, -, -, h⟩
  · exact hs
  · exact reaches_keeps (heff i) (exec_reaches h) (hin s rest hs)

end Sys2Proof.Machine
end

