-- ==== Sys2Proof/Proofs/Invariants.lean ====
section
/-! The invariants of Safety.lean: each holds of the reset state and is kept by every effect, so by every step (10_state.md R24 to R32, 41_frame_encode.md R148, 60_exceptions.md R221 to R237). -/

namespace Sys2Proof.Machine

/-! ## The transition table and the gates -/

theorem identified_of_gated {x : Session} (h : x.gated = true) : x.identified = true := by
  revert h
  cases x <;> decide

/-- The table enters the states past step 3 from each other, or through `IdentityKnown`. -/
theorem identified_of_edge {x y : Session} (h : Session.edge x y = true)
    (hy : y.identified = true) : y = .identityKnown ∨ x.identified = true := by
  revert h hy
  cases x <;> cases y <;> decide

/-- The table enters the states past step 4 from each other, or through `ModelValidated`. -/
theorem gated_of_edge {x y : Session} (h : Session.edge x y = true) (hy : y.gated = true) :
    y = .modelValidated ∨ x.gated = true := by
  revert h hy
  cases x <;> cases y <;> decide

/-! ## What each effect keeps -/

section
variable {i : Instr} {s t : State} (hl : s.live = true) (he : Effect i s t)

section
include he

theorem Effect.keeps_frame (h : s.FrameInv) : t.FrameInv := by
  obtain ⟨hcrc⟩ := h
  cases he with
  | frame F hlen hok => exact ⟨fun _ => by rwa [frame_loadFrame hlen.le]⟩
  | _ => exact ⟨hcrc⟩

theorem Effect.keeps_identity (h : s.IdentityInv) : t.IdentityInv := by
  obtain ⟨hpm, hpv, hs, hm, hv⟩ := h
  cases he with
  | preIdentity B => exact ⟨rfl, rfl, hs, hm, hv⟩
  | identity B => exact ⟨hpm, hpv, rfl, rfl, rfl⟩
  | _ => exact ⟨hpm, hpv, hs, hm, hv⟩

/-- A session past step 3 has an identity, so no effect writes another one over it. -/
theorem Effect.keeps_gate (h : s.GateInv) : t.GateInv := by
  obtain ⟨hknown, hreg⟩ := h
  cases he with
  | identity B hv =>
    have hnot : ¬s.session.identified = true := fun h => by simp [hknown h] at hv
    exact ⟨fun _ => rfl, fun hg => absurd (identified_of_gated hg) hnot⟩
  | session y hy =>
    refine ⟨fun h => ?_, fun h => ?_⟩
    · exact (identified_of_edge hy.edge h).elim hy.identified hknown
    · exact (gated_of_edge hy.edge h).elim hy.registered hreg
  | fault => exact ⟨nofun, nofun⟩
  | _ => exact ⟨hknown, hreg⟩

end

include hl he

theorem Effect.keeps_buffers (h : s.BuffersInv) : t.BuffersInv := by
  obtain ⟨htx, hwhole, hrx, herr, hnone⟩ := h
  cases he with
  | frame F hlen =>
    have hle : s.tx.len.val ≤ F.length := by omega
    have hval : (lengthReg 8 F.length).val = F.length := Nat.min_eq_left hlen.le
    refine ⟨?_, .inr (hval.trans hlen), hrx, herr, hnone⟩
    rw [State.loadFrame_tx, hval]
    exact Memory.holds_writeBytes htx hle
  | reply l hlog B hB =>
    have hval : (lengthReg 13 B.length).val = B.length := Nat.min_eq_left hB
    refine ⟨htx, hwhole, ?_, herr, hnone⟩
    rw [State.storeReply_rx, hval]
    exact Memory.holds_ofBytes B
  | fault l hlog k ph b c hk hr =>
    have h0 := hnone (noFault_of_live hl)
    refine ⟨htx, hwhole, hrx, ?_, fun hn => ?_⟩
    · cases b with
      | none => exact raised_holds_none k ph c herr h0
      | some B => exact raised_holds_bytes k ph c herr h0 (hr.bytes B rfl).2
    · have hn : k = .none := hn
      subst hn
      exact hk.elim
  | _ => exact ⟨htx, hwhole, hrx, herr, hnone⟩

theorem Effect.keeps_error (h : s.ErrorInv) : t.ErrorInv := by
  obtain ⟨hfailed, hphase, hsource, hchunk, hbytes⟩ := h
  have h0 := noFault_of_live hl
  cases he with
  | session y hy =>
    refine ⟨iff_of_false hy.notFailed ?_, hphase, hsource, hchunk, hbytes⟩
    exact fun hk => hk h0
  | fault l hlog k ph b c hk hr =>
    have hne : k ≠ .none := by
      rintro rfl
      exact hk.elim
    refine ⟨iff_of_true rfl hne, iff_of_false hr.phase hne, ?_, fun hc => ?_, fun hb => ?_⟩
    · rintro rfl
      exact hk.elim
    · cases c with
      | some n => exact hr.chunk rfl
      | none => exact absurd h0 (by simp [(hchunk hc).1])
    · cases b with
      | some B => exact (hr.bytes B rfl).1
      | none => exact absurd rfl hb
  | _ => exact ⟨hfailed, hphase, hsource, hchunk, hbytes⟩

theorem Effect.keeps_chunk (h : s.ChunkInv) : t.ChunkInv := by
  obtain ⟨hbound, hend⟩ := h
  cases he with
  | session y hy => exact ⟨hbound, hy.atEnd⟩
  | chunkIdx n hn => exact ⟨hn, fun hc => absurd hc ((live_iff s).mp hl).2.2⟩
  | fault => exact ⟨hbound, nofun⟩
  | _ => exact ⟨hbound, hend⟩

end

end Sys2Proof.Machine

open Sys2Proof Sys2Proof.Machine

/-- Settles O49: a frame and a reply are written whole into buffers of their own length, and a fault is taken where no bytes were recorded. -/
theorem stepKeepsBuffers : Obligations.StepKeepsBuffers := fun _ _ hs =>
  step_keeps (fun _ _ ⟨htx, hwhole, hrx, herr, hnone⟩ => ⟨htx, hwhole, hrx, herr, hnone⟩)
    (fun _ _ _ hl he => he.keeps_buffers hl) hs

/-- Settles O50: a frame enters `TXBUF` only with its checksum. -/
theorem stepKeepsFrameChecksum : Obligations.StepKeepsFrameChecksum := fun _ _ hs =>
  step_keeps (fun _ _ ⟨hcrc⟩ => ⟨hcrc⟩) (fun _ _ _ _ he => he.keeps_frame) hs

/-- Settles O51: a fault writes the whole record at once, and only where none was recorded. -/
theorem stepKeepsErrorRecord : Obligations.StepKeepsErrorRecord := fun _ _ hs =>
  step_keeps
    (fun _ _ ⟨hfailed, hphase, hsource, hchunk, hbytes⟩ =>
      ⟨hfailed, hphase, hsource, hchunk, hbytes⟩)
    (fun _ _ _ hl he => he.keeps_error hl) hs

/-- Settles O52: the decode operations write all fields of an identity together with its flag. -/
theorem stepKeepsIdentityWhole : Obligations.StepKeepsIdentityWhole := fun _ _ hs =>
  step_keeps (fun _ _ ⟨hpm, hpv, hser, hm, hv⟩ => ⟨hpm, hpv, hser, hm, hv⟩)
    (fun _ _ _ _ he => he.keeps_identity) hs

/-- Settles O53: the table leads past steps 3 and 4 only through `IdentityKnown` and `ModelValidated`, which are entered with what the gate asks for. -/
theorem stepKeepsTheGate : Obligations.StepKeepsTheGate := fun _ _ hs =>
  step_keeps (fun _ _ ⟨hknown, hreg⟩ => ⟨hknown, hreg⟩) (fun _ _ _ _ he => he.keeps_gate) hs

/-- Settles O54: PH.XFER writes the index within the image, and completes where it stands at the end. -/
theorem stepKeepsChunkIndex : Obligations.StepKeepsChunkIndex := fun _ _ hs =>
  step_keeps (fun _ _ ⟨hbound, hend⟩ => ⟨hbound, hend⟩) (fun _ _ _ hl he => he.keeps_chunk hl) hs

/-- Settles O6: the reset state is written out as the table. -/
theorem resetLeavesListedValues : Obligations.ResetLeavesListedValues :=
  ⟨rfl, rfl, rfl, fun _ => rfl, rfl, fun _ => rfl, rfl, rfl, rfl, rfl, rfl, rfl, rfl, fun _ => rfl,
    rfl, rfl, rfl⟩

/-- Settles O7: at reset the buffers are empty, no fault is recorded, no identity is held and the session has not begun. -/
theorem resetMeetsTheInvariants : Obligations.ResetMeetsTheInvariants := by
  refine ⟨⟨Memory.holds_nil, .inl rfl, Memory.holds_nil, Memory.holds_nil, fun _ => rfl⟩, ⟨nofun⟩,
    ⟨?_, ?_, nofun, nofun, ?_⟩, ⟨rfl, rfl, rfl, rfl, rfl⟩, ⟨nofun, nofun⟩, ⟨Nat.zero_le _, nofun⟩⟩
  · exact iff_of_false nofun fun h => h rfl
  · exact iff_of_true rfl rfl
  · exact fun h => absurd rfl h

/-- Settles O56: the three operations run in a session past step 4, where the gate has been passed. -/
theorem transferNeedsRegisteredModel : Obligations.TransferNeedsRegisteredModel := by
  intro i s t hgate h hi
  have hs : s.session = .modelValidated ∨ s.session = .transferring := by
    rcases hi with rfl | rfl | ⟨d, rfl⟩
    · obtain ⟨-, hs, -⟩ := execPhXfer_next h
      exact .inl hs
    · obtain ⟨-, hs, -⟩ := execSendchunk_next h
      exact .inr hs
    · obtain ⟨-, hs, -⟩ := execChunk_next h
      exact .inr hs
  refine ⟨hs, hgate.registered ?_⟩
  rcases hs with hs | hs <;> rw [hs] <;> rfl

end

