-- ==== Sys2Proof/Proofs/WriteMatrix.lean ====
section
/-! Which instruction changes which register and takes which fault: the guards of the effects, carried along the effects of an instruction (10_state.md R43, 44_session_phases.md R192, 60_exceptions.md R220 to R225). -/

namespace Sys2Proof.Machine

/-- A field that every effect of `i` leaves alone unless `G`, the instruction leaves alone unless `G`. -/
theorem field_eq_or {α : Type} {i : Instr} (g : State → α) {G : Prop}
    (heff : ∀ s t, Effect i s t → g t = g s ∨ G) {s t : State} (h : exec i s = .next t) :
    g t = g s ∨ G := by
  refine reaches_keeps (P := fun u => g u = g s ∨ G) (fun u v _ he hu => ?_) (exec_reaches h)
    (.inl rfl)
  rcases heff u v he with e | hG
  · rwa [e]
  · exact .inr hG

/-- The last row of the transition table (44_session_phases.md R192). -/
theorem edge_failed_of_live {s : State} (hl : s.live = true) :
    Session.edge s.session .failed = true := by
  obtain ⟨-, hf, hc⟩ := (live_iff s).mp hl
  cases hs : s.session with
  | failed => exact absurd hs hf
  | complete => exact absurd hs hc
  | _ => rfl

section
variable {i : Instr} {s t : State} (he : Effect i s t)
include he

theorem Effect.crc_eq_or : t.crc = s.crc ∨ i = .crcInit ∨ ∃ b, i = .crcUpd b := by
  cases he with
  | crc v h => exact .inr h
  | _ => exact .inl rfl

theorem Effect.tx_eq_or : t.tx = s.tx ∨ LoadsFrame i := by
  cases he with
  | frame F hlen hcrc h => exact .inr h
  | _ => exact .inl rfl

theorem Effect.rx_eq_or : (t.rx.buf, t.rx.len) = (s.rx.buf, s.rx.len) ∨ StoresReply i := by
  cases he with
  | reply l hlog B hB h => exact .inr h
  | _ => exact .inl rfl

theorem Effect.fresh_eq_or : t.rx.fresh = s.rx.fresh ∨ StoresReply i ∨
    i ∈ [Instr.decRhr4, .decAck, .decInfo, .cmpBoot, .chkReady, .chkOk] := by
  cases he with
  | reply l hlog B hB h => exact .inr (.inl h)
  | preIdentity B h => exact .inr (by rcases h with rfl | rfl <;> simp [StoresReply])
  | identity B hv h => exact .inr (by rcases h with rfl | rfl <;> simp [StoresReply])
  | compared B h => exact .inr (by rcases h with rfl | rfl <;> simp [StoresReply])
  | consumed h =>
    refine .inr (h.imp_right fun hmem => ?_)
    simp only [List.mem_cons, List.not_mem_nil, or_false] at hmem
    rcases hmem with rfl | rfl | rfl <;> simp
  | _ => exact .inl rfl

theorem Effect.pre_eq_or : t.pre = s.pre ∨ i = .decRhr4 ∨ i = .phLegacy := by
  cases he with
  | preIdentity B h => exact .inr h
  | _ => exact .inl rfl

theorem Effect.ident_eq_or :
    t.ident = s.ident ∨
      (i = .decInfo ∨ i = .phIdent) ∧ s.ident.valid = false ∧ t.ident.valid = true := by
  cases he with
  | identity B hv h => exact .inr ⟨h, hv, rfl⟩
  | _ => exact .inl rfl

theorem Effect.matched_eq_or : t.matched = s.matched ∨ i = .cmpBoot ∨ i = .phDetect := by
  cases he with
  | compared B h => exact .inr h
  | _ => exact .inl rfl

theorem Effect.chunkIdx_eq_or : t.chunkIdx = s.chunkIdx ∨ i = .phXfer := by
  cases he with
  | chunkIdx n hn h => exact .inr h
  | _ => exact .inl rfl

theorem Effect.deadline_eq_or : t.deadline = s.deadline ∨ (∃ d, i = .setdl d) ∨ i = .phLegacy := by
  cases he with
  | deadline d h => exact .inr h
  | _ => exact .inl rfl

/-- A fault is the only effect on the error registers (60_exceptions.md R226). -/
theorem Effect.err_eq_or : t.err = s.err ∨
    CanRaise i t.err.kind ∧ t = { s with err := t.err, session := .failed, link := t.link } := by
  cases he with
  | fault l hlog k ph b c hk hr => exact .inr ⟨hk, rfl⟩
  | _ => exact .inl rfl

theorem Effect.config_eq : (t.cfg, t.input) = (s.cfg, s.input) := by
  cases he <;> rfl

theorem Effect.log_prefix : s.link.log <+: t.link.log := by
  cases he with
  | wrote l hlog => exact hlog
  | reply l hlog => exact hlog
  | fault l hlog => exact hlog
  | _ => exact List.prefix_refl _

/-- The session register moves along the transition table, in a phase or to `Failed`. -/
theorem Effect.session_eq_or (hl : s.live = true) : t.session = s.session ∨
    Session.edge s.session t.session = true ∧ (t.session = .failed ∨ IsPhase i) := by
  cases he with
  | session y hy h => exact .inr ⟨hy.edge, .inr h⟩
  | fault => exact .inr ⟨edge_failed_of_live hl, .inl rfl⟩
  | _ => exact .inl rfl

end

/-! ## What an instruction leaves alone -/

section
variable {i : Instr} {s t : State} (h : exec i s = .next t)
include h

theorem exec_config_eq : (t.cfg, t.input) = (s.cfg, s.input) :=
  reaches_keeps (P := fun u => (u.cfg, u.input) = (s.cfg, s.input))
    (fun _ _ _ he hu => he.config_eq.trans hu) (exec_reaches h) rfl

theorem exec_err_eq_or : t.err = s.err ∨ CanRaise i t.err.kind ∧ t.session = .failed := by
  refine reaches_keeps (P := fun u => u.err = s.err ∨ CanRaise i u.err.kind ∧ u.session = .failed)
    (fun u v hl he hu => ?_) (exec_reaches h) (.inl rfl)
  obtain ⟨-, hlive, -⟩ := (live_iff u).mp hl
  have hsame := hu.resolve_right fun ⟨_, hf⟩ => hlive hf
  rcases he.err_eq_or with e | ⟨hk, e⟩
  · exact .inl (e.trans hsame)
  · exact .inr ⟨hk, by rw [e]⟩

/-- An identity is not written again (10_state.md R28). -/
theorem exec_ident_eq_or : t.ident = s.ident ∨
    (i = .decInfo ∨ i = .phIdent) ∧ s.ident.valid = false ∧ t.ident.valid = true := by
  refine reaches_keeps (P := fun u => u.ident = s.ident ∨
      (i = .decInfo ∨ i = .phIdent) ∧ s.ident.valid = false ∧ u.ident.valid = true)
    (fun u v _ he hu => ?_) (exec_reaches h) (.inl rfl)
  rcases he.ident_eq_or with e | ⟨hi, huv, hvv⟩
  · rwa [e]
  · rcases hu with e | ⟨-, -, hset⟩
    · exact .inr ⟨hi, e ▸ huv, hvv⟩
    · exact absurd (huv.symm.trans hset) Bool.false_ne_true

theorem exec_session_path : Session.Path s.session t.session := by
  refine reaches_keeps (P := fun u => Session.Path s.session u.session) (fun u v hl he hu => ?_)
    (exec_reaches h) .refl
  rcases he.session_eq_or hl with e | ⟨hedge, -⟩
  · rwa [e]
  · exact hu.tail hedge

theorem exec_session_eq_or : t.session = s.session ∨ t.session = .failed ∨ IsPhase i := by
  refine reaches_keeps (P := fun u => u.session = s.session ∨ u.session = .failed ∨ IsPhase i)
    (fun u v hl he hu => ?_) (exec_reaches h) (.inl rfl)
  rcases he.session_eq_or hl with e | ⟨-, hi⟩
  · rwa [e]
  · exact .inr hi

end

end Sys2Proof.Machine

open Sys2Proof Sys2Proof.Machine

/-- Settles O42: each effect follows an edge of the table or leaves the session, and only a phase and a fault have one that follows an edge. -/
theorem sessionFollowsTheTransitionTable : Obligations.SessionFollowsTheTransitionTable :=
  fun _ _ _ h => ⟨exec_session_path h, exec_session_eq_or h⟩

/-- Settles O44: a single operation has one effect, and a fault as that effect writes nothing else. -/
theorem faultsArePrecise : Obligations.FaultsArePrecise := by
  intro i s t h hk
  have h0 := noFault_of_live (exec_live h)
  rcases exec_effect h with rfl | he | hseq
  · exact absurd h0 hk
  · rcases he.err_eq_or with e | ⟨-, e⟩
    · exact absurd (e ▸ h0) hk
    · exact .inl e
  · exact .inr hseq

/-- Settles O45: an instruction starts without a fault, so the kind it leaves is one that it can raise. -/
theorem errorKindsHaveTheirCauses : Obligations.ErrorKindsHaveTheirCauses := by
  intro i s t h
  rcases exec_err_eq_or h with e | ⟨hk, -⟩
  · have h0 : t.err.kind = .none := e ▸ noFault_of_live (exec_live h)
    simp [h0]
  · generalize t.err.kind = k at hk ⊢
    cases k with
    | none => exact hk.elim
    | timeout => exact ⟨nofun, fun _ => hk, nofun, nofun, nofun⟩
    | protocolViolation => exact ⟨nofun, nofun, nofun, fun _ => hk, nofun⟩
    | unsupportedModel => exact ⟨nofun, nofun, fun _ => hk, nofun, nofun⟩
    | transportFailure => exact ⟨nofun, nofun, nofun, nofun, fun _ => hk⟩
    | imageSourceFailure => exact hk.elim

/-- Settles O46: the one effect on the identity needs `ID_VALID = 0` and leaves it 1. -/
theorem identityIsWrittenOnce : Obligations.IdentityIsWrittenOnce := by
  intro i s t h
  rcases exec_ident_eq_or h with e | ⟨hi, hv0, hv1⟩
  · exact ⟨fun _ => e, fun hne => absurd e hne⟩
  · exact ⟨fun hv => absurd (hv0.symm.trans hv) Bool.false_ne_true, fun _ => ⟨hi, hv0, hv1⟩⟩

/-- Settles O47: a register changes by an effect that writes it, and the instructions that have such an effect are the ones of the matrix. -/
theorem writeMatrix : Obligations.WriteMatrix := by
  intro i s t h
  have hrx := field_eq_or (fun s => (s.rx.buf, s.rx.len)) (fun _ _ he => he.rx_eq_or) h
  have hfresh := field_eq_or (·.rx.fresh) (fun _ _ he => he.fresh_eq_or) h
  refine ⟨field_eq_or (·.crc) (fun _ _ he => he.crc_eq_or) h,
    field_eq_or (·.tx) (fun _ _ he => he.tx_eq_or) h, ?_, ?_,
    field_eq_or (·.pre) (fun _ _ he => he.pre_eq_or) h, (exec_ident_eq_or h).imp_right And.left,
    field_eq_or (·.matched) (fun _ _ he => he.matched_eq_or) h,
    field_eq_or (·.chunkIdx) (fun _ _ he => he.chunkIdx_eq_or) h,
    field_eq_or (·.deadline) (fun _ _ he => he.deadline_eq_or) h,
    (exec_err_eq_or h).imp_right And.right, ?_⟩
  · exact hrx.symm.imp_right Prod.ext_iff.mp
  · exact or_assoc.mp hfresh.symm
  · exact Prod.ext_iff.mp (exec_config_eq h)

/-- Settles O48: no effect takes an event from the record. -/
theorem linkHistoryOnlyGrows : Obligations.LinkHistoryOnlyGrows := fun s _ =>
  step_keeps (P := fun u => s.link.log <+: u.link.log) (fun _ _ h => h)
    (fun _ _ _ _ he hs => hs.trans he.log_prefix) (List.prefix_refl _)

end

