-- ==== Sys2Proof/Proofs/Refusals.lean ====
section
/-! Where an instruction is refused, and that no step from whole buffers stops with the model's fault (30_encoding.md R108, 10_state.md R41, 44_session_phases.md R193, 60_exceptions.md R229, 20_memory.md R52). -/

namespace Sys2Proof.Machine

theorem admitted_of_terminal {s : State} (h : s.session = .complete ∨ s.session = .failed)
    (k : Result) : ∃ r, admitted s k = .refused r := by
  unfold admitted
  split_ifs with hf hc
  · exact ⟨_, rfl⟩
  · exact ⟨_, rfl⟩
  · exact absurd (h.resolve_left hc) fun h => hf (.inr h)

/-- Without a fresh reply a decode operation is refused (10_state.md R41). -/
theorem withReply_of_not_fresh {s : State} (hl : s.live = true) (hf : s.rx.fresh = false)
    (k : List Byte → Result) : withReply s k = .refused (.unwritten .reply) := by
  rw [withReply, admitted_of_live hl, hf, if_neg Bool.false_ne_true]

theorem exec_crcUpd_of_none {s : State} (hl : s.live = true) (hc : s.crc = none) (b : Byte) :
    exec (.crcUpd b) s = .refused (.unwritten .crc) :=
  (admitted_of_live hl _).trans (by rw [hc])

theorem exec_crcGet_of_none {s : State} (hl : s.live = true) (hc : s.crc = none) :
    exec .crcGet s = .refused (.unwritten .crc) :=
  (admitted_of_live hl _).trans (by rw [hc])

theorem exec_phGate_of_unidentified {s : State} (hl : s.live = true)
    (hs : s.session = .identityKnown) (hv : s.ident.valid = false) :
    exec .phGate s = .refused (.unwritten .identity) :=
  (inSession_of_eq hl hs _).trans (by rw [hv])

/-! ## Unknown command codes -/

/-- The command codes of the table (30_encoding.md R107), as numbers. -/
def commandCodes : List Nat :=
  [0x00, 0x01, 0x02, 0x10, 0x11, 0x12, 0x13, 0x20, 0x21, 0x22, 0x23, 0x24, 0x25,
    0x30, 0x31, 0x32, 0x33, 0x34, 0x35, 0x40, 0x41, 0x42, 0x43, 0x44]

/-- A code outside the table has no length and starts no row. -/
theorem unknownCode_of_notMem {op : Byte} (h : op.toNat ∉ commandCodes) :
    commandLength op = 0 ∧ decodePlain op = none ∧ (∀ b, decodeByteOperand op b = none) ∧
      ∀ a ph pl qh ql, decodeFrameOperands op a ph pl qh ql = none := by
  simp only [commandCodes, List.mem_cons, List.not_mem_nil, or_false, not_or] at h
  refine ⟨?_, ?_, fun b => ?_, fun a ph pl qh ql => ?_⟩
  · simp [commandLength, BitVec.toNat_eq, h]
  · simp [decodePlain, BitVec.toNat_eq, h]
  · simp [decodeByteOperand, BitVec.toNat_eq, h]
  · simp [decodeFrameOperands, BitVec.toNat_eq, h]

theorem decodeCommand_of_unknownCode {op : Byte} (h : op.toNat ∉ commandCodes) (args : List Byte) :
    decodeCommand (op :: args) = .error (.unknownCode op) := by
  obtain ⟨hlen, hplain, hbyte, hframe⟩ := unknownCode_of_notMem h
  have herr : commandError op = .unknownCode op := by rw [commandError, if_pos hlen]
  unfold decodeCommand
  split
  next hnil => cases hnil
  next hw =>
    cases hw
    rw [hplain, orCommandError, herr]
  next hw =>
    cases hw
    rw [hbyte, orCommandError, herr]
  next hw =>
    cases hw
    rw [hframe, orCommandError, herr]
  next hw =>
    cases hw
    rw [herr]

/-! ## No fault of the model -/

/-- The instruction does not stop with the model's fault. -/
def NoFault (r : Result) : Prop := ∀ f, r ≠ .fault f

section
variable {s t : State} {k k' : Result}

theorem NoFault.next : NoFault (.next t) := nofun

theorem NoFault.refused {r : Refusal} : NoFault (.refused r) := nofun

theorem NoFault.ite {p : Prop} [Decidable p] (h : NoFault k) (h' : NoFault k') :
    NoFault (if p then k else k') := by
  split <;> assumption

theorem NoFault.admitted (h : NoFault k) : NoFault (admitted s k) := fun f hf =>
  h f (admitted_fault hf)

theorem NoFault.inSession {x : Session} (h : NoFault k) : NoFault (inSession x s k) := fun f hf =>
  h f (inSession_fault hf)

/-- A reply that the buffer holds can be read (20_memory.md R52). -/
theorem NoFault.withReply (hs : s.BuffersInv) {k : List Byte → Result} (h : ∀ B, NoFault (k B)) :
    NoFault (withReply s k) := by
  obtain ⟨B, hB, -⟩ := hs.rx.exists_bytes
  refine .admitted (.ite ?_ .refused)
  rw [memRead_rxbuf hB]
  exact h B

theorem exec_noFault (hs : s.BuffersInv) (i : Instr) : NoFault (exec i s) := by
  cases i with
  | crcInit | encRhr | encWsr | ldRd4 | ldReboot | setdl | pause | rd4Req | rebootReq | rd4Rsp
  | rebootAck | infoRsp | okTok | bootTok | readyTok => exact .admitted .next
  | phDetect | phLegacy | phXfer => exact .inSession .next
  | decRhr4 | decAck | cmpBoot | chkReady | chkOk => exact .withReply hs fun _ => .next
  | decInfo => exact .withReply hs fun _ => .ite .refused .next
  | recv | rhrReq | wsrReq => exact .admitted (.ite .next .refused)
  | sendchunk => exact .inSession (.ite .next .refused)
  | chunk => exact .inSession (.ite (.ite .next .refused) .refused)
  | phIdent => exact .inSession (.ite .refused .next)
  | crcUpd | crcGet | sendtok =>
    refine .admitted ?_
    split
    · exact .next
    · exact .refused
  | phGate =>
    refine .inSession ?_
    split
    · exact .next
    · exact .refused
  | send =>
    obtain ⟨F, hF, -⟩ := hs.tx.exists_bytes
    refine .admitted (.ite .refused ?_)
    rw [memRead_txbuf hF]
    exact .next

end

end Sys2Proof.Machine

open Sys2Proof Sys2Proof.Machine

/-- Settles O4: an unknown code starts no row of the table, whatever follows it, and RECV and SENDTOK test their operand. -/
theorem badCommandsAreRefused : Obligations.BadCommandsAreRefused := by
  refine ⟨fun s op args rest hop hin => ?_, fun s n hl => exec_recv_of_outOfRange hl,
    fun s k hl => exec_sendtok_of_outOfRange hl⟩
  rw [step, hin]
  simp only [decode, decodeCommand_of_unknownCode hop]

/-- Settles O24: in a live session each of these operations tests what it would read before it reads it. -/
theorem unwrittenRegistersAreNotRead : Obligations.UnwrittenRegistersAreNotRead := by
  refine fun s hl => ⟨exec_phGate_of_unidentified hl, fun i hi hf => ?_, exec_send_of_empty hl,
    fun b hc => ⟨exec_crcUpd_of_none hl hc b, exec_crcGet_of_none hl hc⟩⟩
  simp only [List.mem_cons, List.not_mem_nil, or_false] at hi
  rcases hi with rfl | rfl | rfl | rfl | rfl | rfl <;> exact withReply_of_not_fresh hl hf _

/-- Settles O41: each phase is behind the test of its entry state, and every instruction behind that of the terminal ones. -/
theorem phasesRunFromTheirEntryStateOnly : Obligations.PhasesRunFromTheirEntryStateOnly := by
  refine ⟨fun s hl => ⟨fun hs => inSession_of_ne hl hs _, fun hs => inSession_of_ne hl hs _,
    fun hs => inSession_of_ne hl hs _, fun hs => inSession_of_ne hl hs _,
    fun hs => inSession_of_ne hl hs _⟩, fun i s hs => ?_⟩
  obtain ⟨k, hk⟩ := exec_eq_admitted i s
  rw [hk]
  exact admitted_of_terminal hs k

/-- Settles O43: the common check comes first in every instruction. -/
theorem faultsAreSticky : Obligations.FaultsAreSticky := by
  intro i s hf
  obtain ⟨k, hk⟩ := exec_eq_admitted i s
  rw [hk, admitted_of_faulted hf]

/-- Settles O55: SEND and the decode operations read exactly the bytes that their buffer holds, and no other instruction reads one. -/
theorem noStepReadsOutsideABuffer : Obligations.NoStepReadsOutsideABuffer := by
  intro s f hs h
  unfold step at h
  split at h
  · cases h
  · next rest _ =>
    have hin : (s.setInput rest).BuffersInv := ⟨hs.tx, hs.txWhole, hs.rx, hs.err, hs.errNone⟩
    split at h
    · exact exec_noFault hin _ f h
    · cases h

end

