-- ==== Sys2Proof/Proofs/Encoding.lean ====
section
/-! Decoding and encoding are inverse to each other, and a step runs what the first input decodes to (30_encoding.md R82 to R94, R106, R107). -/

namespace Sys2Proof.Machine

/-! ## What each part of the decoder reads is encoded back -/

theorem orCommandError_ok {op : Byte} {o : Option Instr} {i : Instr}
    (h : orCommandError op o = .ok i) : o = some i := by
  cases o with
  | none => cases h
  | some j =>
    cases h
    rfl

/-- One row of the table, and the rows after it. -/
theorem encode_of_row {op code : Byte} {row i : Instr} {rest : Option Instr} {u : Input}
    (hrow : op = code → encode row = u) (hrest : rest = some i → encode i = u)
    (h : (if op = code then some row else rest) = some i) : encode i = u := by
  split at h
  · cases h
    exact hrow ‹_›
  · exact hrest h

theorem encode_of_decodePlain {op : Byte} {i : Instr} (h : decodePlain op = some i) :
    encode i = .command [op] := by
  revert h
  unfold decodePlain
  iterate 18 refine encode_of_row (fun hop => hop ▸ rfl) ?_
  exact nofun

theorem encode_of_decodeByteOperand {op b : Byte} {i : Instr}
    (h : decodeByteOperand op b = some i) : encode i = .command [op, b] := by
  revert h
  unfold decodeByteOperand
  iterate 4 refine encode_of_row (fun hop => hop ▸ rfl) ?_
  exact nofun

theorem encode_of_decodeFrameOperands {op a ph pl qh ql : Byte} {i : Instr}
    (h : decodeFrameOperands op a ph pl qh ql = some i) :
    encode i = .command [op, a, ph, pl, qh, ql] := by
  revert h
  unfold decodeFrameOperands
  iterate 2 refine encode_of_row (fun hop => by simp [encode, hop]) ?_
  exact nofun

theorem encode_of_decodeCommand {word : List Byte} {i : Instr}
    (h : decodeCommand word = .ok i) : encode i = .command word := by
  unfold decodeCommand at h
  split at h
  · cases h
  · exact encode_of_decodePlain (orCommandError_ok h)
  · exact encode_of_decodeByteOperand (orCommandError_ok h)
  · exact encode_of_decodeFrameOperands (orCommandError_ok h)
  · cases h

/-- A message that passes the test of its format's fixed bytes. -/
theorem encode_of_test {p : Prop} [Decidable p] {j i : Instr} {e : DecodeError} {u : Input}
    (hj : p → encode j = u)
    (h : (if p then .ok j else .error e : Except DecodeError Instr) = .ok i) : encode i = u := by
  split at h
  · cases h
    exact hj ‹_›
  · cases h

theorem encode_of_decodeMessage {f : WireFormat} {B : List Byte} {i : Instr}
    (h : decodeMessage f B = .ok i) : encode i = .message f B := by
  revert h
  unfold decodeMessage
  split
  case h_1 => exact encode_of_test fun hf => by simp [encode, reqBytes, reqBody, hf]
  case h_2 => exact encode_of_test fun hf => by simp [encode, reqBytes, reqBody, hf]
  case h_3 => exact encode_of_test fun hB => by rw [hB, encode]
  case h_4 => exact encode_of_test fun hB => by rw [hB, encode]
  case h_5 =>
    exact encode_of_test fun ⟨ha, hf, hn⟩ => by simp [encode, rspBytes, rspBody, ha, hf, hn]
  case h_6 =>
    intro h
    cases h
    rfl
  case h_7 =>
    intro h
    cases h
    simp [encode, infoBytes]
  case h_8 => exact encode_of_test fun hB => by rw [hB, encode]
  case h_9 =>
    intro h
    cases h
    rfl
  case h_10 =>
    intro h
    cases h
    rfl
  case h_11 => exact encode_of_test fun _ => rfl
  case h_12 => exact nofun

end Sys2Proof.Machine

open Sys2Proof Sys2Proof.Machine

/-- Settles O1: each word decodes by computation. -/
theorem writtenWordsDecode : Obligations.WrittenWordsDecode :=
  ⟨rfl, rfl, rfl, rfl, rfl, rfl, rfl⟩

/-- Settles O2: splitting a 16-bit or 32-bit operand into bytes and assembling it again gives it back, and only the length of a chunk is left for the decoder to test. -/
theorem decodeEncodeAgree : Obligations.DecodeEncodeAgree := by
  intro i hwf
  cases i with
  | encRhr | encWsr => simp [encode, decode, decodeCommand, decodeFrameOperands, orCommandError]
  | rhrReq | wsrReq => simp [encode, decode, decodeMessage, reqBytes, reqBody]
  | rd4Rsp => simp [encode, decode, decodeMessage, rspBytes, rspBody]
  | infoRsp => simp [encode, decode, decodeMessage, infoBytes]
  | chunk d => exact if_pos (of_decide_eq_true hwf)
  | _ => rfl

/-- Settles O3: each row of the decoder reads the bytes that the encoder writes for its instruction, the fixed ones by its test. -/
theorem encodeDecodeAgree : Obligations.EncodeDecodeAgree := by
  intro u i h
  cases u with
  | command word => exact encode_of_decodeCommand h
  | message f B => exact encode_of_decodeMessage h

/-- Settles O5: by the two cases of `step`. -/
theorem stepRunsDecodedInstruction : Obligations.StepRunsDecodedInstruction := by
  refine ⟨fun s u rest i hin hu => ?_, fun s hin => ?_⟩
  · simp only [step, hin, hu, State.setInput]
  · simp only [step, hin]

end

