-- ==== Sys2Proof/Proofs/ChecksumAlgebra.lean ====
section
/-! The algebra of the checksum: its steps in serial and in table form, their injectivity, the residue and linearity (40_crc16.md R125, R131 to R136). -/

namespace Sys2Proof.Machine

/-! ## Injectivity of the steps -/

/-- A bit step that leaves the top bit clear has shifted out a zero: with a one it would have put the polynomial's top bit there. -/
theorem toNat_of_crcBit_lt {c : Word} (h : (crcBit c).toNat < 2 ^ 15) :
    c.toNat = 2 * (crcBit c).toNat := by
  have htop : (crcBit c).getLsbD 15 = c.getLsbD 0 := by
    unfold crcBit
    cases c.getLsbD 0 <;> simp [Config.crcPoly]
  have heven : c.getLsbD 0 = false := htop.symm.trans (Nat.testBit_lt_two_pow h)
  have hmod : c.toNat % 2 = 0 := by
    simpa [BitVec.getLsbD, Nat.testBit_zero] using heven
  rw [crcBit_of_even heven, BitVec.toNat_ushiftRight, Nat.shiftRight_eq_div_pow]
  omega

theorem crcBit_injective : Function.Injective crcBit := by
  intro x y h
  have hz : crcBit (x ^^^ y) = 0#16 := by rw [crcBit_xor, h, BitVec.xor_self]
  have h0 := toNat_of_crcBit_lt (c := x ^^^ y) (by rw [hz]; decide)
  rw [hz] at h0
  exact BitVec.xor_eq_zero_iff.mp (BitVec.eq_of_toNat_eq h0)

theorem crcBit_bijective : Function.Bijective crcBit :=
  Finite.injective_iff_bijective.mp crcBit_injective

/-- The byte enters by an exclusive-or, and eight bit steps follow. -/
theorem crcByte_eq_iterate (c : Word) (b : Byte) :
    crcByte c b = crcBit^[8] (c ^^^ b.zeroExtend 16) := rfl

theorem crcByte_eq_iff (c c' : Word) (b b' : Byte) :
    crcByte c b = crcByte c' b' ↔ c ^^^ b.zeroExtend 16 = c' ^^^ b'.zeroExtend 16 := by
  rw [crcByte_eq_iterate, crcByte_eq_iterate]
  exact (crcBit_injective.iterate 8).eq_iff

theorem crcByte_bijective (b : Byte) : Function.Bijective (fun c => crcByte c b) := by
  refine Finite.injective_iff_bijective.mp fun c c' h => ?_
  exact (BitVec.xor_left_inj _).mp ((crcByte_eq_iff c c' b b).mp h)

/-! ## The serial form (R131) -/

/-- One bit of a byte fed to the accumulator (R131). -/
def crcSerialBit (b : Byte) (c : Word) (i : Nat) : Word :=
  if (c.getLsbD 0 ^^ b.getLsbD i) then (c >>> 1) ^^^ 0xA001#16 else c >>> 1

/-- A bit step with the bits of the byte from `i` on still in the accumulator feeds bit `i` and leaves those after it. -/
theorem crcBit_xor_shift (c : Word) (b : Byte) {i : Nat} (hi : i < 8) :
    crcBit (c ^^^ b.zeroExtend 16 >>> i) = crcSerialBit b c i ^^^ b.zeroExtend 16 >>> (i + 1) := by
  have hbit : (c ^^^ b.zeroExtend 16 >>> i).getLsbD 0 = (c.getLsbD 0 ^^ b.getLsbD i) := by
    simp [show i < 16 by omega]
  have hshift : (c ^^^ b.zeroExtend 16 >>> i) >>> 1 = c >>> 1 ^^^ b.zeroExtend 16 >>> (i + 1) := by
    rw [BitVec.ushiftRight_xor_distrib, BitVec.shiftRight_add]
  unfold crcBit crcSerialBit
  rw [hbit, hshift]
  split
  · rw [BitVec.xor_assoc, BitVec.xor_assoc, BitVec.xor_comm (b.zeroExtend 16 >>> (i + 1))]
    rfl
  · rfl

/-- A byte in the low half is gone after a shift by eight. -/
theorem zeroExtend_shift_eight (b : Byte) : b.zeroExtend 16 >>> 8 = 0#16 := by
  apply BitVec.eq_of_getLsbD_eq
  intro i hi
  simp [BitVec.getLsbD_of_ge]

theorem xor_zeroExtend_shift_eight (c : Word) (b : Byte) :
    (c ^^^ b.zeroExtend 16) >>> 8 = c >>> 8 := by
  rw [BitVec.ushiftRight_xor_distrib, zeroExtend_shift_eight, BitVec.xor_zero]

theorem crcByte_eq_serial (c : Word) (b : Byte) :
    crcByte c b = (List.range 8).foldl (crcSerialBit b) c := by
  have hstart : c ^^^ b.zeroExtend 16 = c ^^^ b.zeroExtend 16 >>> 0 := by
    rw [BitVec.ushiftRight_zero]
  rw [crcByte, hstart, crcBit_xor_shift, crcBit_xor_shift, crcBit_xor_shift, crcBit_xor_shift,
    crcBit_xor_shift, crcBit_xor_shift, crcBit_xor_shift, crcBit_xor_shift,
    zeroExtend_shift_eight, BitVec.xor_zero]
  · rfl
  all_goals decide

/-! ## The table form (R133) and the two identities of the residue (R135) -/

/-- A byte step that clears the low half of the accumulator is a shift by eight. -/
theorem crcByte_eq_shift {c : Word} {b : Byte} (h : ∀ i < 8, b.getLsbD i = c.getLsbD i) :
    crcByte c b = c >>> 8 := by
  rw [crcByte_of_low_zero fun i hi => ?_, xor_zeroExtend_shift_eight]
  simp [h i hi, show i < 16 by omega]

theorem crcByte_eq_table (c : Word) (b : Byte) :
    crcByte c b = (c >>> 8) ^^^ crcByte 0x0000 ((c ^^^ b.zeroExtend 16).extractLsb' 0 8) := by
  generalize hd : (c ^^^ b.zeroExtend 16).extractLsb' 0 8 = d
  have hlow : ∀ i < 8, (b ^^^ d).getLsbD i = c.getLsbD i := by
    intro i hi
    have hcancel : ∀ x y : Bool, (y ^^ (x ^^ y)) = x := by decide
    subst hd
    simp [hi, show i < 16 by omega, hcancel]
  calc crcByte c b = crcByte (c ^^^ 0x0000) ((b ^^^ d) ^^^ d) := by
        simp
    _ = crcByte c (b ^^^ d) ^^^ crcByte 0x0000 d := crcByte_xor _ _ _ _
    _ = (c >>> 8) ^^^ crcByte 0x0000 d := by rw [crcByte_eq_shift hlow]

theorem crcByte_lo8 (c : Word) : crcByte c (lo8 c) = c >>> 8 :=
  crcByte_eq_shift fun i hi => by simp [lo8, hi]

theorem crcByte_hi8 (c : Word) : crcByte (c >>> 8) (hi8 c) = 0x0000#16 := by
  rw [crcByte_eq_shift fun i hi => by simp [hi8, hi], ← BitVec.shiftRight_add]
  exact BitVec.ushiftRight_eq_zero (le_refl 16)

/-! ## The residue (R135) -/

/-- Eight bit steps that end below `2 ^ 8` were eight shifts. -/
theorem toNat_of_iterate_crcBit_lt {x : Word} (h : (crcBit^[8] x).toNat < 2 ^ 8) :
    x.toNat = 2 ^ 8 * (crcBit^[8] x).toNat := by
  suffices hk : ∀ k ≤ 8, ∀ y,
      (crcBit^[k] y).toNat < 2 ^ 8 → y.toNat = 2 ^ k * (crcBit^[k] y).toNat from
    hk 8 (le_refl 8) x h
  intro k
  induction k with
  | zero => intro _ y _; simp
  | succ k ih =>
    intro hk y hy
    rw [Function.iterate_succ_apply] at hy ⊢
    have hnext := ih (by omega) (crcBit y) hy
    have hpow : 2 ^ k ≤ 2 ^ 7 := Nat.pow_le_pow_right (by omega) (by omega)
    have hlt : (crcBit y).toNat < 2 ^ 15 := by
      rw [hnext]
      calc _ < 2 ^ k * 2 ^ 8 := by gcongr
        _ ≤ 2 ^ 7 * 2 ^ 8 := by gcongr
    rw [toNat_of_crcBit_lt hlt, pow_succ, mul_assoc, mul_left_comm, ← hnext]

theorem toNat_zeroExtend_byte (b : Byte) : (b.zeroExtend 16).toNat = b.toNat :=
  BitVec.toNat_setWidth_of_le (by decide)

theorem zeroExtend_xor (a b : Byte) :
    (a ^^^ b).zeroExtend 16 = a.zeroExtend 16 ^^^ b.zeroExtend 16 :=
  BitVec.setWidth_xor

theorem xor_eq_xor_of_xor_eq {x y a b : Word} (h : x ^^^ a = y ^^^ b) : x ^^^ y = a ^^^ b :=
  calc x ^^^ y = x ^^^ ((y ^^^ b) ^^^ b) := by
        rw [BitVec.xor_assoc, BitVec.xor_self, BitVec.xor_zero]
    _ = x ^^^ ((x ^^^ a) ^^^ b) := by rw [h]
    _ = a ^^^ b := by
        rw [BitVec.xor_assoc, ← BitVec.xor_assoc x x, BitVec.xor_self, BitVec.zero_xor]

/-- Two bytes that follow an accumulator are determined by where they lead: the steps of the difference of the first two end below `2 ^ 8`, and so it is zero. -/
theorem crcByte_crcByte_injective (c : Word) :
    Function.Injective (fun bs : Byte × Byte => crcByte (crcByte c bs.1) bs.2) := by
  rintro ⟨l, h⟩ ⟨l', h'⟩ heq
  have hlow : crcByte c l ^^^ h.zeroExtend 16 = crcByte c l' ^^^ h'.zeroExtend 16 :=
    (crcByte_eq_iff _ _ _ _).mp heq
  have hdiff : crcBit^[8] ((l ^^^ l').zeroExtend 16) = (h ^^^ h').zeroExtend 16 := by
    rw [zeroExtend_xor h, ← xor_eq_xor_of_xor_eq hlow, ← crcByte_xor, crcByte_eq_iterate,
      BitVec.xor_self, BitVec.zero_xor]
  have hl : l = l' := by
    have h0 := toNat_of_iterate_crcBit_lt (x := (l ^^^ l').zeroExtend 16) (by
      rw [hdiff, toNat_zeroExtend_byte]
      exact (h ^^^ h').isLt)
    have hlt := (l ^^^ l').isLt
    rw [toNat_zeroExtend_byte] at h0
    have hz : (l ^^^ l').toNat = 0 := by omega
    exact BitVec.xor_eq_zero_iff.mp (BitVec.eq_of_toNat_eq hz)
  subst hl
  have hext : h.zeroExtend 16 = h'.zeroExtend 16 := (BitVec.xor_right_inj _).mp hlow
  have hh : h = h' := BitVec.eq_of_toNat_eq (by
    rw [← toNat_zeroExtend_byte, hext, toNat_zeroExtend_byte])
  rw [hh]

theorem crcByte_crcByte_bijective (c : Word) :
    Function.Bijective (fun bs : Byte × Byte => crcByte (crcByte c bs.1) bs.2) := by
  have hcard (n : Nat) : Nat.card (BitVec n) = 2 ^ n := by
    rw [Nat.card_congr BitVec.equivFin.toEquiv, Nat.card_fin]
  refine (crcByte_crcByte_injective c).bijective_of_nat_card_le ?_
  rw [Nat.card_prod, hcard, hcard, ← Nat.pow_add]

theorem crc16_append_pair (M : List Byte) (l h : Byte) :
    crc16 (M ++ [l, h]) = crcByte (crcByte (crc16 M) l) h := by
  rw [crc16, List.foldl_append]
  rfl

theorem crc16_crcAppend (M : List Byte) : crc16 (crcAppend M) = 0x0000#16 := by
  rw [crcAppend, crc16_append_pair, crcByte_lo8, crcByte_hi8]

theorem crc16_append_pair_eq_zero_iff (M : List Byte) (l h : Byte) :
    crc16 (M ++ [l, h]) = 0x0000#16 ↔ [l, h] = [lo8 (crc16 M), hi8 (crc16 M)] := by
  rw [← crc16_crcAppend M, crcAppend, crc16_append_pair, crc16_append_pair]
  refine ((crcByte_crcByte_injective (crc16 M)).eq_iff (a := (l, h))
    (b := (lo8 (crc16 M), hi8 (crc16 M)))).trans ?_
  simp

/-! ## The check (R125) -/

/-- A sequence of at least two bytes, taken apart before its last two. -/
theorem exists_eq_append_pair {F : List Byte} (h : 2 ≤ F.length) :
    ∃ M l r, F = M ++ [l, r] := by
  have hlen : (F.drop (F.length - 2)).length = 2 := by
    rw [List.length_drop]
    omega
  obtain ⟨l, r, hlr⟩ := List.length_eq_two.mp hlen
  exact ⟨F.take (F.length - 2), l, r, by rw [← hlr, List.take_append_drop]⟩

theorem crcOk_append_pair_iff (M : List Byte) (l r : Byte) :
    crcOk (M ++ [l, r]) = true ↔ [l, r] = [lo8 (crc16 M), hi8 (crc16 M)] := by
  simp [crcOk]

theorem crcOk_iff_crc16_eq_zero {F : List Byte} (h : 2 ≤ F.length) :
    crcOk F = true ↔ crc16 F = 0x0000#16 := by
  obtain ⟨M, l, r, rfl⟩ := exists_eq_append_pair h
  rw [crcOk_append_pair_iff, crc16_append_pair_eq_zero_iff]

theorem two_le_length_of_crcOk {F : List Byte} (h : crcOk F = true) : 2 ≤ F.length := by
  obtain ⟨hlen, -⟩ := of_decide_eq_true h
  exact hlen

/-- The check byte by byte: the last two bytes are the checksum of the rest. -/
theorem crcOk_iff (F : List Byte) :
    crcOk F = true ↔
      2 ≤ F.length ∧
        F[F.length - 2]? = some (lo8 (crc16 (F.take (F.length - 2)))) ∧
        F[F.length - 1]? = some (hi8 (crc16 (F.take (F.length - 2)))) := by
  constructor
  · intro h
    obtain ⟨M, l, r, rfl⟩ := exists_eq_append_pair (two_le_length_of_crcOk h)
    have hlr := (crcOk_append_pair_iff M l r).mp h
    simpa using hlr
  · rintro ⟨h, hl, hr⟩
    obtain ⟨M, l, r, rfl⟩ := exists_eq_append_pair h
    rw [crcOk_append_pair_iff]
    simpa using And.intro hl hr

theorem take_three_eq_iff (B : List Byte) (a b c : Byte) :
    B.take 3 = [a, b, c] ↔ B[0]? = some a ∧ B[1]? = some b ∧ B[2]? = some c := by
  rcases B with _ | ⟨x, _ | ⟨y, _ | ⟨z, rest⟩⟩⟩ <;> simp

theorem rhr4Ok_iff (B : List Byte) :
    rhr4Ok B = true ↔
      B.length = 13 ∧ B.take 3 = [0x01, 0x03, 0x08] ∧ crcOk B = true := by
  rw [rhr4Ok, Bool.and_eq_true, decide_eq_true_eq, and_assoc]
  rfl

/-! ## Linearity (R136) -/

theorem foldl_crcByte_xor {A B : List Byte} (h : A.length = B.length) (a b : Word) :
    (List.zipWith (· ^^^ ·) A B).foldl crcByte (a ^^^ b) =
      A.foldl crcByte a ^^^ B.foldl crcByte b := by
  induction A generalizing B a b with
  | nil =>
    cases B with
    | nil => rfl
    | cons y B => cases h
  | cons x A ih =>
    cases B with
    | nil => cases h
    | cons y B =>
      simp only [List.zipWith_cons_cons, List.foldl_cons, crcByte_xor]
      exact ih (Nat.succ.inj h) _ _

end Sys2Proof.Machine

open Sys2Proof Sys2Proof.Machine

/-- Settles O10: the serial form feeds one bit per bit step; a bit step is injective, and a byte step is an exclusive-or and eight of them; the table form splits off, by linearity, the part of the byte that meets the low half. -/
theorem byteStepSerialAndTableForms : Obligations.ByteStepSerialAndTableForms :=
  ⟨crcByte_eq_serial, ⟨crcBit_bijective, crcByte_bijective⟩, crcByte_eq_table, by decide +kernel⟩

/-- Settles O11: the two identities give the residue, and that two bytes are determined by where they lead makes the two checks agree. -/
theorem checksumResidueIsZero : Obligations.ChecksumResidueIsZero :=
  ⟨crc16_crcAppend, fun c => ⟨crcByte_lo8 c, crcByte_hi8 c⟩, crcByte_crcByte_bijective,
    fun _ => crcOk_iff_crc16_eq_zero⟩

/-- Settles O12: the byte step is linear, and so is the fold of it over messages of one length; three start values add up to one. -/
theorem checksumIsLinear : Obligations.ChecksumIsLinear := by
  intro A B C hAB hBC
  have hzip : (List.zipWith (· ^^^ ·) A B).length = C.length := by
    rw [List.length_zipWith, hAB, Nat.min_self, hBC]
  have hinit : Config.crcInit = Config.crcInit ^^^ Config.crcInit ^^^ Config.crcInit := by
    rw [BitVec.xor_self, BitVec.zero_xor]
  unfold crc16
  conv_rhs => rw [hinit, foldl_crcByte_xor hzip, foldl_crcByte_xor hAB]

/-- Settles O13: a sequence taken apart before its last two bytes, and the header byte by byte. -/
theorem checksAcceptExactlyTheirShapes : Obligations.ChecksAcceptExactlyTheirShapes := by
  refine ⟨crcOk_iff, fun B => ?_⟩
  rw [rhr4Ok_iff, take_three_eq_iff, and_assoc, and_assoc]

end

