-- ==== Sys2Proof/Proofs/RequestFrames.lean ====
section
/-! The general encoders, the fixed frames as frames of theirs, and what every encode operation leaves in `TXBUF` (41_frame_encode.md R141 to R149). -/

namespace Sys2Proof.Machine

theorem frameRd4_eq_encReq : Config.frameRd4 = encReq 0x01 0x03 0x0000 0x0004 := by decide +kernel

theorem frameReboot_eq_encReq : Config.frameReboot = encReq 0x01 0x06 0x0100 0x1601 := by
  decide +kernel

theorem exec_encRhr (a : Byte) (p q : Word) (s : State) :
    exec (.encRhr a p q) s = admitted s (.next (s.loadFrame (encReq a 0x03 p q))) := rfl

theorem exec_encWsr (a : Byte) (p q : Word) (s : State) :
    exec (.encWsr a p q) s = admitted s (.next (s.loadFrame (encReq a 0x06 p q))) := rfl

theorem eq_of_hi8_lo8_eq {p p' : Word} (hh : hi8 p = hi8 p') (hl : lo8 p = lo8 p') : p = p' := by
  rw [← be16_hi8_lo8 p, ← be16_hi8_lo8 p', hh, hl]

theorem reqBody_injective {a f a' f' : Byte} {p q p' q' : Word}
    (h : reqBody a f p q = reqBody a' f' p' q') : a = a' ∧ f = f' ∧ p = p' ∧ q = q' := by
  simp only [reqBody, List.cons.injEq, and_true] at h
  obtain ⟨ha, hf, hph, hpl, hqh, hql⟩ := h
  exact ⟨ha, hf, eq_of_hi8_lo8_eq hph hpl, eq_of_hi8_lo8_eq hqh hql⟩

/-- The four encode operations (41_frame_encode.md R142 to R145). -/
def IsEncode (i : Instr) : Prop :=
  (∃ a p q, i = .encRhr a p q) ∨ (∃ a p q, i = .encWsr a p q) ∨ i = .ldRd4 ∨ i = .ldReboot

/-- Each of them loads a whole frame that carries its checksum. -/
theorem exists_loadFrame_of_isEncode {i : Instr} {s t : State} (hi : IsEncode i)
    (h : exec i s = .next t) : ∃ F, F.length = 8 ∧ crcOk F = true ∧ t = s.loadFrame F := by
  rcases hi with ⟨a, p, q, rfl⟩ | ⟨a, p, q, rfl⟩ | rfl | rfl
  · obtain ⟨-, ht⟩ := execEncRhr_next h
    exact ⟨_, rfl, crcOk_crcAppend _, ht⟩
  · obtain ⟨-, ht⟩ := execEncWsr_next h
    exact ⟨_, rfl, crcOk_crcAppend _, ht⟩
  · obtain ⟨-, ht⟩ := execLdRd4_next h
    exact ⟨_, rfl, crcOk_frameRd4, ht⟩
  · obtain ⟨-, ht⟩ := execLdReboot_next h
    exact ⟨_, rfl, crcOk_frameReboot, ht⟩

/-- A frame leaves the offsets beyond it alone. -/
theorem read_loadFrame_of_le {F : List Byte} {a : Nat} (h : F.length ≤ a) (s : State) :
    (s.loadFrame F).tx.buf.read a = s.tx.buf.read a := by
  rw [State.loadFrame_tx, Memory.read_writeBytes, if_neg (by omega)]

end Sys2Proof.Machine

open Sys2Proof Sys2Proof.Machine

/-- Settles O15: an encoder loads the frame of its operands behind the common check, and a loader the same frame as that encoder on its fixed operands. -/
theorem encodersBuildRequests : Obligations.EncodersBuildRequests := by
  refine ⟨fun s a p q hl => ⟨?rhr, ?wsr⟩, frameRd4_eq_encReq.symm, frameReboot_eq_encReq.symm,
    frameRd4_eq_encReq, frameReboot_eq_encReq, fun s => ⟨?rd4, ?reboot⟩⟩
  case rhr => exact admitted_loadFrame_of_live rfl hl
  case wsr => exact admitted_loadFrame_of_live rfl hl
  case rd4 => rw [exec_ldRd4, exec_encRhr, frameRd4_eq_encReq]
  case reboot => rw [exec_ldReboot, exec_encWsr, frameReboot_eq_encReq]

/-- Settles O17: each of the four loads a whole frame with its checksum, and a right checksum is a zero residue. -/
theorem encodedFramesCarryTheirChecksum : Obligations.EncodedFramesCarryTheirChecksum := by
  intro s t i hi h
  obtain ⟨F, hlen, hcrc, rfl⟩ := exists_loadFrame_of_isEncode hi h
  refine ⟨?_, ⟨F, hasFrame_loadFrame hlen.le s, hcrc, ?_⟩, fun a ha => ?_, rfl⟩
  · rw [State.loadFrame_tx, lengthReg_val, hlen, min_self]
  · exact (crcOk_iff_crc16_eq_zero (two_le_length_of_crcOk hcrc)).mp hcrc
  · exact read_loadFrame_of_le (hlen.trans_le ha) s

/-- Settles O18: the first six bytes are the operands, of which the 16-bit ones are given by their halves. -/
theorem requestEncodingIsInjective : Obligations.RequestEncodingIsInjective := by
  refine ⟨length_encReq, fun a f a' f' p q p' q' h => ?_, ?_⟩
  · exact reqBody_injective (List.append_inj_left h rfl)
  · decide +kernel

end

