-- ==== Sys2Proof/Proofs/Streaming.lean ====
section
/-! The streaming operations of the checksum unit, and that no other instruction reads or writes `CRC` (40_crc16.md R126 to R129, 10_state.md R24). -/

namespace Sys2Proof.Machine

/-! ## The three operations -/

section
variable {s : State} (hl : s.live = true)
include hl

theorem exec_crcInit_of_live : exec .crcInit s = .next { s with crc := some 0xFFFF#16 } :=
  admitted_of_live hl _

theorem exec_crcUpd_of_some {c : Word} (hc : s.crc = some c) (b : Byte) :
    exec (.crcUpd b) s = .next { s with crc := some (crcByte c b) } :=
  (admitted_of_live hl _).trans (by rw [hc]; rfl)

theorem exec_crcGet_of_some {c : Word} (hc : s.crc = some c) :
    exec .crcGet s = .next (s.setOut (.crcBytes (lo8 c) (hi8 c))) :=
  (admitted_of_live hl _).trans (by rw [hc])
end

theorem runAll_cons_of_next {i : Instr} {s t : State} (h : exec i s = .next t) (is : List Instr) :
    runAll (i :: is) s = runAll is t := by
  rw [runAll, h]

theorem runAll_cons_next {i : Instr} {is : List Instr} {s t : State}
    (h : runAll (i :: is) s = .next t) : ∃ u, exec i s = .next u ∧ runAll is u = .next t := by
  rw [runAll] at h
  split at h
  · exact ⟨_, ‹_›, h⟩
  · cases h
  · cases h

/-- A message streamed from accumulator `c`, and then `is`. -/
theorem runAll_crcUpd_append {s : State} (hl : s.live = true) (M : List Byte) (c : Word)
    (is : List Instr) :
    runAll (M.map .crcUpd ++ is) { s with crc := some c } =
      runAll is { s with crc := some (M.foldl crcByte c) } := by
  induction M generalizing c with
  | nil => rfl
  | cons b M ih =>
    have hstep : exec (.crcUpd b) { s with crc := some c } =
        .next { s with crc := some (crcByte c b) } :=
      exec_crcUpd_of_some (s := { s with crc := some c }) hl rfl b
    rw [List.map_cons, List.cons_append, runAll_cons_of_next hstep, ih, List.foldl_cons]

theorem runAll_stream {s : State} (hl : s.live = true) (M : List Byte) (is : List Instr) :
    runAll (.crcInit :: (M.map .crcUpd ++ is)) s = runAll is { s with crc := some (crc16 M) } := by
  rw [runAll_cons_of_next (exec_crcInit_of_live hl)]
  exact runAll_crcUpd_append hl M Config.crcInit is

/-- A message streamed and its checksum read out. -/
theorem runAll_stream_get {s : State} (hl : s.live = true) (M : List Byte) :
    runAll (.crcInit :: (M.map .crcUpd ++ [.crcGet])) s =
      .next { s with
        crc := some (crc16 M), out := .crcBytes (lo8 (crc16 M)) (hi8 (crc16 M)) } := by
  have hget := exec_crcGet_of_some (s := { s with crc := some (crc16 M) }) hl rfl
  rw [runAll_stream hl, runAll_cons_of_next hget]
  rfl

/-! ## Interleaved with other instructions -/

/-- The byte that an instruction gives to the checksum unit. -/
def streamedByte (i : Instr) : Option Byte :=
  match i with
  | .crcUpd b => some b
  | _ => none

theorem streamedByte_eq_none {i : Instr} (h : ∀ b, i ≠ .crcUpd b) : streamedByte i = none := by
  unfold streamedByte
  split
  · exact absurd rfl (h _)
  · rfl

theorem exec_crc_of_not_streaming {i : Instr} {s t : State} (hinit : i ≠ .crcInit)
    (hupd : ∀ b, i ≠ .crcUpd b) (h : exec i s = .next t) : t.crc = s.crc := by
  rcases field_eq_or (·.crc) (fun _ _ he => he.crc_eq_or) h with e | rfl | ⟨b, rfl⟩
  · exact e
  · exact absurd rfl hinit
  · exact absurd rfl (hupd b)

theorem runAll_crc {is : List Instr} {s t : State} {c : Word} (hc : s.crc = some c)
    (hinit : .crcInit ∉ is) (h : runAll is s = .next t) :
    t.crc = some ((is.filterMap streamedByte).foldl crcByte c) := by
  induction is generalizing s c with
  | nil =>
    obtain rfl := next_eq h
    exact hc
  | cons i is ih =>
    obtain ⟨u, hi, hrest⟩ := runAll_cons_next h
    obtain ⟨hne, hnot⟩ := List.ne_and_not_mem_of_not_mem_cons hinit
    by_cases hupd : ∃ b, i = .crcUpd b
    · obtain ⟨b, rfl⟩ := hupd
      obtain ⟨-, c', hc', rfl⟩ := execCrcUpd_next hi
      obtain rfl := Option.some.inj (hc.symm.trans hc')
      exact ih rfl hnot hrest
    · have hnot_upd : ∀ b, i ≠ .crcUpd b := fun b e => hupd ⟨b, e⟩
      rw [List.filterMap_cons_none (streamedByte_eq_none hnot_upd)]
      exact ih ((exec_crc_of_not_streaming hne.symm hnot_upd hi).trans hc) hnot hrest

end Sys2Proof.Machine

open Sys2Proof Sys2Proof.Machine

/-- Settles O8: each operation is one write behind the common check; the example streams its message and reads the checksum out. -/
theorem streamingOperationsDriveTheAccumulator :
    Obligations.StreamingOperationsDriveTheAccumulator := by
  refine ⟨fun s b hl => ⟨exec_crcInit_of_live hl,
      fun c hc => ⟨exec_crcUpd_of_some hl hc b, exec_crcGet_of_some hl hc⟩,
      fun hc => ⟨exec_crcUpd_of_none hl hc b, exec_crcGet_of_none hl hc⟩⟩,
    fun s b hf i _ => faultsAreSticky i s hf, crcByte_bijective, by decide +kernel,
    fun s hl => ⟨runAll_stream_get hl [], ?_⟩⟩
  have hcrc : crc16 [0x01, 0x03, 0x00, 0x00, 0x00, 0x04] = 0x0944#16 := by decide +kernel
  have hrun := runAll_stream_get hl [0x01, 0x03, 0x00, 0x00, 0x00, 0x04]
  rw [hcrc] at hrun
  exact hrun

/-- Settles O9: CRC.UPD folds its byte into the accumulator and no other instruction but CRC.INIT writes it, by induction over the run. -/
theorem streamingEqualsMessageChecksum : Obligations.StreamingEqualsMessageChecksum := by
  refine ⟨fun s M hl => ?message, fun is s t hc hinit h => ?interleaved⟩
  case message =>
    have hrun := runAll_stream hl M []
    rwa [List.append_nil] at hrun
  case interleaved =>
    refine (runAll_crc hc hinit h).trans ?_
    refine congrArg (fun l => some (crc16 l)) (List.filterMap_congr fun i _ => ?_)
    cases i <;> rfl

end

