-- ==== Sys2Proof/Proofs/AccumulatorFrame.lean ====
section
/-! No instruction outside CRC.* reads or writes `CRC` (10_state.md R24, decision D5): the operations that they are made of give the same state up to `CRC` from any accumulator. -/

namespace Sys2Proof.Machine

/-- The operation neither reads nor writes `CRC`. -/
def CrcBlind (f : State → State) : Prop := ∀ s v, f (s.setCrc v) = (f s).setCrc v

/-! ## State operations -/

theorem CrcBlind.writeAll (ph : ErrPhase) (B : List Byte) : CrcBlind (State.writeAll ph B) := by
  intro s v
  simp only [State.writeAll, State.setCrc_link]
  cases s.link.nextWrite <;> rfl

theorem CrcBlind.receive (ph : ErrPhase) (n : Nat) : CrcBlind (State.receive ph n) := by
  intro s v
  simp only [State.receive, State.setCrc_link]
  cases s.link.nextRead <;> rfl

theorem setCrc_ite {p : Prop} [Decidable p] {v : Option Word} {s s' t t' : State}
    (hs : s' = s.setCrc v) (ht : t' = t.setCrc v) :
    (if p then s' else t') = (if p then s else t).setCrc v := by
  split
  · exact hs
  · exact ht

theorem CrcBlind.decodeRhr4 (B : List Byte) : CrcBlind (State.decodeRhr4 B) := fun _ _ =>
  setCrc_ite rfl (setCrc_ite rfl (setCrc_ite rfl (setCrc_ite rfl rfl)))

theorem CrcBlind.decodeAck (B : List Byte) : CrcBlind (State.decodeAck B) := fun _ _ =>
  setCrc_ite rfl rfl

theorem CrcBlind.decodeInfo (B : List Byte) : CrcBlind (State.decodeInfo B) := fun _ _ =>
  setCrc_ite rfl (setCrc_ite rfl (setCrc_ite rfl rfl))

theorem CrcBlind.checkReady (B : List Byte) : CrcBlind (State.checkReady B) := fun _ _ =>
  setCrc_ite rfl rfl

theorem CrcBlind.checkOk (B : List Byte) : CrcBlind (State.checkOk B) := fun _ _ =>
  setCrc_ite rfl rfl

theorem CrcBlind.gate (m : Word) : CrcBlind (State.gate m) := fun _ _ => setCrc_ite rfl rfl

theorem CrcBlind.andThen {f g : State → State} (hf : CrcBlind f) (hg : CrcBlind g) :
    CrcBlind (fun s => (f s).andThen g) := by
  intro s v
  simp only [hf s v]
  exact setCrc_ite (hg (f s) v) rfl

theorem CrcBlind.loadAndSend (F : List Byte) : CrcBlind (fun s => (s.loadFrame F).sendFrame) :=
  fun s v => CrcBlind.writeAll _ _ (s.loadFrame F) v

/-! ## Phases -/

theorem CrcBlind.detect : CrcBlind State.detect :=
  .andThen (.andThen (.andThen (.andThen (fun s v => CrcBlind.writeAll _ _ s v)
    (.receive _ _)) fun _ _ => rfl) fun _ _ => rfl) fun _ _ => rfl

theorem CrcBlind.legacyRead : CrcBlind State.legacyRead :=
  .andThen (.andThen (fun s v => CrcBlind.loadAndSend _ (s.setDeadline _) v)
    (.receive _ _)) fun s v => CrcBlind.decodeRhr4 _ s v

theorem CrcBlind.legacyReboot : CrcBlind State.legacyReboot :=
  .andThen (.andThen (.andThen (.andThen (.loadAndSend _) fun _ _ => rfl)
    (.receive _ _)) fun s v => CrcBlind.decodeAck _ s v) fun _ _ => rfl

theorem CrcBlind.legacy : CrcBlind State.legacy := .andThen .legacyRead .legacyReboot

theorem CrcBlind.askIdentity : CrcBlind State.askIdentity :=
  .andThen (fun s v => CrcBlind.writeAll _ _ s v) (.receive _ _)

theorem CrcBlind.identify : CrcBlind State.identify :=
  .andThen (.andThen .askIdentity fun s v => CrcBlind.decodeInfo _ s v) fun _ _ => rfl

theorem CrcBlind.startTransfer : CrcBlind State.startTransfer :=
  .andThen (.andThen (.andThen (.andThen (fun s v => CrcBlind.writeAll _ _ s v)
    (.receive _ _)) fun s v => CrcBlind.checkReady _ s v) fun _ _ => rfl) fun _ _ => rfl

theorem CrcBlind.transferChunk : CrcBlind State.transferChunk :=
  .andThen (.andThen (.andThen (fun s v => CrcBlind.writeAll _ _ s v)
    (.receive _ _)) fun s v => CrcBlind.checkOk _ s v) fun _ _ => rfl

theorem CrcBlind.transferLoop (n : Nat) : CrcBlind (State.transferLoop n) := by
  induction n with
  | zero => exact fun _ _ => rfl
  | succ n ih => exact fun s v => setCrc_ite (CrcBlind.andThen .transferChunk ih s v) rfl

theorem CrcBlind.transfer : CrcBlind State.transfer :=
  .andThen (.andThen .startTransfer fun s v => CrcBlind.transferLoop _ s v) fun _ _ => rfl

/-! ## Meanings -/

section
variable {s : State} {v : Option Word} {k k' l l' : Result}

theorem CrcBlind.next {f : State → State} (hf : CrcBlind f) :
    (.next (f (s.setCrc v)) : Result) = withCrc v (.next (f s)) :=
  congrArg Host.Outcome.next (hf s v)

theorem withCrc_ite {p : Prop} [Decidable p] (hk : k' = withCrc v k) (hl : l' = withCrc v l) :
    (if p then k' else l') = withCrc v (if p then k else l) := by
  split
  · exact hk
  · exact hl

theorem withCrc_admitted (hk : k' = withCrc v k) :
    admitted (s.setCrc v) k' = withCrc v (admitted s k) :=
  withCrc_ite rfl (withCrc_ite rfl hk)

theorem withCrc_inSession {x : Session} (hk : k' = withCrc v k) :
    inSession x (s.setCrc v) k' = withCrc v (inSession x s k) :=
  withCrc_admitted (withCrc_ite hk rfl)

theorem memRead_setCrc (sp : Space) (off n : Nat) :
    (s.setCrc v).memRead sp off n = s.memRead sp off n := by
  cases sp <;> rfl

theorem withCrc_withReply {f f' : List Byte → Result} (hf : ∀ B, f' B = withCrc v (f B)) :
    withReply (s.setCrc v) f' = withCrc v (withReply s f) := by
  refine withCrc_admitted (withCrc_ite ?_ rfl)
  rw [memRead_setCrc, State.setCrc_rx]
  cases s.memRead .rxbuf 0 s.rx.len.val with
  | ok B => exact hf B
  | error e => rfl

/-- Outside CRC.* the answer is the same up to `CRC`, whatever it holds. -/
theorem exec_setCrc {i : Instr} (hinit : i ≠ .crcInit) (hupd : ∀ b, i ≠ .crcUpd b)
    (hget : i ≠ .crcGet) (s : State) (v : Option Word) :
    exec i (s.setCrc v) = withCrc v (exec i s) := by
  cases i with
  | crcInit => exact absurd rfl hinit
  | crcUpd b => exact absurd rfl (hupd b)
  | crcGet => exact absurd rfl hget
  | encRhr | encWsr | ldRd4 | ldReboot | setdl | pause | rd4Rsp | rebootAck | infoRsp | okTok
  | bootTok | readyTok => exact withCrc_admitted rfl
  | decRhr4 => exact withCrc_withReply fun B => (CrcBlind.decodeRhr4 B).next
  | decAck => exact withCrc_withReply fun B => (CrcBlind.decodeAck B).next
  | decInfo => exact withCrc_withReply fun B => withCrc_ite rfl (CrcBlind.decodeInfo B).next
  | cmpBoot => exact withCrc_withReply fun _ => rfl
  | chkReady => exact withCrc_withReply fun B => (CrcBlind.checkReady B).next
  | chkOk => exact withCrc_withReply fun B => (CrcBlind.checkOk B).next
  | recv n => exact withCrc_admitted (withCrc_ite (CrcBlind.receive _ _).next rfl)
  | sendchunk => exact withCrc_inSession (withCrc_ite (CrcBlind.writeAll _ _).next rfl)
  | chunk d =>
    exact withCrc_inSession (withCrc_ite (withCrc_ite (CrcBlind.writeAll _ _).next rfl) rfl)
  | rhrReq | wsrReq => exact withCrc_admitted (withCrc_ite (CrcBlind.loadAndSend _).next rfl)
  | rd4Req | rebootReq => exact withCrc_admitted (CrcBlind.loadAndSend _).next
  | phDetect => exact withCrc_inSession CrcBlind.detect.next
  | phLegacy => exact withCrc_inSession CrcBlind.legacy.next
  | phXfer => exact withCrc_inSession CrcBlind.transfer.next
  | phIdent =>
    refine withCrc_inSession ?_
    rw [CrcBlind.askIdentity s v]
    exact withCrc_ite rfl CrcBlind.identify.next
  | phGate =>
    refine withCrc_inSession ?_
    rw [State.setCrc_ident]
    split
    · exact (CrcBlind.gate _).next
    · rfl
  | send =>
    refine withCrc_admitted (withCrc_ite rfl ?_)
    rw [memRead_setCrc, State.setCrc_tx]
    cases s.memRead .txbuf 0 s.tx.len.val with
    | ok F => exact (CrcBlind.writeAll _ F).next
    | error e => rfl
  | sendtok k =>
    refine withCrc_admitted ?_
    rw [State.setCrc_cfg]
    cases tokenOf s.cfg k with
    | some T => exact (CrcBlind.writeAll _ T).next
    | none => rfl

end

end Sys2Proof.Machine

open Sys2Proof Sys2Proof.Machine

/-- Settles O14: the operations that the other instructions are made of commute with a write of `CRC`, and by the write matrix none of them writes it. -/
theorem otherOperationsIgnoreTheAccumulator : Obligations.OtherOperationsIgnoreTheAccumulator := by
  intro i s v hinit hupd hget
  refine ⟨exec_setCrc hinit hupd hget s v, ?_⟩
  cases h : exec i s with
  | next t =>
    rw [← exec_crc_of_not_streaming hinit hupd h]
    rfl
  | fault f => rfl
  | refused r => rfl

end

