-- ==== Sys2Proof/Proofs/FrameDecode.lean ====
section
/-! Taking a fault, and the decode operations on every fresh reply (60_exceptions.md R226, 42_frame_decode.md R156 to R163). -/

namespace Sys2Proof.Machine

/-! ## The decode bodies, one equation per case -/

section
variable {s : State} {B : List Byte}

theorem decodeRhr4_nil : s.decodeRhr4 [] = s.raise .timeout .legacy none none := rfl

theorem decodeRhr4_of_not_ok (hne : B ≠ []) (hbad : rhr4Ok B = false) :
    s.decodeRhr4 B = s.raise .protocolViolation .legacy (some B) none := by
  rcases decodeRhr4_cases B s with ⟨h, -⟩ | ⟨-, -, e⟩ | ⟨hok, -⟩
  · exact absurd h hne
  · exact e
  · exact absurd (hbad.symm.trans hok) Bool.false_ne_true

theorem decodeRhr4_of_ok (hok : rhr4Ok B = true) :
    s.decodeRhr4 B = (s.takePreIdentity B).consumeReply := by
  rcases decodeRhr4_cases B s with ⟨rfl, -⟩ | ⟨-, hbad, -⟩ | ⟨-, e⟩
  · cases hok
  · exact absurd (hbad.symm.trans hok) Bool.false_ne_true
  · exact e

theorem decodeInfo_nil : s.decodeInfo [] = s.raise .timeout .identify none none := rfl

theorem decodeInfo_of_not_ok (hne : B ≠ []) (hbad : ¬infoOk s.cfg B = true) :
    s.decodeInfo B = s.raise .protocolViolation .identify (some B) none := by
  rcases decodeInfo_cases B s with ⟨h, -⟩ | ⟨-, -, e⟩ | ⟨hok, -⟩
  · exact absurd h hne
  · exact e
  · exact absurd hok hbad

variable (hB : s.hasReply B) (hl : s.live = true) (hf : s.rx.fresh = true)
include hB hl hf

theorem exec_decRhr4_of_fresh : exec .decRhr4 s = .next (s.decodeRhr4 B) :=
  withReply_of_fresh hl hf hB _

theorem exec_decAck_of_fresh : exec .decAck s = .next (s.decodeAck B) :=
  withReply_of_fresh hl hf hB _

theorem exec_decInfo_of_unidentified (hv : s.ident.valid = false) :
    exec .decInfo s = .next (s.decodeInfo B) := by
  rw [exec_decInfo_of_fresh hB hl hf, hv, if_neg Bool.false_ne_true]

end

end Sys2Proof.Machine

open Sys2Proof Sys2Proof.Machine

/-- Settles O19: `raise` writes the error registers and the session together, and a recorded fault keeps the next sub-step from running. -/
theorem raiseWritesTheErrorRegisters : Obligations.RaiseWritesTheErrorRegisters := by
  refine fun s k ph c => ⟨?bytes, ?noBytes, fun hk b f => andThen_of_faulted hk f⟩
  case bytes =>
    rintro B t hB rfl
    have hchunk : (s.err.raised k ph (some B) c).chunk = c.or s.err.chunk := by cases c <;> rfl
    refine ⟨rfl, rfl, rfl, Memory.readBytes_writeBytes _ _ _, fun a ha => ?_, Nat.min_eq_left hB,
      hchunk⟩
    exact (Memory.read_writeBytes _ _ _ _).trans (if_neg (by omega))
  case noBytes =>
    rintro t rfl
    have hchunk : (s.err.raised k ph none c).chunk = c.or s.err.chunk := by cases c <;> rfl
    exact ⟨rfl, rfl, rfl, rfl, rfl, hchunk⟩

/-- Settles O20: on a fresh reply DEC.RHR4 is its body, which an empty reply, a bad one and a good one take apart. -/
theorem decRhr4ValidatesThenExtracts : Obligations.DecRhr4ValidatesThenExtracts := by
  intro s B hB hl hf
  rw [exec_decRhr4_of_fresh hB hl hf]
  refine ⟨?_, fun hne hbad => by rw [decodeRhr4_of_not_ok hne hbad],
    fun hok => by rw [decodeRhr4_of_ok hok]; rfl⟩
  rintro rfl
  rw [decodeRhr4_nil]

/-- Settles O21: on a fresh reply DEC.ACK is its body, which tests for the one byte. -/
theorem decAckComparesOneByte : Obligations.DecAckComparesOneByte := by
  intro s B hB hl hf
  rw [exec_decAck_of_fresh hB hl hf]
  exact next_clauses_of_cases (decodeAck_cases B s).symm

/-- Settles O22: on a fresh reply of a session without an identity DEC.INFO is its body; the numbers that the assembled fields stand for are those of the bytes. -/
theorem decInfoValidatesThenExtracts : Obligations.DecInfoValidatesThenExtracts := by
  intro s B hB hl hf hv
  rw [exec_decInfo_of_unidentified hB hl hf hv]
  simp only [← infoOk_iff]
  refine ⟨?_, fun hne hbad => by rw [decodeInfo_of_not_ok hne hbad], fun hok => ?_⟩
  · rintro rfl
    rw [decodeInfo_nil]
  · refine ⟨le32 (byteAt B 3) (byteAt B 4) (byteAt B 5) (byteAt B 6),
      le16 (byteAt B 7) (byteAt B 8), ?_, toNat_le16 _ _, ?_⟩
    · rw [toNat_le32]
      ring
    · rw [decodeInfo_of_infoOk hok]
      rfl

end

