-- ==== Sys2Proof/Proofs/Messages.lean ====
section
/-! The wire messages as instructions: those that FC16 sends (Log 8) and those that it receives (Log 9), and what the decode operations make of a received one (30_encoding.md R82 to R94). -/

namespace Sys2Proof.Machine

/-! ## Sent messages -/

section
variable {s : State} (hl : s.live = true)
include hl

/-- A frame loaded and then sent by two operations. -/
theorem runAll_load_send {load : Instr} {F : List Byte}
    (hload : exec load s = .next (s.loadFrame F)) (hF : F.length = 8) :
    runAll [load, .send] s = .next (s.loadFrame F).sendFrame := by
  have hframe : (s.loadFrame F).hasFrame F := hasFrame_loadFrame hF.le s
  have hne : (s.loadFrame F).tx.len.val ≠ 0 := by simp [hF]
  have hsend : exec .send (s.loadFrame F) = .next (s.loadFrame F).sendFrame := by
    rw [exec_send_of_frame (s := s.loadFrame F) hl hframe hne, sendFrame_loadFrame hF,
      State.loadFrame_session]
  rw [runAll_cons_of_next hload, runAll_cons_of_next hsend]
  rfl

theorem exec_rhrReq_of_crc {a : Byte} {p q c : Word}
    (hc : c = crc16 [a, 0x03, hi8 p, lo8 p, hi8 q, lo8 q]) :
    exec (.rhrReq a p q c) s = .next (s.loadFrame (encReq a 0x03 p q)).sendFrame :=
  (admitted_of_live hl _).trans (if_pos hc)

theorem exec_rhrReq_of_not_crc {a : Byte} {p q c : Word}
    (hc : c ≠ crc16 [a, 0x03, hi8 p, lo8 p, hi8 q, lo8 q]) :
    exec (.rhrReq a p q c) s = .refused .checksumMismatch :=
  (admitted_of_live hl _).trans (if_neg hc)

theorem exec_wsrReq_of_crc {a : Byte} {p q c : Word}
    (hc : c = crc16 [a, 0x06, hi8 p, lo8 p, hi8 q, lo8 q]) :
    exec (.wsrReq a p q c) s = .next (s.loadFrame (encReq a 0x06 p q)).sendFrame :=
  (admitted_of_live hl _).trans (if_pos hc)

theorem exec_wsrReq_of_not_crc {a : Byte} {p q c : Word}
    (hc : c ≠ crc16 [a, 0x06, hi8 p, lo8 p, hi8 q, lo8 q]) :
    exec (.wsrReq a p q c) s = .refused .checksumMismatch :=
  (admitted_of_live hl _).trans (if_neg hc)

theorem exec_rd4Req_of_live :
    exec .rd4Req s = .next (s.loadFrame Config.frameRd4).sendFrame :=
  admitted_of_live hl _

theorem exec_rebootReq_of_live :
    exec .rebootReq s = .next (s.loadFrame Config.frameReboot).sendFrame :=
  admitted_of_live hl _

theorem exec_chunk_of_lt (hs : s.session = .transferring)
    (hi : s.chunkIdx < nchunks s.cfg.image.length) (d : List Byte) :
    exec (.chunk d) s =
      if d = chunkOf s.cfg.image s.chunkIdx then .next s.sendChunk else .refused .notTheNextChunk :=
  (inSession_of_eq hl hs _).trans (if_pos hi)

end

/-- A frame that the link takes is in `TXBUF` and on the link. -/
theorem sendFrame_loadFrame_of_ok {s : State} {F : List Byte} (hF : F.length = 8)
    (hok : s.link.nextWrite = .ok) :
    (s.loadFrame F).sendFrame =
      { s with
        tx := { buf := s.tx.buf.writeBytes 0 F, len := 8 }
        link := s.link.tookWrite (.wrote F) } := by
  rw [sendFrame_loadFrame hF, writeAll_of_ok (s := s.loadFrame F) hok, loadFrame_of_length_eq hF]

/-! ## Received messages -/

theorem exec_rd4Rsp_of_live {s : State} (hl : s.live = true) (m : Word) (x5 x6 x7 x8 x9 v : Byte)
    (c : Word) :
    exec (.rd4Rsp m x5 x6 x7 x8 x9 v c) s = .next (s.deliver (rspBytes m x5 x6 x7 x8 x9 v c)) :=
  admitted_of_live hl _

theorem exec_infoRsp_of_live {s : State} (hl : s.live = true) (f0 f1 f2 : Byte) (serial : DWord)
    (m : Word) (x9 x10 v y : Byte) :
    exec (.infoRsp f0 f1 f2 serial m x9 x10 v y) s =
      .next (s.deliver (infoBytes f0 f1 f2 serial m x9 x10 v y)) :=
  admitted_of_live hl _

section
variable (B : List Byte) (s : State)
@[simp] theorem State.deliver_err : (s.deliver B).err = s.err := rfl
@[simp] theorem State.deliver_session : (s.deliver B).session = s.session := rfl
@[simp] theorem State.deliver_pre : (s.deliver B).pre = s.pre := rfl
@[simp] theorem State.deliver_ident : (s.deliver B).ident = s.ident := rfl
end

/-- The layout of R90 with the numbers given by their bytes. -/
theorem infoBytes_le (f0 f1 f2 b0 b1 b2 b3 l h x9 x10 v y : Byte) :
    infoBytes f0 f1 f2 (le32 b0 b1 b2 b3) (le16 l h) x9 x10 v y =
      [f0, f1, f2, b0, b1, b2, b3, l, h, x9, x10, v, y] := by
  simp [infoBytes]

theorem infoBytes_ne_nil (f0 f1 f2 : Byte) (serial : DWord) (m : Word) (x9 x10 v y : Byte) :
    infoBytes f0 f1 f2 serial m x9 x10 v y ≠ [] :=
  List.cons_ne_nil _ _

theorem rspBytes_ne_nil (m : Word) (x5 x6 x7 x8 x9 v : Byte) (c : Word) :
    rspBytes m x5 x6 x7 x8 x9 v c ≠ [] :=
  List.cons_ne_nil _ _

/-- A read response passes the check exactly with its checksum (R87, 42_frame_decode.md R156). -/
theorem rhr4Ok_rspBytes_iff (m : Word) (x5 x6 x7 x8 x9 v : Byte) (c : Word) :
    rhr4Ok (rspBytes m x5 x6 x7 x8 x9 v c) = true ↔ c = crc16 (rspBody m x5 x6 x7 x8 x9 v) := by
  have hcrc : crcOk (rspBytes m x5 x6 x7 x8 x9 v c) = true ↔
      c = crc16 (rspBody m x5 x6 x7 x8 x9 v) := by
    rw [rspBytes, crcOk_append_pair_iff]
    refine ⟨fun h => ?_, fun h => by rw [h]⟩
    simp only [List.cons.injEq, and_true] at h
    obtain ⟨hlo, hhi⟩ := h
    exact eq_of_hi8_lo8_eq hhi hlo
  rw [rhr4Ok_iff, hcrc]
  exact ⟨fun ⟨_, _, h⟩ => h, fun h => ⟨rfl, rfl, h⟩⟩

/-- An info reply passes the check exactly with the configured first three bytes (R90, 42_frame_decode.md R160). -/
theorem infoOk_infoBytes_iff (cfg : SessionConfig) (f0 f1 f2 : Byte) (serial : DWord) (m : Word)
    (x9 x10 v y : Byte) :
    infoOk cfg (infoBytes f0 f1 f2 serial m x9 x10 v y) = true ↔
      [f0, f1, f2] = cfg.infoPrefix.toList :=
  (infoOk_iff _ _).trans ⟨fun ⟨_, h⟩ => h, fun h => ⟨rfl, h⟩⟩

/-- A delivered message waits to be decoded. -/
theorem hasReply_deliver {B : List Byte} (hB : B.length ≤ 13) (s : State) :
    (s.deliver B).hasReply B :=
  hasReply_storeReply hB _

section
variable {s : State} {i : Instr} {B : List Byte} (hl : s.live = true) (hB : B.length ≤ 13)
  (hi : exec i s = .next (s.deliver B))
include hl hB hi

/-- A message that arrives is what the next decode operation reads. -/
theorem runAll_deliver_decRhr4 :
    runAll [i, .decRhr4] s = .next ((s.deliver B).decodeRhr4 B) := by
  have hdec := exec_decRhr4_of_fresh (s := s.deliver B) (hasReply_deliver hB s) hl rfl
  rw [runAll_cons_of_next hi, runAll_cons_of_next hdec]
  rfl

theorem runAll_deliver_decInfo (hv : s.ident.valid = false) :
    runAll [i, .decInfo] s = .next ((s.deliver B).decodeInfo B) := by
  have hdec := exec_decInfo_of_unidentified (s := s.deliver B) (hasReply_deliver hB s) hl rfl hv
  rw [runAll_cons_of_next hi, runAll_cons_of_next hdec]
  rfl

end

theorem decodeInfo_deliver_of_ok {s : State} {B : List Byte} (h : infoOk s.cfg B = true) :
    (s.deliver B).decodeInfo B = ((s.deliver B).takeIdentity B).consumeReply :=
  decodeInfo_of_infoOk h

theorem decodeInfo_deliver_of_not_ok {s : State} {B : List Byte} (hne : B ≠ [])
    (h : ¬infoOk s.cfg B = true) :
    (s.deliver B).decodeInfo B = (s.deliver B).raise .protocolViolation .identify (some B) none :=
  decodeInfo_of_not_ok hne h

end Sys2Proof.Machine

open Sys2Proof Sys2Proof.Machine

/-- Settles O57: a request message with its checksum loads the frame and sends it, as its two operations do; a chunk message is SENDCHUNK behind the test of its bytes. -/
theorem sentMessagesAreWritten : Obligations.SentMessagesAreWritten := by
  intro s hl
  have hrhr (a : Byte) (p q : Word) :
      exec (.encRhr a p q) s = .next (s.loadFrame (encReq a 0x03 p q)) := admitted_of_live hl _
  have hwsr (a : Byte) (p q : Word) :
      exec (.encWsr a p q) s = .next (s.loadFrame (encReq a 0x06 p q)) := admitted_of_live hl _
  have hrd4 : exec .ldRd4 s = .next (s.loadFrame Config.frameRd4) := admitted_of_live hl _
  have hreboot : exec .ldReboot s = .next (s.loadFrame Config.frameReboot) := admitted_of_live hl _
  refine ⟨fun a p q c => ⟨fun hc => ?_, exec_rhrReq_of_not_crc hl, fun hc => ?_,
    exec_wsrReq_of_not_crc hl⟩, ?_, ?_, fun d hs hi => ⟨fun hd => ?_, fun hd => ?_⟩,
    fun hok => ⟨fun a p q => ⟨?_, ?_⟩, ?_, ?_, fun hs hi => ?_⟩⟩
  · rw [exec_rhrReq_of_crc hl hc, runAll_load_send hl (hrhr a p q) rfl]
  · rw [exec_wsrReq_of_crc hl hc, runAll_load_send hl (hwsr a p q) rfl]
  · rw [exec_rd4Req_of_live hl, runAll_load_send hl hrd4 rfl]
  · rw [exec_rebootReq_of_live hl, runAll_load_send hl hreboot rfl]
  · rw [exec_chunk_of_lt hl hs hi, if_pos hd, exec_sendchunk_of_lt hl hs hi, State.sendChunk]
  · rw [exec_chunk_of_lt hl hs hi, if_neg hd]
  · rw [exec_rhrReq_of_crc hl rfl, sendFrame_loadFrame_of_ok rfl hok]
  · rw [exec_wsrReq_of_crc hl rfl, sendFrame_loadFrame_of_ok rfl hok]
  · rw [exec_rd4Req_of_live hl, sendFrame_loadFrame_of_ok rfl hok]
  · rw [exec_rebootReq_of_live hl, sendFrame_loadFrame_of_ok rfl hok]
  · rw [exec_chunk_of_lt hl hs hi, if_pos rfl, State.sendChunk, writeAll_of_ok hok]

/-- Settles O58: each of the six is a delivery of its bytes behind the common check. -/
theorem receivedMessagesEnterTheBuffer : Obligations.ReceivedMessagesEnterTheBuffer := by
  intro s hl i B hi
  have hdeliver : exec i s = admitted s (.next (s.deliver B)) := by
    rcases hi with ⟨m, x5, x6, x7, x8, x9, v, c, rfl, rfl⟩ | ⟨k, rfl, rfl⟩ |
      ⟨f0, f1, f2, b0, b1, b2, b3, l, h, x9, x10, v, y, rfl, rfl⟩ | ⟨rfl, rfl⟩ |
      ⟨t0, t1, t2, t3, rfl, rfl⟩ | ⟨t0, t1, t2, t3, t4, t5, rfl, rfl⟩
    case inr.inr.inl => rw [← infoBytes_le]; rfl
    all_goals rfl
  rw [hdeliver, admitted_of_live hl]
  rfl

/-- Settles O59: the response that arrived is what DEC.RHR4 reads, and its check turns on the checksum field alone. -/
theorem readResponseIsDecoded : Obligations.ReadResponseIsDecoded := by
  intro s m x5 x6 x7 x8 x9 v c hl
  have hok := rhr4Ok_rspBytes_iff m x5 x6 x7 x8 x9 v c
  refine ⟨_, runAll_deliver_decRhr4 hl (le_refl 13) (exec_rd4Rsp_of_live hl ..), fun hc => ?_,
    fun hc => ?_⟩
  · rw [decodeRhr4_of_ok (hok.mpr hc)]
    simp [State.takePreIdentity, rspBytes, rspBody, byteAt]
  · rw [decodeRhr4_of_not_ok (rspBytes_ne_nil m x5 x6 x7 x8 x9 v c)
      (Bool.eq_false_iff.mpr (mt hok.mp hc))]
    simp

/-- Settles O60: the reply that arrived is what DEC.INFO reads, and its check turns on the first three bytes alone. -/
theorem infoReplyIsDecoded : Obligations.InfoReplyIsDecoded := by
  intro s f0 f1 f2 serial m x9 x10 v y hl hv
  have hok := infoOk_infoBytes_iff s.cfg f0 f1 f2 serial m x9 x10 v y
  refine ⟨_, runAll_deliver_decInfo hl (le_refl 13) (exec_infoRsp_of_live hl ..) hv, fun hp => ?_,
    fun hp => ?_⟩
  · rw [decodeInfo_deliver_of_ok (hok.mpr hp)]
    simp [State.takeIdentity, infoBytes, byteAt]
  · rw [decodeInfo_deliver_of_not_ok (infoBytes_ne_nil f0 f1 f2 serial m x9 x10 v y) (mt hok.mp hp)]
    simp

end

