-- ==== Sys2Proof/Proofs/PhaseOutcomes.lean ====
section
/-! Where PH.DETECT and PH.LEGACY leave the machine when the link takes their calls (44_session_phases.md R195 to R198). -/

namespace Sys2Proof.Machine

@[simp] theorem writesOf_append (A B : List LinkEvent) :
    writesOf (A ++ B) = writesOf A ++ writesOf B := by
  induction A with
  | nil => rfl
  | cons e A ih => cases e <;> simp [writesOf, ih]

@[simp] theorem reply_setSession (x : Session) (s : State) : (s.setSession x).reply = s.reply := rfl

/-- A response that is not accepted is a timeout where it is empty, and else a protocol violation. -/
theorem decodeRhr4_of_bad {B : List Byte} (h : rhr4Ok B = false) (s : State) :
    ∃ b, s.decodeRhr4 B =
      s.raise (if B = [] then .timeout else .protocolViolation) .legacy b none := by
  by_cases hB : B = []
  · exact ⟨none, by rw [if_pos hB, hB, decodeRhr4_nil]⟩
  · exact ⟨some B, by rw [if_neg hB, decodeRhr4_of_not_ok hB h]⟩

theorem decodeAck_of_eq {s : State} {B : List Byte} (h : B = [s.cfg.rebootAck]) :
    s.decodeAck B = s.consumeReply := by
  rcases decodeAck_cases B s with ⟨hne, -⟩ | ⟨-, e⟩
  · exact absurd h hne
  · exact e

section
variable {s : State} {r : List Byte} (hl : s.live = true)
include hl

/-- PH.DETECT on a reply: the comparison decides where the session goes (R195). -/
theorem detect_of_bytes (hw : s.link.nextWrite = .ok)
    (hr : (s.link.tookWrite (.wrote s.cfg.tokQuery)).nextRead = .bytes r) :
    s.detect =
      { s with
        link := (s.link.tookWrite (.wrote s.cfg.tokQuery)).tookRead (.readGave (r.take 4))
        rx := { buf := Memory.ofBytes (r.take 4), len := lengthReg 13 (r.take 4).length,
                fresh := false }
        matched := decide (r.take 4 = s.cfg.tokBoot.toList)
        session :=
          if r.take 4 = s.cfg.tokBoot.toList then .bootloaderConfirmed else .legacyDetected } := by
  have hk := noFault_of_live hl
  have hlen : (r.take 4).length ≤ 13 := (List.length_take_le 4 r).trans (by decide)
  rw [State.detect, exchange_of_bytes hk hw hr]
  generalize hT : r.take Config.bootTokLen = T
  rw [show r.take 4 = T from hT] at hlen ⊢
  rw [andThen_assoc, andThen_assoc, andThen_of_none (by exact hk),
    andThen_of_none (by exact hk), andThen_of_none (by exact hk),
    reply_setSession, reply_storeReply hlen]
  by_cases hboot : T = s.cfg.tokBoot.toList
  all_goals simp [hboot, State.compareBoot, tokEq, State.setSession, State.setMatched,
    State.consumeReply, State.setRx, State.storeReply, State.setLink]

variable (hw : s.link.nextWrite = .ok)
include hw

/-- The first half of PH.LEGACY is DEC.RHR4 on the response (R197). -/
theorem legacyRead_of_bytes
    (hr : (s.link.tookWrite (.wrote Config.frameRd4)).nextRead = .bytes r) :
    s.legacyRead =
      ((((s.setDeadline 5).loadFrame Config.frameRd4).setLink
        ((s.link.tookWrite (.wrote Config.frameRd4)).tookRead (.readGave (r.take 13)))).storeReply
          (r.take 13)).decodeRhr4 (r.take 13) := by
  have hk := noFault_of_live hl
  have hlen : (r.take 13).length ≤ 13 := List.length_take_le 13 r
  rw [State.legacyRead, sendFrame_loadFrame rfl,
    exchange_of_bytes (by exact hk) (by exact hw) (by exact hr), andThen_of_none (by exact hk),
    reply_storeReply (by exact hlen)]
  rfl

/-- The second half of PH.LEGACY on the acknowledgment (R197). -/
theorem legacyReboot_of_ack
    (hr : (s.link.tookWrite (.wrote Config.frameReboot)).nextRead = .bytes [s.cfg.rebootAck]) :
    s.legacyReboot =
      { s with
        tx := { buf := s.tx.buf.writeBytes 0 Config.frameReboot, len := 8 }
        rx := { buf := Memory.ofBytes [s.cfg.rebootAck], len := 1, fresh := false }
        session := .bootloaderConfirmed
        link := (s.link.tookWrite (.wrote Config.frameReboot)).tookRead
          (.readGave [s.cfg.rebootAck]) } := by
  have hk := noFault_of_live hl
  rw [State.legacyReboot, sendFrame_loadFrame rfl, writeAll_eq_setLink (by exact hw)]
  simp only [andThen_assoc]
  rw [andThen_of_none (by exact hk), andThen_of_none (by exact hk), receive_of_bytes (by exact hr),
    andThen_of_none (by exact hk), List.take_of_length_le (le_refl 1), reply_storeReply (by simp),
    decodeAck_of_eq (by rfl), andThen_of_none (by exact hk), loadFrame_of_length_eq rfl]
  simp [State.setSession, State.consumeReply, State.setRx, State.storeReply, State.setLink, lengthReg]

end

end Sys2Proof.Machine
open Sys2Proof Sys2Proof.Machine

/-- Settles O33: after one exchange the comparison with the whole token decides. -/
theorem phDetectDecidesOnTheReply : Obligations.PhDetectDecidesOnTheReply := by
  intro s r hl hs hw hr
  rw [← detect_of_bytes hl hw hr]
  exact inSession_of_eq hl hs _

/-- Settles O34: the first half of the phase is DEC.RHR4 on the response; where it raises, the second half does not run, and else the acknowledgment ends it. -/
theorem phLegacyReachesBootloader : Obligations.PhLegacyReachesBootloader := by
  refine ⟨fun s B rs ws hl hs hok hr hw => ?accepted, fun s r hl hs hw hr hbad => ?rejected⟩
  case accepted =>
    obtain ⟨hlen, -⟩ := (rhr4Ok_iff B).mp hok
    have hread := legacyRead_of_bytes hl (nextWrite_of_writes hw)
      (nextRead_of_reads (l := s.link.tookWrite (.wrote Config.frameRd4)) hr)
    rw [List.take_of_length_le hlen.le, decodeRhr4_of_ok hok,
      tookRead_tookWrite_of_script hr hw] at hread
    have hlive : s.legacyRead.live = true :=
      (live_congr (by simp [hread, State.takePreIdentity])
        (by simp [hread, State.takePreIdentity])).trans hl
    have hreboot := legacyReboot_of_ack hlive (by rw [hread]; rfl) (by rw [hread]; rfl)
    have hexec : exec .phLegacy s = .next s.legacyRead.legacyReboot :=
      (inSession_of_eq hl hs _).trans
        (by rw [State.legacy, andThen_of_none (noFault_of_live hlive)])
    rw [hexec, hreboot, hread]
    simp [State.takePreIdentity, State.setDeadline, State.setPre, State.setOut, Link.tookWrite,
      Link.tookRead]
  case rejected =>
    have hread := legacyRead_of_bytes hl hw hr
    obtain ⟨b, hdec⟩ := decodeRhr4_of_bad hbad
      (((((s.setDeadline 5).loadFrame Config.frameRd4).setLink
        ((s.link.tookWrite (.wrote Config.frameRd4)).tookRead (.readGave (r.take 13)))).storeReply
          (r.take 13)))
    have hk : s.legacyRead.err.kind ≠ .none := by
      rw [hread, hdec, State.raise_err, ErrRecord.raised_kind]
      split <;> exact nofun
    refine ⟨s.legacyRead, (inSession_of_eq hl hs _).trans ?_, ?_⟩
    · rw [State.legacy, andThen_of_faulted hk]
    · rw [hread, hdec]
      simp [writesOf]

/-! # PH.XFER on a scripted link: the state after each acknowledged chunk, and what ends the transfer (44_session_phases.md R206 to R211). -/

namespace Sys2Proof.Machine

/-- Within PH.XFER begun at `s`: the start command and the first `k` chunks are written and acknowledged, and the link will answer with `rs` and `ws`. -/
structure Sent (s : State) (k : Nat) (rs : List ReadDraw) (ws : List WriteDraw) (u : State) :
    Prop where
  frame : u = { s with session := .transferring, chunkIdx := k, rx := u.rx, link := u.link }
  fresh : u.rx.fresh = false
  reads : u.link.reads = rs
  writes : u.link.writes = ws
  log : writesOf u.link.log = writesOf s.link.log ++ s.cfg.tokStart :: firstChunks s.cfg.image k

theorem firstChunks_succ (image : List Byte) (k : Nat) :
    firstChunks image (k + 1) = firstChunks image k ++ [chunkOf image k] := by
  simp [firstChunks, List.range_succ]

theorem checkReady_of_eq {s : State} {B : List Byte} (h : B = s.cfg.tokReady.toList) :
    s.checkReady B = s.consumeReply := by
  rcases checkReady_cases B s with ⟨-, e⟩ | ⟨hne, -⟩
  · exact e
  · exact absurd h hne

theorem checkOk_tokOk (s : State) : s.checkOk Config.tokOk = s.consumeReply := by
  rcases checkOk_cases Config.tokOk s with ⟨-, e⟩ | ⟨hne, -⟩
  · exact e
  · exact absurd rfl hne

theorem checkOk_of_ne {B : List Byte} (h : B ≠ Config.tokOk) (s : State) :
    s.checkOk B = s.raise .protocolViolation .transfer (some B) (some s.chunkIdx) := by
  rcases checkOk_cases B s with ⟨heq, -⟩ | ⟨-, e⟩
  · exact absurd heq h
  · exact e

section
variable {s u : State} {k : Nat} {rs : List ReadDraw} {ws : List WriteDraw}

theorem Sent.err (h : Sent s k rs ws u) : u.err = s.err := by rw [h.frame]
theorem Sent.noFault (hk : s.err.kind = .none) (h : Sent s k rs ws u) : u.err.kind = .none := by
  rw [h.err, hk]
theorem Sent.cfg (h : Sent s k rs ws u) : u.cfg = s.cfg := by rw [h.frame]
theorem Sent.chunkIdx (h : Sent s k rs ws u) : u.chunkIdx = k := by rw [h.frame]

/-- The ready token opens the transfer. -/
theorem sent_startTransfer (hk : s.err.kind = .none)
    (hr : s.link.reads = .bytes s.cfg.tokReady.toList :: rs) (hw : s.link.writes = .ok :: ws) :
    Sent s 0 rs ws s.startTransfer := by
  have hlen : s.cfg.tokReady.toList.length = 6 := Vector.length_toList
  rw [State.startTransfer, exchange_of_bytes hk (nextWrite_of_writes hw)
    (nextRead_of_reads (by exact hr)), tookRead_tookWrite_of_script hr hw,
    List.take_of_length_le (by exact hlen.le)]
  simp only [andThen_assoc]
  rw [andThen_of_none (by exact hk), reply_storeReply (by omega), checkReady_of_eq (by rfl),
    andThen_of_none (by exact hk), andThen_of_none (by exact hk)]
  exact ⟨rfl, rfl, rfl, rfl, by simp [writesOf, firstChunks]⟩

/-- One turn of the loop is CHK.OK on the answer, and the next index where it accepts it. -/
theorem Sent.transferChunk_eq {r : List Byte} (hk : s.err.kind = .none)
    (h : Sent s k (.bytes r :: rs) (.ok :: ws) u) :
    u.transferChunk =
      (((u.setLink { reads := rs, writes := ws, calls := u.link.calls + 2, log := u.link.log ++
        [.wrote (chunkOf s.cfg.image k), .readGave (r.take 2)] }).storeReply (r.take 2)).checkOk
          (r.take 2)).andThen (fun s => s.setChunkIdx (s.chunkIdx + 1)) := by
  have hlen : (r.take 2).length ≤ 13 := (List.length_take_le 2 r).trans (by decide)
  have huk := h.noFault hk
  rw [State.transferChunk, State.sendChunk, h.cfg, h.chunkIdx,
    exchange_of_bytes huk (nextWrite_of_writes h.writes) (nextRead_of_reads (by exact h.reads)),
    andThen_assoc, andThen_of_none (by exact huk), reply_storeReply (by exact hlen),
    tookRead_tookWrite_of_script h.reads h.writes]
  rfl

/-- The right acknowledgment takes the transfer one chunk further. -/
theorem Sent.transferChunk (hk : s.err.kind = .none)
    (h : Sent s k (.bytes Config.tokOk :: rs) (.ok :: ws) u) :
    Sent s (k + 1) rs ws u.transferChunk := by
  have huk := h.noFault hk
  rw [h.transferChunk_eq hk, List.take_of_length_le (le_refl 2), checkOk_tokOk,
    andThen_of_none (by exact huk)]
  refine ⟨?_, rfl, rfl, rfl, ?_⟩
  · rw [h.frame]
    rfl
  · simp [writesOf, h.log, firstChunks_succ]

/-- A wrong acknowledgment ends it, with the chunk's index and the bytes recorded. -/
theorem Sent.transferChunk_of_bad {bad : List Byte} (hk : s.err.kind = .none)
    (h : Sent s k (.bytes bad :: rs) (.ok :: ws) u) (hbad : bad.take 2 ≠ Config.tokOk) :
    ∃ v : State,
      u.transferChunk = v.raise .protocolViolation .transfer (some (bad.take 2)) (some k) ∧
      v = { s with session := .transferring, chunkIdx := k, rx := v.rx, link := v.link } ∧
      v.rx.fresh = true ∧ v.link.reads = rs ∧ v.link.writes = ws ∧
      writesOf v.link.log =
        writesOf s.link.log ++ s.cfg.tokStart :: firstChunks s.cfg.image (k + 1) := by
  rw [h.transferChunk_eq hk, checkOk_of_ne hbad, andThen_of_faulted (by exact nofun),
    State.storeReply_chunkIdx, State.setLink_chunkIdx, h.chunkIdx]
  refine ⟨_, rfl, ?_, rfl, rfl, rfl, ?_⟩
  · rw [h.frame]
    rfl
  · simp [writesOf, h.log, firstChunks_succ]

/-- `n` right acknowledgments take it `n` chunks further. -/
theorem Sent.transferLoop (hk : s.err.kind = .none) {n : Nat} (m : Nat)
    (h : Sent s k (List.replicate n (.bytes Config.tokOk) ++ rs) (List.replicate n .ok ++ ws) u)
    (hn : k + n ≤ nchunks s.cfg.image.length) :
    ∃ v, Sent s (k + n) rs ws v ∧ u.transferLoop (n + m) = v.transferLoop m := by
  induction n generalizing k u with
  | zero => exact ⟨u, h, by rw [Nat.zero_add]⟩
  | succ n ih =>
    have hnext := Sent.transferChunk hk h
    obtain ⟨v, hv, e⟩ := ih hnext (by omega)
    refine ⟨v, by rwa [Nat.add_assoc, Nat.add_comm 1] at hv, ?_⟩
    rw [Nat.add_right_comm, State.transferLoop, if_pos (by rw [h.chunkIdx, h.cfg]; omega),
      andThen_of_none (hnext.noFault hk), e]

end

end Sys2Proof.Machine

open Sys2Proof Sys2Proof.Machine

/-- Settles O38: the opening, `nchunks` acknowledged turns, and the end. -/
theorem phXferSendsTheWholeImage : Obligations.PhXferSendsTheWholeImage := by
  intro s rs ws hl hs hr hw
  have hk := noFault_of_live hl
  have h0 := sent_startTransfer hk hr hw
  obtain ⟨v, hv, hloop⟩ := h0.transferLoop hk 0 (Nat.zero_add _).le
  rw [Nat.zero_add] at hv
  have ht : s.transfer = v.setSession .complete := by
    rw [State.transfer, andThen_of_none (h0.noFault hk), h0.cfg]
    exact (congrArg (fun u => State.andThen u _) hloop).trans (andThen_of_none (hv.noFault hk) _)
  refine ⟨v.setSession .complete, ?_, ?_, hv.fresh, hv.reads, hv.writes, hv.log, ?_⟩
  · exact (inSession_of_eq hl hs _).trans (congrArg _ ht)
  · rw [hv.frame]
    rfl
  · rw [flatten_firstChunks]
    exact List.take_of_length_le (by omega)

/-- Settles O39: the opening, `k` acknowledged turns, and one that CHK.OK ends. -/
theorem phXferStopsAtTheFirstBadAcknowledgment :
    Obligations.PhXferStopsAtTheFirstBadAcknowledgment := by
  intro s k bad rs ws hl hs hlt hbad hr hw
  have hk := noFault_of_live hl
  have h0 := sent_startTransfer (ws := List.replicate k .ok ++ .ok :: ws) hk hr
    (by rw [hw, List.replicate_succ', List.append_assoc]; rfl)
  obtain ⟨m, hm⟩ : ∃ m, nchunks s.cfg.image.length = k + (m + 1) :=
    ⟨nchunks s.cfg.image.length - k - 1, by rw [nchunks_eq]; omega⟩
  obtain ⟨v, hv, hloop⟩ := h0.transferLoop hk (m + 1) (by omega)
  rw [Nat.zero_add] at hv
  obtain ⟨w, hturn, hframe, hfresh, hreads, hwrites, hlog⟩ := hv.transferChunk_of_bad hk hbad
  have hstop : v.transferLoop (m + 1) = v.transferChunk := by
    rw [State.transferLoop, if_pos (by rw [hv.chunkIdx, hv.cfg]; omega),
      andThen_of_faulted (by rw [hturn]; exact nofun)]
  have ht : s.transfer = w.raise .protocolViolation .transfer (some (bad.take 2)) (some k) := by
    rw [State.transfer, andThen_of_none (h0.noFault hk), h0.cfg, hm, hloop, hstop, hturn]
    exact andThen_of_faulted (by exact nofun) _
  refine ⟨_, (inSession_of_eq hl hs _).trans (congrArg _ ht), ?_, rfl, rfl, rfl, ?_, ?_,
    hfresh, hreads, hwrites, hlog⟩
  · rw [hframe]
    rfl
  · exact Nat.min_eq_left ((List.length_take_le 2 bad).trans (by decide))
  · exact Memory.readBytes_writeBytes _ _ _

end
